-- ==== Sys2Proof/Word.lean ====
section
/-! DEFINITION. The word types of the engine (R6: ADDR_WIDTH 16, DATA_WIDTH 8). -/

namespace Sys2Proof

/-- A byte of the data bus, of an expander register or of a serial frame (R6: DATA_WIDTH = 8). -/
abbrev Byte := BitVec 8

/-- A cartridge bus address, lines A15..A0 (R6: ADDR_WIDTH = 16). -/
abbrev Addr := BitVec 16

end Sys2Proof
end

