-- ==== Sys2Proof/Syntax.lean ====
section
/-! DEFINITION. The enumerations of R10 and the engine's instructions: one constructor of `Instr` for each row of
spec/opcode_table.json (R2, R82, R72, R75-R80, R73), with the operands of R82 and R83. -/

namespace Sys2Proof

/-- R10: `L` is the asserted (low) level and `H` the idle (high) level of every control line. -/
inductive Level
  | L
  | H
deriving DecidableEq, Repr, Inhabited

/-- R10: the direction of the expander's data pins. -/
inductive DataDirection
  | input
  | output
deriving DecidableEq, Repr, Inhabited

/-- R10: the four control lines. -/
inductive Line
  | rd
  | wr
  | cs
  | rst
deriving DecidableEq, Repr, Inhabited

/-- R10: the five reader variants in scope (R1). -/
inductive Variant
  | romOnly
  | mbc1
  | mbc2
  | mbc3
  | mbc5
deriving DecidableEq, Repr, Inhabited

/-- R116: what a seek offset counts from. `fromEnd` is the rule's `End`. -/
inductive Whence
  | start
  | current
  | fromEnd
deriving DecidableEq, Repr, Inhabited

/-- The instructions: the 23 operations of R82, the 4 expander frames of R72, the 6 bank-select bus writes of
R75-R80 and the bus read cycle of R73. -/
inductive Instr
  /-- BD.INIT (R95) -/
  | bdInit
  /-- BD.SET_ADDRESS a (R96) -/
  | bdSetAddress (a : Addr)
  /-- BD.READ_BYTE (R97) -/
  | bdReadByte
  /-- BD.WRITE_BYTE v (R98) -/
  | bdWriteByte (v : Byte)
  /-- BD.TEARDOWN (R99) -/
  | bdTeardown
  /-- BD.SET_DIR d (R91) -/
  | bdSetDir (d : DataDirection)
  /-- BD.SET_RD l (R92) -/
  | bdSetRd (l : Level)
  /-- BD.SET_CS l (R93) -/
  | bdSetCs (l : Level)
  /-- BD.PULSE_WR (R94) -/
  | bdPulseWr
  /-- EXP.WRITE r, v (R89) -/
  | expWrite (r v : Byte)
  /-- EXP.READ r (R90) -/
  | expRead (r : Byte)
  /-- BUS.WRITE a, v (R109) -/
  | busWrite (a : Addr) (v : Byte)
  /-- BUS.READ a (R108) -/
  | busRead (a : Addr)
  /-- HW.READ n (R114) -/
  | hwRead (n : Nat)
  /-- HW.SEEK whence, off (R116) -/
  | hwSeek (whence : Whence) (off : Int)
  /-- DISPATCH (R121) -/
  | dispatch
  /-- RDR.READ n (R139) -/
  | rdrRead (n : Nat)
  /-- RDR.SIZE (R143) -/
  | rdrSize
  /-- RDR.STATUS (R144) -/
  | rdrStatus
  /-- BANKSEL.MBC1 b (R133) -/
  | bankselMbc1 (b : BitVec 8)
  /-- BANKSEL.MBC2 b (R134) -/
  | bankselMbc2 (b : BitVec 8)
  /-- BANKSEL.MBC3 b (R135) -/
  | bankselMbc3 (b : BitVec 8)
  /-- BANKSEL.MBC5 b (R136) -/
  | bankselMbc5 (b : BitVec 9)
  /-- EXP.WR_IOCON: the frame `0100ddd0 00000101 vvvvvvvv` (R72) -/
  | expWrIocon (d : BitVec 3) (v : Byte)
  /-- EXP.WR_IODIR: the frame `0100ddd0 00000000 vvvvvvvv` (R72) -/
  | expWrIodir (d : BitVec 3) (v : Byte)
  /-- EXP.WR_GPIO: the frame `0100ddd0 00001001 vvvvvvvv` (R72) -/
  | expWrGpio (d : BitVec 3) (v : Byte)
  /-- EXP.RD_GPIO: the frame `0100ddd1 00001001 xxxxxxxx` (R72) -/
  | expRdGpio (d : BitVec 3) (x : Byte)
  /-- BUSW.MBC1.SEL_LO: `0x2000 : 000bbbbb` (R75) -/
  | buswMbc1SelLo (b : BitVec 5)
  /-- BUSW.MBC1.SEL_HI: `0x4000 : 000000hh` (R76) -/
  | buswMbc1SelHi (h : BitVec 2)
  /-- BUSW.MBC2.SEL: `0x2100 : 0000bbbb` (R77) -/
  | buswMbc2Sel (b : BitVec 4)
  /-- BUSW.MBC3.SEL: `0x2000 : bbbbbbbb` (R78) -/
  | buswMbc3Sel (b : BitVec 8)
  /-- BUSW.MBC5.SEL_LO: `0x2000 : bbbbbbbb` (R79) -/
  | buswMbc5SelLo (b : BitVec 8)
  /-- BUSW.MBC5.SEL_HI: `0x3000 : 0000000h` (R80) -/
  | buswMbc5SelHi (h : BitVec 1)
  /-- BUSR: a bus read cycle at a 16-bit address (R73) -/
  | busr (a : Addr)
deriving DecidableEq, Repr

end Sys2Proof
end

