-- ==== Sys2Proof/Config.lean ====
section
/-! DEFINITION. The parameters of the engine: the constants the source fixes (R6), the values the spec decides (R7),
and the free values of what it leaves open (R7: EXP_DEV, HeaderDecode, XferOracle; 93 U1-U6). A free value is an
opaque constant: no proof can see what it is. -/

namespace Sys2Proof

/-- R30: the header's MBC-type tags. `mbc3Like n` is a tag that the parameter Mbc3Family classifies as MBC3 and
`other n` every tag without a reader (DEDUCED: the classification is made where the tag is made, log 15). -/
inductive MbcTag
  | romOnly
  | mbc1
  | mbc1Ram
  | mbc1RamBattery
  | mbc2
  | mbc2Battery
  | mbc3Like (n : Nat)
  | mbc5
  | mbc5Ram
  | mbc5RamBattery
  | mbc5Rumble
  | mbc5RumbleRam
  | mbc5RumbleRamBattery
  | other (n : Nat)
deriving DecidableEq, Repr, Inhabited

/-- R30: the decoded header. -/
structure RomHeader where
  title : List Byte
  mbcType : MbcTag
  romSize : Nat
deriving DecidableEq, Repr, Inhabited

/-- R120: how the header decoder ends: with a header, with a failure of its own, or by passing up the address-range
error of one of its seeks (R156). A BusCommunicationError ends it where it is raised (R160). -/
inductive DecodeAnswer
  | header (h : RomHeader)
  | decodeError
  | addressRange (target : Int)
deriving DecidableEq, Repr, Inhabited

/-- R120: what a window operation tells the decoder: the bytes of an HW.READ, the new position of an HW.SEEK, or the
rejected target of one. -/
inductive WindowAnswer
  | bytes (bs : List Byte)
  | position (p : Nat)
  | rejected (target : Int)
deriving DecidableEq, Repr, Inhabited

/-- R120: one window operation of the decoder. -/
inductive WindowAct
  | read (n : Nat)
  | seek (whence : Whence) (off : Int)
deriving DecidableEq, Repr, Inhabited

/-- R120: a header decoder: any finite sequence of window operations, each chosen after seeing what the ones before
it answered, and then an answer. -/
inductive HeaderDecoder
  | answer (a : DecodeAnswer)
  | act (w : WindowAct) (k : WindowAnswer → HeaderDecoder)
deriving Inhabited

/-- One run of a header decoder as plain data: the window operations it makes and how it ends. -/
structure DecodeRun where
  acts : List WindowAct
  answer : DecodeAnswer
deriving DecidableEq, Repr, Inhabited

/-- R153: the context recorded with a bus communication error. -/
inductive BusContext
  | init
  | headerDecode
  | bankSelect
  | dataTransfer
deriving DecidableEq, Repr, Inhabited

/-- R7: the parameters that have a default. EXP_DEV, which has none, stands beside them in the state (log 6, log 7). -/
structure Params where
  /-- DIR_IN (D5, U11) -/
  dirIn : Byte
  /-- DIR_OUT (D5, U11) -/
  dirOut : Byte
  /-- IOCON_INIT (D6, U11) -/
  ioconInit : Byte
  /-- T_WR_LOW, in microseconds (D11, U12) -/
  tWrLow : Nat
deriving DecidableEq, Repr, Inhabited

namespace Config

/-- R6 -/
def bankSize : Nat := 0x4000
/-- R6: the Header Window's bound, exclusive. -/
def hdrEnd : Nat := 0x150
/-- R6 -/
def romOnlySize : Nat := 0x8000
/-- R6, R71: the expander's direction-configuration register. -/
def regIodir : Byte := 0x00#8
/-- R6, R71: the expander's operating-mode configuration register. -/
def regIocon : Byte := 0x05#8
/-- R6, R71: the expander's data register. -/
def regGpio : Byte := 0x09#8
/-- R6: minimum settle after a CS transition, in microseconds. -/
def tCs : Nat := 3
/-- R6: minimum settle after an RD transition, in microseconds. -/
def tRd : Nat := 4
/-- R6: minimum wait before WR is asserted, in microseconds. -/
def tWrPre : Nat := 1
/-- R6: minimum settle after the WR pulse, in microseconds. -/
def tWrPost : Nat := 5
/-- R7: the default of T_WR_LOW, the wait between WR's edges; DESIGN CHOICE of the spec (D11), log 7. -/
def tWrLow : Nat := 0
/-- R7: the default of DIR_IN; DESIGN CHOICE of the spec (D5), log 7. -/
def dirIn : Byte := 0xFF#8
/-- R7: the default of DIR_OUT; DESIGN CHOICE of the spec (D5), log 7. -/
def dirOut : Byte := 0x00#8
/-- R7: the default of IOCON_INIT; DESIGN CHOICE of the spec (D6), log 7. -/
def ioconInit : Byte := 0x20#8
/-- R7: the parameters at their defaults (log 7). -/
def params : Params := { dirIn := dirIn, dirOut := dirOut, ioconInit := ioconInit, tWrLow := tWrLow }
/-- R7: DESIGN CHOICE of the spec (D7), log 7. -/
def dontCare : Byte := 0x00#8
/-- R6, R37: MBC1 low register, MBC3 register, MBC5 low register. -/
def selLow : Addr := 0x2000#16
/-- R6, R37: MBC2 register. -/
def selMbc2 : Addr := 0x2100#16
/-- R6, R37: MBC5 high register. -/
def selMbc5High : Addr := 0x3000#16
/-- R6, R37: MBC1 high register. -/
def selMbc1High : Addr := 0x4000#16

/-- The byte that a bus address holds to which nothing has been written, the bank-select registers of R37 among them.
R38 and U25 give no value: here it is the power-on value of the vectors' cartridge, LO = 1 and HI = 0 (95_test_vectors.md
section 1), and 0 elsewhere (DESIGN CHOICE, log 14). -/
def busUnwritten (a : Nat) : Byte := if a = selLow.toNat ∨ a = selMbc2.toNat then 0x01#8 else 0x00#8

/-- R7, D4: EXP_DEV, an open parameter: a free value (log 6). -/
opaque expDev : BitVec 3

/-- R12, U3: whether the n-th exchange fails: a free value (log 4). -/
opaque xferFails : Nat → Bool

/-- R12, U1, U2: received bytes; exchange n receives the bytes 3n, 3n+1 and 3n+2: free values (log 4). -/
opaque xferByte : Nat → Byte

/-- R7, R120: HeaderDecode, any decoder: a free value (log 5). -/
opaque headerDecode : HeaderDecoder

/-- R153: the context in force while the caller itself has issued a primitive or a wire format, which R153's table
does not name: a free value for each number of exchanges made (log 12). -/
opaque directContext : Nat → BusContext

/-- U5: the address the cartridge sees while the address lines have not been driven: a free value (log 14). -/
opaque undrivenAddr : Nat → Addr

/-- R102: the byte on D7..D0 while the expander does not drive them, or drives them against the cartridge: a free value
(log 14). -/
opaque undrivenData : Nat → Byte

end Config
end Sys2Proof
end

