-- ==== Sys2Proof/WellFormed.lean ====
section
/-! DEFINITION. Which instructions are well formed: the operand ranges of R83 that the operand types do not already
hold, and the four frame forms of R72 and R84. -/

namespace Sys2Proof

/-- R83, R116: `off` is a non-negative integer for whence Start. Every other range of R83 is the operand's type. -/
def Instr.operandsOk : Instr → Bool
  | .hwSeek .start off => decide (0 ≤ off)
  | _ => true

/-- R72, R84: a frame the engine emits goes to the device EXP_DEV, and carries IOCON_INIT, DIR_IN or DIR_OUT where
R72 says so. (A read frame's third byte is a don't-care, R70.) -/
def Instr.engineFrame (expDev : BitVec 3) (p : Params) : Instr → Bool
  | .expWrIocon d v => d == expDev && v == p.ioconInit
  | .expWrIodir d v => d == expDev && (v == p.dirIn || v == p.dirOut)
  | .expWrGpio d _ => d == expDev
  | .expRdGpio d _ => d == expDev
  | _ => true

/-- Well-formed instructions of an engine strapped to `expDev` with the parameters `p`. -/
def Instr.wellFormed (expDev : BitVec 3) (p : Params) (i : Instr) : Bool :=
  i.operandsOk && i.engineFrame expDev p

/-- R2, R34, R82: the operations a caller issues in the source: those not marked "int" in R82 and reached neither
only through the window, the decoder and the reader (R34: the bus primitives) nor only as wire formats (R2). -/
def Instr.isSessionOp : Instr → Bool
  | .bdInit | .bdTeardown | .hwRead _ | .hwSeek _ _ | .dispatch | .rdrRead _ | .rdrSize | .rdrStatus => true
  | _ => false

end Sys2Proof
end

