-- ==== Sys2Proof/Decode.lean ====
section
/-! DEFINITION. The calls a caller issues, the decoder from a call to an instruction, and the encoder back. An
operation of R82 is its code and its operands (R83; DESIGN CHOICE: the operands are integers, log 10); a frame is the
24-bit word of R67, a bus write the 24-bit word of R74, a bus read the 16-bit address of R73. -/

namespace Sys2Proof

/-- One call as the caller issues it, in one of the table's four formats; `other` is a word of no format. -/
inductive Call
  /-- OP8 (R82): the code, followed by its operands. -/
  | op (code : Byte) (operands : List Int)
  /-- SPI3 (R67): t0 ++ t1 ++ t2. -/
  | frame (F : BitVec 24)
  /-- BUSW24 (R74): a ++ v. -/
  | busWrite (w : BitVec 24)
  /-- BUSR16 (R73). -/
  | busRead (a : Addr)
  /-- A word whose length is that of no format of the table. -/
  | other (nbits w : Nat)
deriving DecidableEq, Repr

/-- Why a call is no instruction. -/
inductive DecodeError
  /-- no operation has this code (R82) -/
  | unknownCode
  /-- the operation does not have this many operands (R82) -/
  | operandCount
  /-- an operand outside its range (R82, R83) -/
  | operandRange
  /-- a frame of none of the four forms of R72 (R84) -/
  | foreignFrame
  /-- a bus write that is no bank-select write (R37, R75-R80) -/
  | notABankSelect
  /-- a word of no format of the table (R86) -/
  | noSuchFormat
deriving DecidableEq, Repr, Inhabited

/-! ## Bit fields and frame words -/

/-- R68: the command byte of a write frame, `0x40 ∨ (zext_8(d) << 1)`, that is `0100ddd0`. -/
def writeCommand (d : BitVec 3) : Byte := 0x40#8 ||| (d.setWidth 8 <<< 1)

/-- R68: the command byte of a read frame, `0x41 ∨ (zext_8(d) << 1)`, that is `0100ddd1`. -/
def readCommand (d : BitVec 3) : Byte := 0x41#8 ||| (d.setWidth 8 <<< 1)

/-- R67: the 24-bit frame word t0 ++ t1 ++ t2: t0 in bits 23:16, t1 in bits 15:8, t2 in bits 7:0. -/
def frameWord (t0 t1 t2 : Byte) : BitVec 24 :=
  (t0.setWidth 24 <<< 16) ||| (t1.setWidth 24 <<< 8) ||| t2.setWidth 24

/-- R74: the 24-bit word a[15:0] ++ v[7:0] of a bus write cycle. -/
def busWriteWord (a : Addr) (v : Byte) : BitVec 24 := (a.setWidth 24 <<< 8) ||| v.setWidth 24

/-- A row of the table matches a word when the word agrees with the row's pattern under the row's mask. -/
def matchesRow (w mask pattern : BitVec 24) : Bool := w &&& mask == pattern

/-! ## Operands (R83) -/

/-- A w-bit operand: an integer in [0, 2^w). -/
def bitsOperand (w : Nat) (x : Int) : Except DecodeError (BitVec w) :=
  if 0 ≤ x ∧ x.toNat < 2 ^ w then .ok (BitVec.ofNat w x.toNat) else .error .operandRange

/-- A natural operand: any integer from 0 on. -/
def natOperand (x : Int) : Except DecodeError Nat :=
  if 0 ≤ x then .ok x.toNat else .error .operandRange

/-- DESIGN CHOICE (log 10): L is 0 and H is 1, in the order of R10. -/
def levelOperand (x : Int) : Except DecodeError Level :=
  if x = 0 then .ok .L else if x = 1 then .ok .H else .error .operandRange

/-- DESIGN CHOICE (log 10): Input is 0 and Output is 1, in the order of R10. -/
def directionOperand (x : Int) : Except DecodeError DataDirection :=
  if x = 0 then .ok .input else if x = 1 then .ok .output else .error .operandRange

/-- DESIGN CHOICE (log 10): Start is 0, Current is 1 and End is 2, in the order of R82. -/
def whenceOperand (x : Int) : Except DecodeError Whence :=
  if x = 0 then .ok .start else if x = 1 then .ok .current else if x = 2 then .ok .fromEnd else .error .operandRange

/-- R83: the seek operands; the offset of Start is not negative. -/
def seekOperands (x off : Int) : Except DecodeError Instr :=
  match whenceOperand x with
  | .error e => .error e
  | .ok w => if Instr.operandsOk (.hwSeek w off) then .ok (.hwSeek w off) else .error .operandRange

/-- An operation without operands. -/
def noOperand (i : Instr) : List Int → Except DecodeError Instr
  | [] => .ok i
  | _ => .error .operandCount

/-- An operation with one operand, read by `read`. -/
def oneOperand {α : Type} (read : Int → Except DecodeError α) (make : α → Instr) : List Int → Except DecodeError Instr
  | [x] => (read x).map make
  | _ => .error .operandCount

/-- An operation with two operands. -/
def twoOperands (make : Int → Int → Except DecodeError Instr) : List Int → Except DecodeError Instr
  | [x, y] => make x y
  | _ => .error .operandCount

/-- Two bit-vector operands, each in its range. -/
def bitsPair (w v : Nat) (make : BitVec w → BitVec v → Instr) (x y : Int) : Except DecodeError Instr :=
  match bitsOperand w x, bitsOperand v y with
  | .ok a, .ok b => .ok (make a b)
  | .error e, _ => .error e
  | .ok _, .error e => .error e

/-! ## The decoder -/

/-- R82: the operation map. -/
def decodeOp (code : Byte) (xs : List Int) : Except DecodeError Instr :=
  if code = 0x01#8 then noOperand .bdInit xs
  else if code = 0x02#8 then oneOperand (bitsOperand 16) .bdSetAddress xs
  else if code = 0x03#8 then noOperand .bdReadByte xs
  else if code = 0x04#8 then oneOperand (bitsOperand 8) .bdWriteByte xs
  else if code = 0x05#8 then noOperand .bdTeardown xs
  else if code = 0x10#8 then oneOperand directionOperand .bdSetDir xs
  else if code = 0x11#8 then oneOperand levelOperand .bdSetRd xs
  else if code = 0x12#8 then oneOperand levelOperand .bdSetCs xs
  else if code = 0x13#8 then noOperand .bdPulseWr xs
  else if code = 0x14#8 then twoOperands (bitsPair 8 8 .expWrite) xs
  else if code = 0x15#8 then oneOperand (bitsOperand 8) .expRead xs
  else if code = 0x18#8 then twoOperands (bitsPair 16 8 .busWrite) xs
  else if code = 0x19#8 then oneOperand (bitsOperand 16) .busRead xs
  else if code = 0x20#8 then oneOperand natOperand .hwRead xs
  else if code = 0x21#8 then twoOperands seekOperands xs
  else if code = 0x30#8 then noOperand .dispatch xs
  else if code = 0x40#8 then oneOperand natOperand .rdrRead xs
  else if code = 0x41#8 then noOperand .rdrSize xs
  else if code = 0x42#8 then noOperand .rdrStatus xs
  else if code = 0x50#8 then oneOperand (bitsOperand 8) .bankselMbc1 xs
  else if code = 0x51#8 then oneOperand (bitsOperand 8) .bankselMbc2 xs
  else if code = 0x52#8 then oneOperand (bitsOperand 8) .bankselMbc3 xs
  else if code = 0x53#8 then oneOperand (bitsOperand 9) .bankselMbc5 xs
  else .error .unknownCode

/-- R72: the four frame forms, by the table's masks. -/
def decodeFrame (F : BitVec 24) : Except DecodeError Instr :=
  if matchesRow F 0xF1FF00#24 0x400500#24 then .ok (.expWrIocon (F.extractLsb' 17 3) (F.extractLsb' 0 8))
  else if matchesRow F 0xF1FF00#24 0x400000#24 then .ok (.expWrIodir (F.extractLsb' 17 3) (F.extractLsb' 0 8))
  else if matchesRow F 0xF1FF00#24 0x400900#24 then .ok (.expWrGpio (F.extractLsb' 17 3) (F.extractLsb' 0 8))
  else if matchesRow F 0xF1FF00#24 0x410900#24 then .ok (.expRdGpio (F.extractLsb' 17 3) (F.extractLsb' 0 8))
  else .error .foreignFrame

/-- R86: a bus write that is a bank-select row of the given variant. -/
def decodeSelectOf (v : Variant) (w : BitVec 24) : Option Instr :=
  match v with
  | .romOnly => none
  | .mbc1 =>
    if matchesRow w 0xFFFFE0#24 0x200000#24 then some (.buswMbc1SelLo (w.extractLsb' 0 5))
    else if matchesRow w 0xFFFFFC#24 0x400000#24 then some (.buswMbc1SelHi (w.extractLsb' 0 2))
    else none
  | .mbc2 =>
    if matchesRow w 0xFFFFF0#24 0x210000#24 then some (.buswMbc2Sel (w.extractLsb' 0 4)) else none
  | .mbc3 =>
    if matchesRow w 0xFFFF00#24 0x200000#24 then some (.buswMbc3Sel (w.extractLsb' 0 8)) else none
  | .mbc5 =>
    if matchesRow w 0xFFFF00#24 0x200000#24 then some (.buswMbc5SelLo (w.extractLsb' 0 8))
    else if matchesRow w 0xFFFFFE#24 0x300000#24 then some (.buswMbc5SelHi (w.extractLsb' 0 1))
    else none

/-- DESIGN CHOICE (log 11): a word that is no row of the reader's variant, or that comes without a reader, is the
row of the first variant of the table that has it (so the row with the longer mask comes first). -/
def decodeSelectAny (w : BitVec 24) : Option Instr :=
  (decodeSelectOf .mbc1 w).or ((decodeSelectOf .mbc2 w).or ((decodeSelectOf .mbc3 w).or (decodeSelectOf .mbc5 w)))

/-- R86: which row a bank-select write is, is fixed by the variant in force. -/
def decodeBusWrite (v : Option Variant) (w : BitVec 24) : Except DecodeError Instr :=
  match (v.bind fun v => decodeSelectOf v w).or (decodeSelectAny w) with
  | some i => .ok i
  | none => .error .notABankSelect

/-- The decoder. `v` is the variant of the session's reader, if there is one (R86). -/
def decode (v : Option Variant) : Call → Except DecodeError Instr
  | .op code xs => decodeOp code xs
  | .frame F => decodeFrame F
  | .busWrite w => decodeBusWrite v w
  | .busRead a => .ok (.busr a)
  | .other _ _ => .error .noSuchFormat

/-! ## The encoder -/

/-- log 10 -/
def levelCode : Level → Int
  | .L => 0
  | .H => 1

/-- log 10 -/
def directionCode : DataDirection → Int
  | .input => 0
  | .output => 1

/-- log 10 -/
def whenceCode : Whence → Int
  | .start => 0
  | .current => 1
  | .fromEnd => 2

/-- The call of an instruction, from R82, R69, R70, R72 and R73-R80. -/
def encode : Instr → Call
  | .bdInit => .op 0x01#8 []
  | .bdSetAddress a => .op 0x02#8 [a.toNat]
  | .bdReadByte => .op 0x03#8 []
  | .bdWriteByte v => .op 0x04#8 [v.toNat]
  | .bdTeardown => .op 0x05#8 []
  | .bdSetDir d => .op 0x10#8 [directionCode d]
  | .bdSetRd l => .op 0x11#8 [levelCode l]
  | .bdSetCs l => .op 0x12#8 [levelCode l]
  | .bdPulseWr => .op 0x13#8 []
  | .expWrite r v => .op 0x14#8 [r.toNat, v.toNat]
  | .expRead r => .op 0x15#8 [r.toNat]
  | .busWrite a v => .op 0x18#8 [a.toNat, v.toNat]
  | .busRead a => .op 0x19#8 [a.toNat]
  | .hwRead n => .op 0x20#8 [n]
  | .hwSeek w off => .op 0x21#8 [whenceCode w, off]
  | .dispatch => .op 0x30#8 []
  | .rdrRead n => .op 0x40#8 [n]
  | .rdrSize => .op 0x41#8 []
  | .rdrStatus => .op 0x42#8 []
  | .bankselMbc1 b => .op 0x50#8 [b.toNat]
  | .bankselMbc2 b => .op 0x51#8 [b.toNat]
  | .bankselMbc3 b => .op 0x52#8 [b.toNat]
  | .bankselMbc5 b => .op 0x53#8 [b.toNat]
  | .expWrIocon d v => .frame (frameWord (writeCommand d) Config.regIocon v)
  | .expWrIodir d v => .frame (frameWord (writeCommand d) Config.regIodir v)
  | .expWrGpio d v => .frame (frameWord (writeCommand d) Config.regGpio v)
  | .expRdGpio d x => .frame (frameWord (readCommand d) Config.regGpio x)
  | .buswMbc1SelLo b => .busWrite (busWriteWord Config.selLow (b.setWidth 8))
  | .buswMbc1SelHi h => .busWrite (busWriteWord Config.selMbc1High (h.setWidth 8))
  | .buswMbc2Sel b => .busWrite (busWriteWord Config.selMbc2 (b.setWidth 8))
  | .buswMbc3Sel b => .busWrite (busWriteWord Config.selLow b)
  | .buswMbc5SelLo b => .busWrite (busWriteWord Config.selLow b)
  | .buswMbc5SelHi h => .busWrite (busWriteWord Config.selMbc5High (h.setWidth 8))
  | .busr a => .busRead a

/-- R86: the variant under which a bank-select row is the row of its word; the other instructions have none. -/
def Instr.selectVariant : Instr → Option Variant
  | .buswMbc1SelLo _ | .buswMbc1SelHi _ => some .mbc1
  | .buswMbc2Sel _ => some .mbc2
  | .buswMbc3Sel _ => some .mbc3
  | .buswMbc5SelLo _ | .buswMbc5SelHi _ => some .mbc5
  | _ => none

/-! ## Words of the opcode table -/

/-- R82: how many operands the operation of a code has (0 where there is no such operation). -/
def operandCount (code : Byte) : Nat :=
  if code ∈ [0x14#8, 0x18#8, 0x21#8] then 2
  else if code ∈ [0x02#8, 0x04#8, 0x10#8, 0x11#8, 0x12#8, 0x15#8, 0x19#8, 0x20#8, 0x40#8, 0x50#8, 0x51#8, 0x52#8, 0x53#8]
  then 1 else 0

/-- The call of a table word: 8 bits are an operation code with operands of zeros, 16 bits a bus read, 24 bits a
bank-select write where they are one and a frame otherwise (DESIGN CHOICE, log 11). -/
def Call.ofTableWord (nbits w : Nat) : Call :=
  if nbits = 8 then .op (BitVec.ofNat 8 w) (List.replicate (operandCount (BitVec.ofNat 8 w)) 0)
  else if nbits = 16 then .busRead (BitVec.ofNat 16 w)
  else if nbits = 24 then
    if (decodeSelectAny (BitVec.ofNat 24 w)).isSome then .busWrite (BitVec.ofNat 24 w) else .frame (BitVec.ofNat 24 w)
  else .other nbits w

/-- The instruction the decoder reads from a table word. -/
def decodeTableWord (nbits w : Nat) : Option Instr :=
  (decode none (Call.ofTableWord nbits w)).toOption

end Sys2Proof
end

