-- ==== Sys2Proof/Machine/State.lean ====
section
/-! DEFINITION. The state of one session (R15-R32), the external device registers the spec names (R35-R38), and the
model's own fields for the parameters of the step and for the caller. Plain data; the state before `BD.INIT` (R42) and
the state after reset (R41, R169, R170). -/

namespace Sys2Proof.Machine

/-! ## Errors and outcomes -/

/-- R151: the engine's errors, with the information each records. -/
inductive EngineError
  | busCommunication (ctx : BusContext)
  | addressRange (target : Int)
  | unsupportedCartridge (tag : MbcTag)
  | headerDecode
deriving DecidableEq, Repr, Inhabited

/-- R13: the two cases of a refused operation. -/
inductive RefusedWhy
  /-- a session phase that does not allow it (R34) -/
  | phase
  /-- a session already faulted (R158) -/
  | sessionFaulted
deriving DecidableEq, Repr, Inhabited

/-! ## Bus driver (R16-R20) -/

/-- R17: the last-commanded level of each control line. -/
structure Levels where
  rd : Option Level
  wr : Option Level
  cs : Option Level
  rst : Option Level
deriving DecidableEq, Repr, Inhabited

/-- R20 -/
inductive DriverPhase
  | unowned
  | ready
  | tornDown
deriving DecidableEq, Repr, Inhabited

/-- S.drv -/
structure Driver where
  /-- R16: the value last driven onto the address lines; `none` before the first -/
  addr : Option Addr
  /-- R17 -/
  lvl : Levels
  /-- R19: the cached direction of the expander's data pins; `none` before BD.INIT -/
  dir : Option DataDirection
  /-- R20 -/
  phase : DriverPhase
deriving DecidableEq, Repr, Inhabited

/-! ## Header Window, reader, session (R23-R32) -/

/-- S.win -/
structure Window where
  /-- R23: the next bus address the Header Window reads, in [0, 0x150] -/
  pos : Nat
deriving DecidableEq, Repr, Inhabited

/-- S.rdr -/
structure Reader where
  /-- R24 -/
  variant : Variant
  /-- R25: position in the output stream -/
  linear : Nat
  /-- R26: the bank counter; the 8-bit counters stand in the low 8 bits, and RomOnly, which has none, leaves it 0
  (DESIGN CHOICE, log 16) -/
  bank : BitVec 9
  /-- R28 -/
  declared : Nat
  /-- R29 -/
  header : RomHeader
deriving DecidableEq, Repr, Inhabited

/-- R31 -/
inductive SessionPhase
  | preInit
  | headerPhase
  | streaming
  | ended
deriving DecidableEq, Repr, Inhabited

/-- S.ses -/
structure Session where
  /-- R31 -/
  phase : SessionPhase
  /-- R32: the error that ended the session; never cleared -/
  fault : Option EngineError
deriving DecidableEq, Repr, Inhabited

/-! ## Trace (R11) -/

/-- R11: the events at the engine's pins. -/
inductive Event
  /-- control line `s` is driven to level `l` -/
  | line (s : Line) (l : Level)
  /-- all 16 address lines are driven from `a`, line Ai carrying a[i] -/
  | addr (a : Addr)
  /-- the engine waits at least `t` microseconds (R185: only a lower bound) -/
  | wait (t : Nat)
  /-- one exchange: t0 t1 t2 sent, r0 r1 r2 received -/
  | spi (t0 t1 t2 r0 r1 r2 : Byte)
  /-- a failed exchange -/
  | spiFail (t0 t1 t2 : Byte)
deriving DecidableEq, Repr, Inhabited

/-! ## External device registers (R35-R38) -/

/-- R35: the expander's three registers, as the completed write frames to EXP_DEV left them. -/
structure ExpanderRegs where
  /-- register 0x00, data-pin direction -/
  iodir : Byte
  /-- register 0x05, operating mode -/
  iocon : Byte
  /-- register 0x09, the data-bus value -/
  gpio : Byte
deriving DecidableEq, Repr, Inhabited

/-- R46: the cartridge bus space, as (address, byte) pairs with rising addresses: the byte last written at each
address by a completed write strobe. An unlisted address has had nothing written and holds Config.busUnwritten, and so
do the bank-select registers at reset (R38: their power-on values are not in the source; DESIGN CHOICE, log 14). Bus
READS are answered by the oracle, not from here (R66: the engine holds no copy of cartridge data). -/
abbrev Memory := List Host.Cell

/-! ## The parameters of the step and the caller (the model's own fields) -/

/-- R12: what the serial link answers an exchange. -/
inductive XferAnswer
  | answered (r0 r1 r2 : Byte)
  | failed
deriving DecidableEq, Repr, Inhabited

/-- R15's parameters of the step, held in the state because the host's form of the step has no other place. -/
structure World where
  /-- EXP_DEV (R7, log 6) -/
  expDev : BitVec 3
  /-- DIR_IN, DIR_OUT, IOCON_INIT and T_WR_LOW (R7, log 7) -/
  params : Params
  /-- XferOracle's coming answers, oldest first; when the list is empty an answer is a free value (log 4) -/
  link : List XferAnswer
  /-- the exchanges made so far: the index of the free values (log 4) -/
  draws : Nat
  /-- HeaderDecode's run; `none` is the free decoder Config.headerDecode (log 5) -/
  decoder : Option DecodeRun
deriving DecidableEq, Repr

/-- The value an operation returns to the caller. -/
inductive OpValue
  | unit
  | byte (b : Byte)
  | bytes (bs : List Byte)
  | position (p : Nat)
  | reader (r : Reader)
  | size (n : Nat)
  | status (bank linear : Nat)
deriving DecidableEq, Repr, Inhabited

/-- R13: how an operation ends. -/
inductive OpResult
  | ok (v : OpValue)
  | err (e : EngineError)
  | refused (why : RefusedWhy)
deriving DecidableEq, Repr, Inhabited

/-- R5, R11: the caller's side: the operations it will issue, oldest first, and what it was returned, oldest first. -/
structure Caller where
  calls : List Call
  returned : List OpResult
deriving DecidableEq, Repr

/-! ## The state -/

/-- R15: S, the external registers of R35-R38, and the model's own `world` and `caller`. -/
structure State where
  drv : Driver
  win : Window
  rdr : Option Reader
  ses : Session
  trace : List Event
  exp : ExpanderRegs
  cart : Memory
  world : World
  caller : Caller
deriving DecidableEq, Repr

/-- The machine never stops with a fault: every error of R151 is returned to the caller in a next state (R162), and
every other outcome of R13 as well. No constructor: nothing raises one (safe). -/
inductive Fault
deriving DecidableEq, Repr

/-- Where the machine has no next state. -/
inductive Refusal
  /-- raised by `exec` for an instruction without a meaning; no arm does (safe) -/
  | notModelled (mnemonic : String)
  /-- raised by `step` for a call that is no operation of R82 and no word of the opcode table (log 20; safe) -/
  | undecodable (e : DecodeError)
deriving DecidableEq, Repr

/-- R42: the state before `BD.INIT`. The expander's registers are the family's power-on values (PRESUMED, log 3). -/
def State.powerOn : State where
  drv := { addr := none, lvl := { rd := none, wr := none, cs := none, rst := none }, dir := none, phase := .unowned }
  win := { pos := 0 }
  rdr := none
  ses := { phase := .preInit, fault := none }
  trace := []
  exp := { iodir := 0xFF#8, iocon := 0x00#8, gpio := 0x00#8 }
  cart := []
  world := { expDev := Config.expDev, params := Config.params, link := [], draws := 0, decoder := none }
  caller := { calls := [], returned := [] }

/-- R41, R169, R170: the machine right after reset, which is `BD.INIT` completed on a fresh driver (log 2): R41's
table, and the trace and the result that R95's `BD.INIT` leaves, its ignored received bytes free values. Register 0x09
of the expander is unspecified in R41 and holds the family's 0x00 (PRESUMED, log 3). -/
def State.reset : State where
  drv := { addr := none, lvl := { rd := some .H, wr := some .H, cs := some .H, rst := some .H }, dir := some .input,
           phase := .ready }
  win := { pos := 0 }
  rdr := none
  ses := { phase := .headerPhase, fault := none }
  trace :=
    [.line .rd .H, .line .wr .H, .line .cs .H, .line .rst .H,
     .spi (writeCommand Config.expDev) Config.regIocon Config.ioconInit
       (Config.xferByte 0) (Config.xferByte 1) (Config.xferByte 2),
     .spi (writeCommand Config.expDev) Config.regIodir Config.dirIn
       (Config.xferByte 3) (Config.xferByte 4) (Config.xferByte 5)]
  exp := { iodir := Config.dirIn, iocon := Config.ioconInit, gpio := 0x00#8 }
  cart := []
  world := { expDev := Config.expDev, params := Config.params, link := [], draws := 2, decoder := none }
  caller := { calls := [], returned := [.ok .unit] }

end Sys2Proof.Machine
end

