-- ==== Sys2Proof/Machine/Operands.lean ====
section
/-! DEFINITION. What operands and addresses stand for: the seek target (R117), the translation (R127), the bank-switch
trigger (R129), the next-bank functions (R130-R132), the bank-select fields (R75-R80), the tag table (R122), and which
values the cartridge sees on the address and data lines (R16, R102). -/

namespace Sys2Proof.Machine

/-- The entry of one line in the level cache. -/
def Levels.get (v : Levels) : Line → Option Level
  | .rd => v.rd
  | .wr => v.wr
  | .cs => v.cs
  | .rst => v.rst

/-- The cache with the entry of line `ln` set to level `l`. -/
def Levels.set (v : Levels) (ln : Line) (l : Level) : Levels :=
  match ln with
  | .rd => { v with rd := some l }
  | .wr => { v with wr := some l }
  | .cs => { v with cs := some l }
  | .rst => { v with rst := some l }

/-- R91: the byte written to the direction register for a direction. -/
def directionByte (p : Params) : DataDirection → Byte
  | .input => p.dirIn
  | .output => p.dirOut

/-- R117: the target of a seek, in unbounded integers; "the end" is 0x150. -/
def seekTarget (whence : Whence) (off : Int) (pos : Nat) : Int :=
  match whence with
  | .start => off
  | .current => (pos : Int) + off
  | .fromEnd => (Config.hdrEnd : Int) + off

/-- R118: a seek is legal exactly when 0 ≤ target < 0x150. -/
def seekLegal (target : Int) : Bool := decide (0 ≤ target ∧ target < (Config.hdrEnd : Int))

/-- R81, R127: the bus address of a linear address. -/
def translate (lin : Nat) : Addr :=
  if lin < Config.bankSize then BitVec.ofNat 16 lin
  else BitVec.ofNat 16 (lin % Config.bankSize + Config.bankSize)

/-- R129: the bank-switch trigger. -/
def trigger (v : Variant) (lin : Nat) : Bool :=
  v != .romOnly && lin != 0 && lin % Config.bankSize == 0

/-- R131: MBC1's next bank, with the skip of 0x20, 0x40 and 0x60. -/
def nextBank1 (b : BitVec 8) : BitVec 8 :=
  if b + 1#8 = 0x20#8 ∨ b + 1#8 = 0x40#8 ∨ b + 1#8 = 0x60#8 then b + 2#8 else b + 1#8

/-- R26: the width of a variant's bank counter (RomOnly has none). -/
def bankWidth : Variant → Nat
  | .romOnly => 0
  | .mbc1 | .mbc2 | .mbc3 => 8
  | .mbc5 => 9

/-- R130: the next bank of each variant, modulo 2^w; RomOnly has no next-bank function and never asks for one. -/
def nextBank (v : Variant) (b : BitVec 9) : BitVec 9 :=
  match v with
  | .romOnly => b
  | .mbc1 => (nextBank1 (b.setWidth 8)).setWidth 9
  | .mbc2 | .mbc3 => (b.setWidth 8 + 1#8).setWidth 9
  | .mbc5 => b + 1#9

/-- R75: `zext_8(b[4:0])` -/
def mbc1LowField (b : BitVec 8) : Byte := (b.extractLsb' 0 5).setWidth 8

/-- R76: `zext_8(b[6:5])` -/
def mbc1HighField (b : BitVec 8) : Byte := (b.extractLsb' 5 2).setWidth 8

/-- R77: `zext_8(b[3:0])` -/
def mbc2Field (b : BitVec 8) : Byte := (b.extractLsb' 0 4).setWidth 8

/-- R79: `b[7:0]` -/
def mbc5LowField (b : BitVec 9) : Byte := b.extractLsb' 0 8

/-- R80: `zext_8(b[8])` -/
def mbc5HighField (b : BitVec 9) : Byte := (b.extractLsb' 8 1).setWidth 8

/-- R122: the variant of a header tag. -/
def variantOf : MbcTag → Option Variant
  | .romOnly => some .romOnly
  | .mbc1 | .mbc1Ram | .mbc1RamBattery => some .mbc1
  | .mbc2 | .mbc2Battery => some .mbc2
  | .mbc3Like _ => some .mbc3
  | .mbc5 | .mbc5Ram | .mbc5RamBattery | .mbc5Rumble | .mbc5RumbleRam | .mbc5RumbleRamBattery => some .mbc5
  | .other _ => none

/-- R121, R43: the reader that DISPATCH constructs. -/
def Reader.fresh (v : Variant) (h : RomHeader) : Reader where
  variant := v
  linear := 0
  bank := 0#9
  declared := if v = .romOnly then Config.romOnlySize else h.romSize
  header := h

/-- R144: the bank that RDR.STATUS reports; RomOnly reports 0. -/
def Reader.statusBank (r : Reader) : Nat := if r.variant = .romOnly then 0 else r.bank.toNat

/-- The address on A15..A0: the one last driven, or, while none has been (R16), a free value (log 14). -/
def State.addrSeen (s : State) : Addr := s.drv.addr.getD (Config.undrivenAddr s.trace.length)

/-- R102: the window in which the cartridge is read, and so may drive D7..D0: RD = L and CS = L. -/
def State.readWindow (s : State) : Bool := s.drv.lvl.rd == some .L && s.drv.lvl.cs == some .L

/-- R102: the byte on D7..D0 at a write strobe. The expander drives its data register exactly while its direction
register holds DIR_OUT. While it does not, and while it does inside the window where the cartridge drives too
(contention, which only micro-operations issued by the caller reach), no rule gives the byte: a free value (DESIGN
CHOICE, log 14). -/
def State.dataSeen (s : State) : Byte :=
  if s.exp.iodir = s.world.params.dirOut ∧ s.readWindow = false then s.exp.gpio
  else Config.undrivenData s.trace.length

end Sys2Proof.Machine
end

