-- ==== Sys2Proof/Machine/Flags.lean ====
section
/-! DEFINITION. The engine has no flags and no condition codes (R33). Its status-like state is the phases and the
fault; here is what they decide: which operations are admitted (R34), why one is refused (R13), which errors end the
session (R151), and the context a directly issued primitive records (R153, log 12). -/

namespace Sys2Proof.Machine

/-- R34's rows: which phases admit an operation. -/
inductive Admission
  /-- BD.INIT -/
  | init
  /-- BD.TEARDOWN -/
  | teardown
  /-- BD.SET_ADDRESS, BD.READ_BYTE, BD.WRITE_BYTE, and the micro-operations these and HW.READ call -/
  | transfer
  /-- HW.READ, HW.SEEK, DISPATCH -/
  | window
  /-- RDR.READ, RDR.SIZE, RDR.STATUS -/
  | reader
  /-- BANKSEL.*, which only RDR.READ calls, and BUS.WRITE and the bank-select writes, which only BANKSEL.* calls
  (R109, log 13) -/
  | bankSelect
deriving DecidableEq, Repr

/-- R34 and R20: the driver is initialised and a client of it is running. -/
def State.transferring (s : State) : Bool :=
  s.drv.phase == .ready && (s.ses.phase == .headerPhase || s.ses.phase == .streaming)

/-- R34, R95, R99: whether an operation is admitted. -/
def admits (k : Admission) (s : State) : Bool :=
  match k with
  | .init => s.ses.phase == .preInit && s.drv.phase == .unowned
  | .teardown => s.drv.phase != .tornDown
  | .transfer => s.transferring
  | .window => s.ses.phase == .headerPhase
  | .reader => s.ses.phase == .streaming
  | .bankSelect => s.drv.phase == .ready && s.ses.phase == .streaming

/-- R13: the two cases of a refusal. -/
def refusedWhy (s : State) : RefusedWhy := if s.ses.fault.isSome then .sessionFaulted else .phase

/-- R151: every error but AddressRangeError ends the session. -/
def EngineError.endsSession : EngineError → Bool
  | .addressRange _ => false
  | _ => true

/-- R151: the error codes. -/
def EngineError.code : EngineError → Nat
  | .busCommunication _ => 1
  | .addressRange _ => 2
  | .unsupportedCartridge _ => 3
  | .headerDecode => 4

/-- R153 fixes the context by the operation in progress and names BD.INIT, HW.READ, BANKSEL.* and RDR.READ; for a
primitive or a wire format that the caller issues itself it names none: a free value (DESIGN CHOICE, log 12). -/
def directContext (s : State) : BusContext := Config.directContext s.world.draws

end Sys2Proof.Machine
end

