-- ==== Sys2Proof/Machine/Ops.lean ====
section
/-! DEFINITION. The shared operations: memory, events, the level cache, one serial exchange, raising an error (the one
way the engine takes an exception, R158, R162; there is no return from one, R163), and how an operation is issued and
delivers its outcome. -/

namespace Sys2Proof.Machine

/-! ## Memory -/

/-- The byte at an address: the one listed, or what an address holds to which nothing has been written. -/
def Memory.read (m : Memory) (a : Nat) : Byte :=
  match m with
  | [] => Config.busUnwritten a
  | (k, v) :: rest => if k = a then v else Memory.read rest a

/-- The list of one byte: nothing is listed for the byte that an unlisted address holds. -/
def Memory.entry (a : Nat) (v : Byte) : Memory := if v = Config.busUnwritten a then [] else [(a, v)]

/-- Set the byte at an address, keeping the canonical form. -/
def Memory.write (m : Memory) (a : Nat) (v : Byte) : Memory :=
  match m with
  | [] => Memory.entry a v
  | (k, w) :: rest =>
    if a < k then Memory.entry a v ++ (k, w) :: rest
    else if a = k then Memory.entry a v ++ rest
    else (k, w) :: Memory.write rest a v

/-- Addresses rise strictly from `lo` on and lie in the 16-bit bus space (R46), and no entry is the byte that its
address would hold unlisted. -/
def Memory.risingFrom (lo : Nat) (m : Memory) : Bool :=
  match m with
  | [] => true
  | (k, v) :: rest => decide (lo ≤ k ∧ k < 2 ^ 16 ∧ v ≠ Config.busUnwritten k) && Memory.risingFrom (k + 1) rest

/-- The canonical form. -/
def Memory.wf (m : Memory) : Bool := Memory.risingFrom 0 m

/-! ## Results -/

/-- How an operation's body ends (R13): with a value or with an error, and with the state it leaves. -/
inductive Res (α : Type)
  | ok (v : α) (s : State)
  | err (e : EngineError) (s : State)
deriving DecidableEq, Repr

/-- R12, R160: an error ends the operation and passes up unchanged. -/
def Res.bind {α β : Type} (r : Res α) (f : α → State → Res β) : Res β :=
  match r with
  | .ok v s => f v s
  | .err e s => .err e s

/-- The state a body leaves. -/
def Res.state {α : Type} : Res α → State
  | .ok _ s => s
  | .err _ s => s

/-- The outcome that a body gives the caller. -/
def Res.result {α : Type} (value : α → OpValue) : Res α → OpResult
  | .ok v _ => .ok (value v)
  | .err e _ => .err e

/-! ## State updates -/

/-- R12: append an event to the trace. -/
def State.emit (s : State) (e : Event) : State := { s with trace := s.trace ++ [e] }

/-- S.drv.lvl[ln] <- l -/
def State.withLevel (s : State) (ln : Line) (l : Level) : State :=
  { s with drv := { s.drv with lvl := s.drv.lvl.set ln l } }

/-- S.drv.addr <- a -/
def State.withAddr (s : State) (a : Addr) : State := { s with drv := { s.drv with addr := some a } }

/-- S.drv.dir <- d -/
def State.withDir (s : State) (d : DataDirection) : State := { s with drv := { s.drv with dir := some d } }

/-- S.drv.phase <- p -/
def State.withDriverPhase (s : State) (p : DriverPhase) : State := { s with drv := { s.drv with phase := p } }

/-- S.ses.phase <- p -/
def State.withPhase (s : State) (p : SessionPhase) : State := { s with ses := { s.ses with phase := p } }

/-- S.win.pos <- p -/
def State.withPos (s : State) (p : Nat) : State := { s with win := { pos := p } }

/-- S.rdr <- r -/
def State.withReader (s : State) (r : Reader) : State := { s with rdr := some r }

/-- S.rdr.bank <- b -/
def State.withBank (s : State) (b : BitVec 9) : State :=
  { s with rdr := s.rdr.map fun r => { r with bank := b } }

/-- S.rdr.linear <- n -/
def State.withLinear (s : State) (n : Nat) : State :=
  { s with rdr := s.rdr.map fun r => { r with linear := n } }

/-- The outcome returned to the caller. -/
def State.deliver (s : State) (r : OpResult) : State :=
  { s with caller := { s.caller with returned := s.caller.returned ++ [r] } }

/-! ## Errors -/

/-- R158: the fault is set and the session ends, for every error but AddressRangeError (R154). -/
def State.takeError (s : State) (e : EngineError) : State :=
  if e.endsSession then { s with ses := { phase := .ended, fault := some e } } else s

/-- R12, R158, R162: raise an error. No state is saved and no vector is taken; control returns to the caller. -/
def raise {α : Type} (e : EngineError) (s : State) : Res α := .err e (s.takeError e)

/-! ## One serial exchange -/

/-- The free answer of exchange n (log 4). -/
def freeAnswer (n : Nat) : XferAnswer :=
  if Config.xferFails n then .failed
  else .answered (Config.xferByte (3 * n)) (Config.xferByte (3 * n + 1)) (Config.xferByte (3 * n + 2))

/-- XferOracle's next answer. -/
def World.answer (w : World) : XferAnswer :=
  match w.link with
  | a :: _ => a
  | [] => freeAnswer w.draws

/-- The world after one exchange. -/
def World.advance (w : World) : World := { w with link := w.link.tail, draws := w.draws + 1 }

/-- R35, R102: what a completed frame does to the expander's registers: a write frame to the device EXP_DEV sets the
register it names; a read frame and a frame to another device change nothing (log 17). -/
def ExpanderRegs.receive (x : ExpanderRegs) (expDev : BitVec 3) (t0 t1 t2 : Byte) : ExpanderRegs :=
  if t0 = writeCommand expDev then
    if t1 = Config.regIodir then { x with iodir := t2 }
    else if t1 = Config.regIocon then { x with iocon := t2 }
    else if t1 = Config.regGpio then { x with gpio := t2 }
    else x
  else x

/-- R12, R152: `Xfer(t0, t1, t2)` under the context in force. -/
def xfer (ctx : BusContext) (t0 t1 t2 : Byte) (s : State) : Res (Byte × Byte × Byte) :=
  match s.world.answer with
  | .answered r0 r1 r2 =>
    .ok (r0, r1, r2)
      { s with
        world := s.world.advance
        exp := s.exp.receive s.world.expDev t0 t1 t2
        trace := s.trace ++ [.spi t0 t1 t2 r0 r1 r2] }
  | .failed =>
    raise (.busCommunication ctx)
      { s with world := s.world.advance, trace := s.trace ++ [.spiFail t0 t1 t2] }

/-! ## Lines -/

/-- R92: `Force(s, l)`: drive a line without looking at the cache. -/
def force (ln : Line) (l : Level) (s : State) : State := (s.emit (.line ln l)).withLevel ln l

/-- R92: `Drive(s, l)`: drive a line if the cache differs; true if it did. -/
def drive (ln : Line) (l : Level) (s : State) : Bool × State :=
  if s.drv.lvl.get ln = some l then (false, s) else (true, force ln l s)

/-- R92, R93: a coalesced transition, followed by its settle wait if the line was driven. -/
def settle (ln : Line) (l : Level) (t : Nat) (s : State) : State :=
  match drive ln l s with
  | (true, s') => s'.emit (.wait t)
  | (false, s') => s'

/-- R95, R99: RD, WR, CS and RST driven to H in this order, whatever the cache holds. -/
def forceIdle (s : State) : State := force .rst .H (force .cs .H (force .wr .H (force .rd .H s)))

/-- The cartridge at a write strobe: selected (CS at L), it takes the byte on the data lines at the address on the
address lines (R55, R179; log 14). -/
def State.strobeWrite (s : State) : State :=
  if s.drv.lvl.cs = some .L then { s with cart := Memory.write s.cart s.addrSeen.toNat s.dataSeen } else s

/-! ## Issuing an operation -/

/-- The state in which a body's outcome has been returned to the caller. -/
def finish {α : Type} (value : α → OpValue) (r : Res α) : State := r.state.deliver (r.result value)

/-- R13: a refused operation changes nothing and emits nothing (DEDUCED: the run goes on, log 1). -/
def refuse (s : State) : State := s.deliver (.refused (refusedWhy s))

/-- R161: admission first; then the body, whose outcome goes to the caller. -/
def issueIf {α : Type} (admitted : Bool) (value : α → OpValue) (body : State → Res α) (s : State) :
    Host.Outcome State Fault Refusal :=
  .next (if admitted then finish value (body s) else refuse s)

/-- R34: an operation of a row of the admission table. -/
def issue {α : Type} (k : Admission) (value : α → OpValue) (body : State → Res α) (s : State) :
    Host.Outcome State Fault Refusal :=
  issueIf (admits k s) value body s

end Sys2Proof.Machine
end

