-- ==== Sys2Proof/Machine/BusDriver.lean ====
section
/-! DEFINITION. The bus driver (40_bus_sequencer.md): expander register access, direction and strobe micro-operations,
initialisation, transfers, teardown, bus cycles, and the meanings of the EXP.*, BD.* and BUS.* operations. -/

namespace Sys2Proof.Machine

/-! ## The operations -/

/-- R89: EXP.WRITE r, v -/
def expWrite (ctx : BusContext) (r v : Byte) (s : State) : Res Unit :=
  (xfer ctx (writeCommand s.world.expDev) r v s).bind fun _ s => .ok () s

/-- R90: EXP.READ r; the result is the third received byte -/
def expRead (ctx : BusContext) (r : Byte) (s : State) : Res Byte :=
  (xfer ctx (readCommand s.world.expDev) r Config.dontCare s).bind fun b s => .ok b.2.2 s

/-- R91: BD.SET_DIR d; the cache is written only after the frame has succeeded -/
def setDir (ctx : BusContext) (d : DataDirection) (s : State) : Res Unit :=
  if s.drv.dir = some d then .ok () s
  else (expWrite ctx Config.regIodir (directionByte s.world.params d) s).bind fun _ s => .ok () (s.withDir d)

/-- R92: BD.SET_RD l -/
def setRd (l : Level) (s : State) : State := settle .rd l Config.tRd s

/-- R93: BD.SET_CS l -/
def setCs (l : Level) (s : State) : State := settle .cs l Config.tCs s

/-- R94: BD.PULSE_WR for a WR low time of `tLow` -/
def pulseWrWith (tLow : Nat) (s : State) : State :=
  let s1 := (drive .wr .L (s.emit (.wait Config.tWrPre))).2
  let s2 := if 0 < tLow then s1.emit (.wait tLow) else s1
  ((drive .wr .H s2).2.strobeWrite).emit (.wait Config.tWrPost)

/-- R94: BD.PULSE_WR -/
def pulseWr (s : State) : State := pulseWrWith s.world.params.tWrLow s

/-- R95: BD.INIT -/
def initDriver (s : State) : Res Unit :=
  (expWrite .init Config.regIocon s.world.params.ioconInit (forceIdle s)).bind fun _ s =>
  (expWrite .init Config.regIodir s.world.params.dirIn s).bind fun _ s =>
  .ok () ((((s.withDir .input).withDriverPhase .ready).withPhase .headerPhase).withPos 0)

/-- R96: BD.SET_ADDRESS a; never coalesced -/
def setAddress (a : Addr) (s : State) : State := (s.emit (.addr a)).withAddr a

/-- R97: BD.READ_BYTE (step (2) asserts RD, 90_conflicts.md C1) -/
def readByte (ctx : BusContext) (s : State) : Res Byte :=
  (setDir ctx .input s).bind fun _ s =>
  (expRead ctx Config.regGpio (setCs .L (setRd .L s))).bind fun b s =>
  .ok b (setCs .H (setRd .H s))

/-- R98: BD.WRITE_BYTE v -/
def writeByte (ctx : BusContext) (v : Byte) (s : State) : Res Unit :=
  (setDir ctx .output s).bind fun _ s =>
  (expWrite ctx Config.regGpio v (setCs .L (setRd .H s))).bind fun _ s =>
  .ok () (setCs .H (pulseWr s))

/-- R99: BD.TEARDOWN; no frame, so it cannot fail -/
def teardown (s : State) : State := ((forceIdle s).withDriverPhase .tornDown).withPhase .ended

/-- R108: BUS.READ a -/
def busRead (ctx : BusContext) (a : Addr) (s : State) : Res Byte := readByte ctx (setAddress a s)

/-- R109: BUS.WRITE a, v -/
def busWrite (ctx : BusContext) (a : Addr) (v : Byte) (s : State) : Res Unit := writeByte ctx v (setAddress a s)

/-! ## The meanings -/

/-- An operation that returns nothing. -/
def noValue (_ : Unit) : OpValue := .unit

/-- A body that cannot fail. -/
def always (f : State → State) (s : State) : Res Unit := .ok () (f s)

/-- BD.INIT (R95) -/
def execBdInit (s : State) : Host.Outcome State Fault Refusal := issue .init noValue initDriver s

/-- BD.SET_ADDRESS a (R96) -/
def execBdSetAddress (a : Addr) (s : State) : Host.Outcome State Fault Refusal :=
  issue .transfer noValue (always (setAddress a)) s

/-- BD.READ_BYTE (R97) -/
def execBdReadByte (s : State) : Host.Outcome State Fault Refusal :=
  issue .transfer .byte (readByte (directContext s)) s

/-- BD.WRITE_BYTE v (R98) -/
def execBdWriteByte (v : Byte) (s : State) : Host.Outcome State Fault Refusal :=
  issue .transfer noValue (writeByte (directContext s) v) s

/-- BD.TEARDOWN (R99) -/
def execBdTeardown (s : State) : Host.Outcome State Fault Refusal := issue .teardown noValue (always teardown) s

/-- BD.SET_DIR d (R91) -/
def execBdSetDir (d : DataDirection) (s : State) : Host.Outcome State Fault Refusal :=
  issue .transfer noValue (setDir (directContext s) d) s

/-- BD.SET_RD l (R92) -/
def execBdSetRd (l : Level) (s : State) : Host.Outcome State Fault Refusal :=
  issue .transfer noValue (always (setRd l)) s

/-- BD.SET_CS l (R93) -/
def execBdSetCs (l : Level) (s : State) : Host.Outcome State Fault Refusal :=
  issue .transfer noValue (always (setCs l)) s

/-- BD.PULSE_WR (R94) -/
def execBdPulseWr (s : State) : Host.Outcome State Fault Refusal :=
  issue .transfer noValue (always pulseWr) s

/-- EXP.WRITE r, v (R89) -/
def execExpWrite (r v : Byte) (s : State) : Host.Outcome State Fault Refusal :=
  issue .transfer noValue (expWrite (directContext s) r v) s

/-- EXP.READ r (R90) -/
def execExpRead (r : Byte) (s : State) : Host.Outcome State Fault Refusal :=
  issue .transfer .byte (expRead (directContext s) r) s

/-- BUS.WRITE a, v (R109) -/
def execBusWrite (a : Addr) (v : Byte) (s : State) : Host.Outcome State Fault Refusal :=
  issue .bankSelect noValue (busWrite (directContext s) a v) s

/-- BUS.READ a (R108) -/
def execBusRead (a : Addr) (s : State) : Host.Outcome State Fault Refusal :=
  issue .transfer .byte (busRead (directContext s) a) s

end Sys2Proof.Machine
end

