-- ==== Sys2Proof/Machine/HeaderWindow.lean ====
section
/-! DEFINITION. The Header Window and the Dispatcher (41_header_dispatch.md): HW.READ, HW.SEEK, DISPATCH. -/

namespace Sys2Proof.Machine

/-! ## The operations -/

/-- R114: HW.READ n; a short read at the window's end -/
def windowRead : Nat → State → Res (List Byte)
  | 0, s => .ok [] s
  | n + 1, s =>
    if Config.hdrEnd ≤ s.win.pos then .ok [] s
    else
      (busRead .headerDecode (BitVec.ofNat 16 s.win.pos) s).bind fun b s1 =>
      (windowRead n (s1.withPos (s1.win.pos + 1))).bind fun bs s2 => .ok (b :: bs) s2

/-- R116: HW.SEEK whence, off; the position changes only on success -/
def windowSeek (whence : Whence) (off : Int) (s : State) : Res Nat :=
  let target := seekTarget whence off s.win.pos
  if seekLegal target then .ok target.toNat (s.withPos target.toNat) else raise (.addressRange target) s

/-- R120: one window operation of the decoder: what it tells the decoder, or the error that ends it. A rejected seek
is the decoder's to handle (R156); a BusCommunicationError passes up (R160). -/
def windowAct (w : WindowAct) (s : State) : Res WindowAnswer :=
  match w with
  | .read n => (windowRead n s).bind fun bs s => .ok (.bytes bs) s
  | .seek whence off =>
    match windowSeek whence off s with
    | .ok p s => .ok (.position p) s
    | .err (.addressRange t) s => .ok (.rejected t) s
    | .err e s => .err e s

/-- R120: run a header decoder over the window. -/
def runDecoder : HeaderDecoder → State → Res DecodeAnswer
  | .answer a, s => .ok a s
  | .act w k, s =>
    match windowAct w s with
    | .ok a s => runDecoder (k a) s
    | .err e s => .err e s

/-- The decoder that makes the given window operations, whatever they answer, and then ends as given. -/
def scripted (a : DecodeAnswer) : List WindowAct → HeaderDecoder
  | [] => .answer a
  | w :: ws => .act w fun _ => scripted a ws

/-- The session's header decoder (R120, log 5). -/
def World.headerDecoder (w : World) : HeaderDecoder :=
  match w.decoder with
  | some run => scripted run.answer run.acts
  | none => Config.headerDecode

/-- R121, R122, R156: what DISPATCH does with the decoder's answer. -/
def constructReader (a : DecodeAnswer) (s : State) : Res Reader :=
  match a with
  | .header h =>
    match variantOf h.mbcType with
    | some v => .ok (Reader.fresh v h) ((s.withReader (Reader.fresh v h)).withPhase .streaming)
    | none => raise (.unsupportedCartridge h.mbcType) s
  | .decodeError => raise .headerDecode s
  | .addressRange _ => raise .headerDecode s

/-- R121: DISPATCH with the decoder given -/
def dispatchWith (d : HeaderDecoder) (s : State) : Res Reader :=
  (runDecoder d (s.withPos 0)).bind constructReader

/-! ## The meanings -/

/-- HW.READ n (R114) -/
def execHwRead (n : Nat) (s : State) : Host.Outcome State Fault Refusal := issue .window .bytes (windowRead n) s

/-- HW.SEEK whence, off (R116) -/
def execHwSeek (whence : Whence) (off : Int) (s : State) : Host.Outcome State Fault Refusal :=
  issue .window .position (windowSeek whence off) s

/-- DISPATCH (R121) -/
def execDispatch (s : State) : Host.Outcome State Fault Refusal :=
  issue .window .reader (dispatchWith s.world.headerDecoder) s

end Sys2Proof.Machine
end

