-- ==== Sys2Proof/Machine/BankReader.lean ====
section
/-! DEFINITION. The bank-controller readers (42_bank_readers.md): the bank-select sequences, the streaming read, size
and status. -/

namespace Sys2Proof.Machine

/-! ## The bank-select sequences (context BankSelect, R153) -/

/-- R133: BANKSEL.MBC1 b -/
def selectMbc1 (b : BitVec 8) (s : State) : Res Unit :=
  (busWrite .bankSelect Config.selLow (mbc1LowField b) s).bind fun _ s =>
  busWrite .bankSelect Config.selMbc1High (mbc1HighField b) s

/-- R134: BANKSEL.MBC2 b -/
def selectMbc2 (b : BitVec 8) (s : State) : Res Unit := busWrite .bankSelect Config.selMbc2 (mbc2Field b) s

/-- R135: BANKSEL.MBC3 b -/
def selectMbc3 (b : BitVec 8) (s : State) : Res Unit := busWrite .bankSelect Config.selLow b s

/-- R136: BANKSEL.MBC5 b -/
def selectMbc5 (b : BitVec 9) (s : State) : Res Unit :=
  (busWrite .bankSelect Config.selLow (mbc5LowField b) s).bind fun _ s =>
  busWrite .bankSelect Config.selMbc5High (mbc5HighField b) s

/-- R139: BANKSEL.<variant>; RomOnly has no sequence (R137) -/
def selectOf (v : Variant) (b : BitVec 9) (s : State) : Res Unit :=
  match v with
  | .romOnly => .ok () s
  | .mbc1 => selectMbc1 (b.setWidth 8) s
  | .mbc2 => selectMbc2 (b.setWidth 8) s
  | .mbc3 => selectMbc3 (b.setWidth 8) s
  | .mbc5 => selectMbc5 b s

/-! ## The streaming read -/

/-- R129, R130: at a boundary, the bank counter is updated and then the bank-select sequence runs. -/
def switchBank (r : Reader) (s : State) : Res Unit :=
  if trigger r.variant r.linear then
    selectOf r.variant (nextBank r.variant r.bank) (s.withBank (nextBank r.variant r.bank))
  else .ok () s

/-- R139, R140: one byte of the stream, after the range check. -/
def streamByte (r : Reader) (s : State) : Res Byte :=
  (switchBank r s).bind fun _ s =>
  (busRead .dataTransfer (translate r.linear) s).bind fun b s =>
  .ok b (s.withLinear (r.linear + 1))

/-- R139: RDR.READ n; a short read at the end of the stream (R138) -/
def streamRead : Nat → State → Res (List Byte)
  | 0, s => .ok [] s
  | n + 1, s =>
    match s.rdr with
    | none => .ok [] s
    | some r =>
      if r.linear < r.declared then
        (streamByte r s).bind fun b s1 => (streamRead n s1).bind fun bs s2 => .ok (b :: bs) s2
      else .ok [] s

/-! ## The meanings -/

/-- An operation on the session's reader: refused in another phase (R34), and, in a state no run reaches, where there
is no reader (log 21). -/
def issueReader {α : Type} (value : α → OpValue) (body : Reader → State → Res α) (s : State) :
    Host.Outcome State Fault Refusal :=
  .next (if admits .reader s then
    match s.rdr with
    | some r => finish value (body r s)
    | none => refuse s
  else refuse s)

/-- RDR.READ n (R139) -/
def execRdrRead (n : Nat) (s : State) : Host.Outcome State Fault Refusal :=
  issueReader .bytes (fun _ => streamRead n) s

/-- RDR.SIZE (R143) -/
def execRdrSize (s : State) : Host.Outcome State Fault Refusal :=
  issueReader .size (fun r s => .ok r.declared s) s

/-- The pair of R144 as a value. -/
def statusValue (r : Reader) : OpValue := .status r.statusBank r.linear

/-- RDR.STATUS (R144) -/
def execRdrStatus (s : State) : Host.Outcome State Fault Refusal :=
  issueReader statusValue (fun r s => .ok r s) s

/-- BANKSEL.MBC1 b (R133) -/
def execBankselMbc1 (b : BitVec 8) (s : State) : Host.Outcome State Fault Refusal :=
  issue .bankSelect noValue (selectMbc1 b) s

/-- BANKSEL.MBC2 b (R134) -/
def execBankselMbc2 (b : BitVec 8) (s : State) : Host.Outcome State Fault Refusal :=
  issue .bankSelect noValue (selectMbc2 b) s

/-- BANKSEL.MBC3 b (R135) -/
def execBankselMbc3 (b : BitVec 8) (s : State) : Host.Outcome State Fault Refusal :=
  issue .bankSelect noValue (selectMbc3 b) s

/-- BANKSEL.MBC5 b (R136) -/
def execBankselMbc5 (b : BitVec 9) (s : State) : Host.Outcome State Fault Refusal :=
  issue .bankSelect noValue (selectMbc5 b) s

end Sys2Proof.Machine
end

