-- ==== Sys2Proof/Machine/Wire.lean ====
section
/-! DEFINITION. The wire formats as instructions (R2: "The wire formats they emit count as well"): the four expander
frames of R72, the six bank-select bus writes of R75-R80 and the bus read of R73. A write frame is the encoding of
EXP.WRITE (R89), the read frame of EXP.READ (R90), a bus write of BUS.WRITE (R109), a bus read of BUS.READ (R108), and
each is admitted where that operation is (log 13). A frame word that is none of the four frames of this engine (R84) is
Refused in every phase (log 8). -/

namespace Sys2Proof.Machine

/-- R72, R84: issue a frame: a transfer operation, provided that `own` says the word is a frame of this engine. -/
def issueFrame {α : Type} (own : Bool) (value : α → OpValue) (body : State → Res α) (s : State) :
    Host.Outcome State Fault Refusal :=
  issueIf (admits .transfer s && own) value body s

/-- EXP.WR_IOCON (R72): the frame of EXP.WRITE 0x05, IOCON_INIT -/
def execExpWrIocon (d : BitVec 3) (v : Byte) (s : State) : Host.Outcome State Fault Refusal :=
  issueFrame (Instr.engineFrame s.world.expDev s.world.params (.expWrIocon d v)) noValue
    (expWrite (directContext s) Config.regIocon v) s

/-- EXP.WR_IODIR (R72): the frame of EXP.WRITE 0x00, DIR_IN or DIR_OUT -/
def execExpWrIodir (d : BitVec 3) (v : Byte) (s : State) : Host.Outcome State Fault Refusal :=
  issueFrame (Instr.engineFrame s.world.expDev s.world.params (.expWrIodir d v)) noValue
    (expWrite (directContext s) Config.regIodir v) s

/-- EXP.WR_GPIO (R72): the frame of EXP.WRITE 0x09, v -/
def execExpWrGpio (d : BitVec 3) (v : Byte) (s : State) : Host.Outcome State Fault Refusal :=
  issueFrame (Instr.engineFrame s.world.expDev s.world.params (.expWrGpio d v)) noValue
    (expWrite (directContext s) Config.regGpio v) s

/-- EXP.RD_GPIO (R72, R70): the frame of EXP.READ 0x09. Its third byte is a don't-care: whatever the word carries, the
engine sends DONT_CARE (R70, log 8). -/
def execExpRdGpio (d : BitVec 3) (x : Byte) (s : State) : Host.Outcome State Fault Refusal :=
  issueFrame (Instr.engineFrame s.world.expDev s.world.params (.expRdGpio d x)) .byte
    (expRead (directContext s) Config.regGpio) s

/-- BUSW.MBC1.SEL_LO (R75) -/
def execBuswMbc1SelLo (b : BitVec 5) (s : State) : Host.Outcome State Fault Refusal :=
  issue .bankSelect noValue (busWrite (directContext s) Config.selLow (b.setWidth 8)) s

/-- BUSW.MBC1.SEL_HI (R76) -/
def execBuswMbc1SelHi (h : BitVec 2) (s : State) : Host.Outcome State Fault Refusal :=
  issue .bankSelect noValue (busWrite (directContext s) Config.selMbc1High (h.setWidth 8)) s

/-- BUSW.MBC2.SEL (R77) -/
def execBuswMbc2Sel (b : BitVec 4) (s : State) : Host.Outcome State Fault Refusal :=
  issue .bankSelect noValue (busWrite (directContext s) Config.selMbc2 (b.setWidth 8)) s

/-- BUSW.MBC3.SEL (R78) -/
def execBuswMbc3Sel (b : BitVec 8) (s : State) : Host.Outcome State Fault Refusal :=
  issue .bankSelect noValue (busWrite (directContext s) Config.selLow b) s

/-- BUSW.MBC5.SEL_LO (R79) -/
def execBuswMbc5SelLo (b : BitVec 8) (s : State) : Host.Outcome State Fault Refusal :=
  issue .bankSelect noValue (busWrite (directContext s) Config.selLow b) s

/-- BUSW.MBC5.SEL_HI (R80) -/
def execBuswMbc5SelHi (h : BitVec 1) (s : State) : Host.Outcome State Fault Refusal :=
  issue .bankSelect noValue (busWrite (directContext s) Config.selMbc5High (h.setWidth 8)) s

/-- BUSR a (R73) -/
def execBusr (a : Addr) (s : State) : Host.Outcome State Fault Refusal :=
  issue .transfer .byte (busRead (directContext s) a) s

end Sys2Proof.Machine
end

