-- ==== Sys2Proof/Machine/Dispatch.lean ====
section
/-! DEFINITION. One arm for each constructor of Instr (R82, R72-R80): its meaning. -/

namespace Sys2Proof.Machine

open Sys2Proof

def exec (i : Instr) (s : State) : Host.Outcome State Fault Refusal :=
  match i with
  | .bdInit => Sys2Proof.Machine.execBdInit s
  | .bdSetAddress a => Sys2Proof.Machine.execBdSetAddress a s
  | .bdReadByte => Sys2Proof.Machine.execBdReadByte s
  | .bdWriteByte v => Sys2Proof.Machine.execBdWriteByte v s
  | .bdTeardown => Sys2Proof.Machine.execBdTeardown s
  | .bdSetDir d => Sys2Proof.Machine.execBdSetDir d s
  | .bdSetRd l => Sys2Proof.Machine.execBdSetRd l s
  | .bdSetCs l => Sys2Proof.Machine.execBdSetCs l s
  | .bdPulseWr => Sys2Proof.Machine.execBdPulseWr s
  | .expWrite r v => Sys2Proof.Machine.execExpWrite r v s
  | .expRead r => Sys2Proof.Machine.execExpRead r s
  | .busWrite a v => Sys2Proof.Machine.execBusWrite a v s
  | .busRead a => Sys2Proof.Machine.execBusRead a s
  | .hwRead n => Sys2Proof.Machine.execHwRead n s
  | .hwSeek whence off => Sys2Proof.Machine.execHwSeek whence off s
  | .dispatch => Sys2Proof.Machine.execDispatch s
  | .rdrRead n => Sys2Proof.Machine.execRdrRead n s
  | .rdrSize => Sys2Proof.Machine.execRdrSize s
  | .rdrStatus => Sys2Proof.Machine.execRdrStatus s
  | .bankselMbc1 b => Sys2Proof.Machine.execBankselMbc1 b s
  | .bankselMbc2 b => Sys2Proof.Machine.execBankselMbc2 b s
  | .bankselMbc3 b => Sys2Proof.Machine.execBankselMbc3 b s
  | .bankselMbc5 b => Sys2Proof.Machine.execBankselMbc5 b s
  | .expWrIocon d v => Sys2Proof.Machine.execExpWrIocon d v s
  | .expWrIodir d v => Sys2Proof.Machine.execExpWrIodir d v s
  | .expWrGpio d v => Sys2Proof.Machine.execExpWrGpio d v s
  | .expRdGpio d x => Sys2Proof.Machine.execExpRdGpio d x s
  | .buswMbc1SelLo b => Sys2Proof.Machine.execBuswMbc1SelLo b s
  | .buswMbc1SelHi h => Sys2Proof.Machine.execBuswMbc1SelHi h s
  | .buswMbc2Sel b => Sys2Proof.Machine.execBuswMbc2Sel b s
  | .buswMbc3Sel b => Sys2Proof.Machine.execBuswMbc3Sel b s
  | .buswMbc5SelLo b => Sys2Proof.Machine.execBuswMbc5SelLo b s
  | .buswMbc5SelHi h => Sys2Proof.Machine.execBuswMbc5SelHi h s
  | .busr a => Sys2Proof.Machine.execBusr a s

end Sys2Proof.Machine
end

