-- ==== Sys2Proof/Machine/Step.lean ====
section
/-! DEFINITION. One step: the caller's next call is decoded and run to completion (R5, R22: the engine has no program
counter and fetches no instructions; the caller issues operations one at a time). With no pending call the engine sits
idle, with the lines as last commanded (R165). -/

namespace Sys2Proof.Machine

/-- The variant of the session's reader, if there is one: what R86 says the decoding of a bank select depends on. -/
def State.variant (s : State) : Option Variant := s.rdr.map Reader.variant

/-- One operation of the caller. -/
def step (s : State) : Host.Outcome State Fault Refusal :=
  match s.caller.calls with
  | [] => .next s
  | c :: rest =>
    match decode s.variant c with
    | .ok i => exec i { s with caller := { s.caller with calls := rest } }
    | .error e => .refused (.undecodable e)

/-- The state in which the caller issues the given table word next. -/
def State.withFetchWord (s : State) (nbits w : Nat) : State :=
  { s with caller := { s.caller with calls := Call.ofTableWord nbits w :: s.caller.calls } }

end Sys2Proof.Machine
end

