-- ==== Sys2Proof/Laws/PerInstr.lean ====
section
/-! SUPPORT. Decode after encode, one lemma for each constructor of Instr. -/

namespace Sys2Proof.Laws

/-! ## Operands -/

/-- A w-bit operand that an encoder wrote is read back. -/
theorem bitsOperand_toNat (w : Nat) (b : BitVec w) : bitsOperand w (b.toNat : Int) = .ok b := by
  simp [bitsOperand, b.isLt]

theorem natOperand_natCast (n : Nat) : natOperand (n : Int) = .ok n := by
  simp [natOperand]

theorem levelOperand_code (l : Level) : levelOperand (levelCode l) = .ok l := by
  cases l <;> rfl

theorem directionOperand_code (d : DataDirection) : directionOperand (directionCode d) = .ok d := by
  cases d <;> rfl

theorem whenceOperand_code (w : Whence) : whenceOperand (whenceCode w) = .ok w := by
  cases w <;> rfl

/-! ## The bits of a frame word (R67, R68) -/

theorem maskRow_command_write (d : BitVec 3) : (writeCommand d).setWidth 24 <<< 16 &&& 0xF1FF00#24 = 0x400000#24 := by
  revert d; decide

theorem maskRow_command_read (d : BitVec 3) : (readCommand d).setWidth 24 <<< 16 &&& 0xF1FF00#24 = 0x410000#24 := by
  revert d; decide

theorem maskRow_register (r : Byte) : r.setWidth 24 <<< 8 &&& 0xF1FF00#24 = r.setWidth 24 <<< 8 := by
  revert r; decide

theorem maskRow_data (v : Byte) : v.setWidth 24 &&& 0xF1FF00#24 = 0#24 := by
  revert v; decide

theorem frameWord_mask_write (d : BitVec 3) (r v : Byte) :
    frameWord (writeCommand d) r v &&& 0xF1FF00#24 = 0x400000#24 ||| r.setWidth 24 <<< 8 := by
  simp only [frameWord, BitVec.and_or_distrib_right, maskRow_command_write, maskRow_register, maskRow_data,
    BitVec.or_zero]

theorem frameWord_mask_read (d : BitVec 3) (r v : Byte) :
    frameWord (readCommand d) r v &&& 0xF1FF00#24 = 0x410000#24 ||| r.setWidth 24 <<< 8 := by
  simp only [frameWord, BitVec.and_or_distrib_right, maskRow_command_read, maskRow_register, maskRow_data,
    BitVec.or_zero]

theorem deviceField_command_write (d : BitVec 3) : ((writeCommand d).setWidth 24 <<< 16).extractLsb' 17 3 = d := by
  revert d; decide

theorem deviceField_command_read (d : BitVec 3) : ((readCommand d).setWidth 24 <<< 16).extractLsb' 17 3 = d := by
  revert d; decide

theorem deviceField_register (r : Byte) : (r.setWidth 24 <<< 8).extractLsb' 17 3 = 0#3 := by
  revert r; decide

theorem deviceField_data (v : Byte) : (v.setWidth 24).extractLsb' 17 3 = 0#3 := by
  revert v; decide

theorem dataField_command (t : Byte) : (t.setWidth 24 <<< 16).extractLsb' 0 8 = 0#8 := by
  revert t; decide

theorem dataField_register (r : Byte) : (r.setWidth 24 <<< 8).extractLsb' 0 8 = 0#8 := by
  revert r; decide

theorem dataField_data (v : Byte) : (v.setWidth 24).extractLsb' 0 8 = v := by
  revert v; decide

theorem frameWord_device_write (d : BitVec 3) (r v : Byte) :
    (frameWord (writeCommand d) r v).extractLsb' 17 3 = d := by
  simp only [frameWord, BitVec.extractLsb'_or, deviceField_command_write, deviceField_register, deviceField_data,
    BitVec.or_zero]

theorem frameWord_device_read (d : BitVec 3) (r v : Byte) :
    (frameWord (readCommand d) r v).extractLsb' 17 3 = d := by
  simp only [frameWord, BitVec.extractLsb'_or, deviceField_command_read, deviceField_register, deviceField_data,
    BitVec.or_zero]

theorem frameWord_data (t r v : Byte) : (frameWord t r v).extractLsb' 0 8 = v := by
  simp only [frameWord, BitVec.extractLsb'_or, dataField_command, dataField_register, dataField_data, BitVec.zero_or]

/-- The decoder reads a write frame by its register. -/
theorem decodeFrame_write (d : BitVec 3) (v : Byte) :
    decodeFrame (frameWord (writeCommand d) Config.regIocon v) = .ok (.expWrIocon d v) ∧
    decodeFrame (frameWord (writeCommand d) Config.regIodir v) = .ok (.expWrIodir d v) ∧
    decodeFrame (frameWord (writeCommand d) Config.regGpio v) = .ok (.expWrGpio d v) := by
  simp only [decodeFrame, matchesRow, frameWord_mask_write, frameWord_device_write, frameWord_data]
  refine ⟨?_, ?_, ?_⟩ <;> rfl

/-- The decoder reads the read frame. -/
theorem decodeFrame_read (d : BitVec 3) (x : Byte) :
    decodeFrame (frameWord (readCommand d) Config.regGpio x) = .ok (.expRdGpio d x) := by
  simp only [decodeFrame, matchesRow, frameWord_mask_read, frameWord_device_read, frameWord_data]
  rfl

/-! ## The bank-select words (R74-R80), each under its variant (R86) -/

theorem select_mbc1_low (b : BitVec 5) :
    decodeSelectOf .mbc1 (busWriteWord Config.selLow (b.setWidth 8)) = some (.buswMbc1SelLo b) := by
  revert b; decide

theorem select_mbc1_high (h : BitVec 2) :
    decodeSelectOf .mbc1 (busWriteWord Config.selMbc1High (h.setWidth 8)) = some (.buswMbc1SelHi h) := by
  revert h; decide

theorem select_mbc2 (b : BitVec 4) :
    decodeSelectOf .mbc2 (busWriteWord Config.selMbc2 (b.setWidth 8)) = some (.buswMbc2Sel b) := by
  revert b; decide

theorem select_mbc3 (b : BitVec 8) :
    decodeSelectOf .mbc3 (busWriteWord Config.selLow b) = some (.buswMbc3Sel b) := by
  revert b; decide

theorem select_mbc5_low (b : BitVec 8) :
    decodeSelectOf .mbc5 (busWriteWord Config.selLow b) = some (.buswMbc5SelLo b) := by
  revert b; decide

theorem select_mbc5_high (h : BitVec 1) :
    decodeSelectOf .mbc5 (busWriteWord Config.selMbc5High (h.setWidth 8)) = some (.buswMbc5SelHi h) := by
  revert h; decide

theorem decodeBusWrite_of_select {v : Variant} {w : BitVec 24} {i : Instr} (h : decodeSelectOf v w = some i) :
    decodeBusWrite (some v) w = .ok i := by
  simp [decodeBusWrite, h]

/-! ## One lemma for each instruction -/

/-- Decoding what the encoder writes for a well-formed instruction gives it back, whatever reader there is; for a
bank-select row, under its variant. -/
def DecodeEncode.Statement (i : Instr) : Prop :=
  i.operandsOk = true → ∀ v, (∀ w, i.selectVariant = some w → v = some w) → decode v (encode i) = .ok i

theorem DecodeEncode.bdInit : DecodeEncode.Statement .bdInit := fun _ _ _ => rfl

theorem DecodeEncode.bdSetAddress (a : Addr) : DecodeEncode.Statement (.bdSetAddress a) := by
  intro _ w _
  simp [decode, encode, decodeOp, oneOperand, bitsOperand_toNat, Except.map]

theorem DecodeEncode.bdReadByte : DecodeEncode.Statement .bdReadByte := fun _ _ _ => rfl

theorem DecodeEncode.bdWriteByte (v : Byte) : DecodeEncode.Statement (.bdWriteByte v) := by
  intro _ w _
  simp [decode, encode, decodeOp, oneOperand, bitsOperand_toNat, Except.map]

theorem DecodeEncode.bdTeardown : DecodeEncode.Statement .bdTeardown := fun _ _ _ => rfl

theorem DecodeEncode.bdSetDir (d : DataDirection) : DecodeEncode.Statement (.bdSetDir d) := by
  intro _ w _
  simp [decode, encode, decodeOp, oneOperand, directionOperand_code, Except.map]

theorem DecodeEncode.bdSetRd (l : Level) : DecodeEncode.Statement (.bdSetRd l) := by
  intro _ w _
  simp [decode, encode, decodeOp, oneOperand, levelOperand_code, Except.map]

theorem DecodeEncode.bdSetCs (l : Level) : DecodeEncode.Statement (.bdSetCs l) := by
  intro _ w _
  simp [decode, encode, decodeOp, oneOperand, levelOperand_code, Except.map]

theorem DecodeEncode.bdPulseWr : DecodeEncode.Statement .bdPulseWr := fun _ _ _ => rfl

theorem DecodeEncode.expWrite (r : Byte) (v : Byte) : DecodeEncode.Statement (.expWrite r v) := by
  intro _ w _
  simp [decode, encode, decodeOp, twoOperands, bitsPair, bitsOperand_toNat]

theorem DecodeEncode.expRead (r : Byte) : DecodeEncode.Statement (.expRead r) := by
  intro _ w _
  simp [decode, encode, decodeOp, oneOperand, bitsOperand_toNat, Except.map]

theorem DecodeEncode.busWrite (a : Addr) (v : Byte) : DecodeEncode.Statement (.busWrite a v) := by
  intro _ w _
  simp [decode, encode, decodeOp, twoOperands, bitsPair, bitsOperand_toNat]

theorem DecodeEncode.busRead (a : Addr) : DecodeEncode.Statement (.busRead a) := by
  intro _ w _
  simp [decode, encode, decodeOp, oneOperand, bitsOperand_toNat, Except.map]

theorem DecodeEncode.hwRead (n : Nat) : DecodeEncode.Statement (.hwRead n) := by
  intro _ w _
  simp [decode, encode, decodeOp, oneOperand, natOperand_natCast, Except.map]

theorem DecodeEncode.hwSeek (whence : Whence) (off : Int) : DecodeEncode.Statement (.hwSeek whence off) := by
  intro hi w _
  simp [decode, encode, decodeOp, twoOperands, seekOperands, whenceOperand_code, hi]

theorem DecodeEncode.dispatch : DecodeEncode.Statement .dispatch := fun _ _ _ => rfl

theorem DecodeEncode.rdrRead (n : Nat) : DecodeEncode.Statement (.rdrRead n) := by
  intro _ w _
  simp [decode, encode, decodeOp, oneOperand, natOperand_natCast, Except.map]

theorem DecodeEncode.rdrSize : DecodeEncode.Statement .rdrSize := fun _ _ _ => rfl

theorem DecodeEncode.rdrStatus : DecodeEncode.Statement .rdrStatus := fun _ _ _ => rfl

theorem DecodeEncode.bankselMbc1 (b : BitVec 8) : DecodeEncode.Statement (.bankselMbc1 b) := by
  intro _ w _
  simp [decode, encode, decodeOp, oneOperand, bitsOperand_toNat, Except.map]

theorem DecodeEncode.bankselMbc2 (b : BitVec 8) : DecodeEncode.Statement (.bankselMbc2 b) := by
  intro _ w _
  simp [decode, encode, decodeOp, oneOperand, bitsOperand_toNat, Except.map]

theorem DecodeEncode.bankselMbc3 (b : BitVec 8) : DecodeEncode.Statement (.bankselMbc3 b) := by
  intro _ w _
  simp [decode, encode, decodeOp, oneOperand, bitsOperand_toNat, Except.map]

theorem DecodeEncode.bankselMbc5 (b : BitVec 9) : DecodeEncode.Statement (.bankselMbc5 b) := by
  intro _ w _
  simp [decode, encode, decodeOp, oneOperand, bitsOperand_toNat, Except.map]

theorem DecodeEncode.expWrIocon (d : BitVec 3) (v : Byte) : DecodeEncode.Statement (.expWrIocon d v) := fun _ _ _ => (decodeFrame_write d v).1

theorem DecodeEncode.expWrIodir (d : BitVec 3) (v : Byte) : DecodeEncode.Statement (.expWrIodir d v) := fun _ _ _ => (decodeFrame_write d v).2.1

theorem DecodeEncode.expWrGpio (d : BitVec 3) (v : Byte) : DecodeEncode.Statement (.expWrGpio d v) := fun _ _ _ => (decodeFrame_write d v).2.2

theorem DecodeEncode.expRdGpio (d : BitVec 3) (x : Byte) : DecodeEncode.Statement (.expRdGpio d x) := fun _ _ _ => decodeFrame_read d x

theorem DecodeEncode.buswMbc1SelLo (b : BitVec 5) : DecodeEncode.Statement (.buswMbc1SelLo b) := by
  intro _ w hw
  obtain rfl := hw _ rfl
  exact decodeBusWrite_of_select (select_mbc1_low b)

theorem DecodeEncode.buswMbc1SelHi (h : BitVec 2) : DecodeEncode.Statement (.buswMbc1SelHi h) := by
  intro _ w hw
  obtain rfl := hw _ rfl
  exact decodeBusWrite_of_select (select_mbc1_high h)

theorem DecodeEncode.buswMbc2Sel (b : BitVec 4) : DecodeEncode.Statement (.buswMbc2Sel b) := by
  intro _ w hw
  obtain rfl := hw _ rfl
  exact decodeBusWrite_of_select (select_mbc2 b)

theorem DecodeEncode.buswMbc3Sel (b : BitVec 8) : DecodeEncode.Statement (.buswMbc3Sel b) := by
  intro _ w hw
  obtain rfl := hw _ rfl
  exact decodeBusWrite_of_select (select_mbc3 b)

theorem DecodeEncode.buswMbc5SelLo (b : BitVec 8) : DecodeEncode.Statement (.buswMbc5SelLo b) := by
  intro _ w hw
  obtain rfl := hw _ rfl
  exact decodeBusWrite_of_select (select_mbc5_low b)

theorem DecodeEncode.buswMbc5SelHi (h : BitVec 1) : DecodeEncode.Statement (.buswMbc5SelHi h) := by
  intro _ w hw
  obtain rfl := hw _ rfl
  exact decodeBusWrite_of_select (select_mbc5_high h)

theorem DecodeEncode.busr (a : Addr) : DecodeEncode.Statement (.busr a) := fun _ _ _ => rfl

end Sys2Proof.Laws
end

