-- ==== Sys2Proof/Safety.lean ====
section
/-! DEFINITION. The terms that claims about the machine use: which operations a phase admits (R34), what the trace
says (R11), the closed forms of the bus cycles (R105, R106), the stream's banks and addresses (R145-R148), and what a
consistent, honest and safe state is (R16-R40, R47, R84, R103, R186). -/

namespace Sys2Proof.Machine

/-! ## Admission -/

/-- R34: the row of the admission table of each instruction (log 13 for the micro-operations and the wire formats). -/
def admissionOf : Instr → Admission
  | .bdInit => .init
  | .bdTeardown => .teardown
  | .hwRead _ | .hwSeek _ _ | .dispatch => .window
  | .rdrRead _ | .rdrSize | .rdrStatus => .reader
  | .bankselMbc1 _ | .bankselMbc2 _ | .bankselMbc3 _ | .bankselMbc5 _ | .busWrite _ _ => .bankSelect
  | .buswMbc1SelLo _ | .buswMbc1SelHi _ | .buswMbc2Sel _ | .buswMbc3Sel _ | .buswMbc5SelLo _ | .buswMbc5SelHi _ =>
    .bankSelect
  | _ => .transfer

/-- R34, R84: whether an instruction is admitted in a state: its row of the table, and, for a frame word, that it is a
frame of this engine (log 8). -/
def admitted (i : Instr) (s : State) : Bool :=
  admits (admissionOf i) s && i.engineFrame s.world.expDev s.world.params

/-! ## What the trace says -/

/-- The level that the last LINE event of a line drove it to. -/
def lastLine (tr : List Event) (ln : Line) : Option Level :=
  tr.foldl (fun acc e => match e with | .line s l => if s = ln then some l else acc | _ => acc) none

/-- The value of the last ADDR event. -/
def lastAddr (tr : List Event) : Option Addr :=
  tr.foldl (fun acc e => match e with | .addr a => some a | _ => acc) none

/-- The byte that the last completed write frame to register `r` of device `d` carried. -/
def lastWritten (tr : List Event) (d : BitVec 3) (r : Byte) : Option Byte :=
  tr.foldl (fun acc e => match e with
    | .spi t0 t1 t2 _ _ _ => if t0 = writeCommand d ∧ t1 = r then some t2 else acc
    | _ => acc) none

/-- The completed EXP.WR_IODIR frames to device `d`. -/
def directionFrames (tr : List Event) (d : BitVec 3) : Nat :=
  tr.countP fun e => match e with
    | .spi t0 t1 _ _ _ _ => t0 = writeCommand d ∧ t1 = Config.regIodir
    | _ => false

/-- The falling edges of WR. -/
def writePulses (tr : List Event) : Nat := tr.countP fun e => e = .line .wr .L

/-- The values of the ADDR events, in order. -/
def addrsOf (tr : List Event) : List Addr :=
  tr.filterMap fun e => match e with | .addr a => some a | _ => none

/-- The data bytes that the completed read frames of device `d` brought, in order (R70). -/
def dataRead (tr : List Event) (d : BitVec 3) : List Byte :=
  tr.filterMap fun e => match e with
    | .spi t0 t1 _ _ _ r2 => if t0 = readCommand d ∧ t1 = Config.regGpio then some r2 else none
    | _ => none

/-- The data bytes that the completed EXP.WR_GPIO frames to device `d` carried, in order (R69). -/
def dataWritten (tr : List Event) (d : BitVec 3) : List Byte :=
  tr.filterMap fun e => match e with
    | .spi t0 t1 t2 _ _ _ => if t0 = writeCommand d ∧ t1 = Config.regGpio then some t2 else none
    | _ => none

/-- R72, R84: the frame forms the engine emits, for device `d` and the parameters `p`. -/
def EngineFrame (d : BitVec 3) (p : Params) (t0 t1 t2 : Byte) : Prop :=
  t0 = writeCommand d ∧ t1 = Config.regIocon ∧ t2 = p.ioconInit ∨
  t0 = writeCommand d ∧ t1 = Config.regIodir ∧ (t2 = p.dirIn ∨ t2 = p.dirOut) ∨
  t0 = writeCommand d ∧ t1 = Config.regGpio ∨
  t0 = readCommand d ∧ t1 = Config.regGpio ∧ t2 = Config.dontCare

/-! ## Closed forms of the bus cycles -/

/-- XferOracle's answers to the exchanges from now on, numbered from 0. -/
def World.answerAt (w : World) (k : Nat) : XferAnswer := (World.advance^[k] w).answer

/-- R92, R93: the events of a coalesced transition from the cached level `c`. -/
def settleEvents (c : Option Level) (ln : Line) (l : Level) (t : Nat) : List Event :=
  if c = some l then [] else [.line ln l, .wait t]

/-- R92: the event of a coalesced edge from the cached level `c`. -/
def edgeEvents (c : Option Level) (ln : Line) (l : Level) : List Event := if c = some l then [] else [.line ln l]

/-- R94: the wait between WR's edges, where there is one. -/
def lowEvents (tLow : Nat) : List Event := if 0 < tLow then [.wait tLow] else []

/-- R105: the events of a read segment with the direction already Input, from the cached levels `v`. -/
def readEvents (v : Levels) (d : BitVec 3) (r0 r1 b : Byte) : List Event :=
  settleEvents v.rd .rd .L Config.tRd ++ settleEvents v.cs .cs .L Config.tCs ++
  [.spi (readCommand d) Config.regGpio Config.dontCare r0 r1 b,
   .line .rd .H, .wait Config.tRd, .line .cs .H, .wait Config.tCs]

/-- R106: the events of a write segment up to WR's rising edge, from the cached levels `c`. -/
def writeEventsToStrobe (c : Levels) (d : BitVec 3) (tLow : Nat) (v r0 r1 r2 : Byte) :
    List Event :=
  settleEvents c.rd .rd .H Config.tRd ++ settleEvents c.cs .cs .L Config.tCs ++
  [.spi (writeCommand d) Config.regGpio v r0 r1 r2, .wait Config.tWrPre] ++
  edgeEvents c.wr .wr .L ++ lowEvents tLow ++ [.line .wr .H]

/-- R91: the state after a completed direction frame that carries direction `d`. -/
def State.turned (s : State) (d : DataDirection) (r0 r1 r2 : Byte) : State :=
  { s with
    drv := { s.drv with dir := some d }
    trace := s.trace ++
      [.spi (writeCommand s.world.expDev) Config.regIodir (directionByte s.world.params d) r0 r1 r2]
    exp := { s.exp with iodir := directionByte s.world.params d }
    world := s.world.advance }

/-- R97: the state after a completed BD.READ_BYTE that found the direction already Input. -/
def State.readDone (s : State) (r0 r1 b : Byte) : State :=
  { s with
    drv := { s.drv with lvl := { s.drv.lvl with rd := some .H, cs := some .H } }
    trace := s.trace ++ readEvents s.drv.lvl s.world.expDev r0 r1 b
    world := s.world.advance }

/-- R98: the state after a completed BD.WRITE_BYTE v that found the direction already Output. The cartridge takes the
byte at the address on the address lines; both are free values where the engine has not driven them (log 14). -/
def State.writeDone (s : State) (v r0 r1 r2 : Byte) : State :=
  { s with
    drv := { s.drv with lvl := { s.drv.lvl with rd := some .H, wr := some .H, cs := some .H } }
    trace := s.trace ++ writeEventsToStrobe s.drv.lvl s.world.expDev s.world.params.tWrLow v r0 r1 r2 ++
      [.wait Config.tWrPost, .line .cs .H, .wait Config.tCs]
    exp := { s.exp with gpio := v }
    cart :=
      let n := (s.trace ++ writeEventsToStrobe s.drv.lvl s.world.expDev s.world.params.tWrLow v r0 r1 r2).length
      Memory.write s.cart (s.drv.addr.getD (Config.undrivenAddr n)).toNat
        (if s.exp.iodir = s.world.params.dirOut then v else Config.undrivenData n)
    world := s.world.advance }

/-- R96: the state after BD.SET_ADDRESS a. -/
def State.addressed (s : State) (a : Addr) : State :=
  { s with drv := { s.drv with addr := some a }, trace := s.trace ++ [.addr a] }

/-- The outcome of an operation is given to the caller. -/
def State.returning (s : State) (r : OpResult) : State :=
  { s with caller := { s.caller with returned := s.caller.returned ++ [r] } }

/-- R158: the state that an error which ends the session leaves. -/
def State.faulted (s : State) (e : EngineError) : State :=
  { s with ses := { phase := .ended, fault := some e } }

/-- R91, R159: the state that a failed direction frame leaves: no line driven, the cache as it was. -/
def State.turnFailed (s : State) (ctx : BusContext) (d : DataDirection) : State :=
  { s with
    trace := s.trace ++ [Event.spiFail (writeCommand s.world.expDev) Config.regIodir (directionByte s.world.params d)]
    world := s.world.advance }.faulted (.busCommunication ctx)

/-- R159: the state that a BD.READ_BYTE leaves which found the direction Input and fails at its data frame: RD and CS at
L. -/
def State.readFailed (s : State) (ctx : BusContext) : State :=
  { s with
    drv := { s.drv with lvl := { s.drv.lvl with rd := some .L, cs := some .L } }
    trace := s.trace ++ settleEvents s.drv.lvl.rd .rd .L Config.tRd ++ settleEvents s.drv.lvl.cs .cs .L Config.tCs ++
      [Event.spiFail (readCommand s.world.expDev) Config.regGpio Config.dontCare]
    world := s.world.advance }.faulted (.busCommunication ctx)

/-- R159: the state that a BD.WRITE_BYTE leaves which found the direction Output and fails at its data frame: CS at L, WR
not pulsed. -/
def State.writeFailed (s : State) (ctx : BusContext) (v : Byte) : State :=
  { s with
    drv := { s.drv with lvl := { s.drv.lvl with rd := some .H, cs := some .L } }
    trace := s.trace ++ settleEvents s.drv.lvl.rd .rd .H Config.tRd ++ settleEvents s.drv.lvl.cs .cs .L Config.tCs ++
      [Event.spiFail (writeCommand s.world.expDev) Config.regGpio v]
    world := s.world.advance }.faulted (.busCommunication ctx)

/-! ## How a byte transfer ends (R97, R98, R159) -/

/-- R97: BD.READ_BYTE with every exchange it needs answered reads `b` and leaves `t`: one exchange with the direction
already Input, a direction frame and then one exchange otherwise. -/
def ReadCompletes (s : State) (b : Byte) (t : State) : Prop :=
  (s.drv.dir = some .input ∧ ∃ r0 r1, s.world.answer = .answered r0 r1 b ∧ t = s.readDone r0 r1 b) ∨
  (s.drv.dir ≠ some .input ∧ ∃ x0 x1 x2 r0 r1, s.world.answer = .answered x0 x1 x2 ∧
    s.world.advance.answer = .answered r0 r1 b ∧ t = (s.turned .input x0 x1 x2).readDone r0 r1 b)

/-- R98: BD.WRITE_BYTE v with every exchange it needs answered leaves `t`. -/
def WriteCompletes (s : State) (v : Byte) (t : State) : Prop :=
  (s.drv.dir = some .output ∧ ∃ r0 r1 r2, s.world.answer = .answered r0 r1 r2 ∧ t = s.writeDone v r0 r1 r2) ∨
  (s.drv.dir ≠ some .output ∧ ∃ x0 x1 x2 r0 r1 r2, s.world.answer = .answered x0 x1 x2 ∧
    s.world.advance.answer = .answered r0 r1 r2 ∧ t = (s.turned .output x0 x1 x2).writeDone v r0 r1 r2)

/-- R97, R159: BD.READ_BYTE with an exchange that fails under context `ctx` leaves `t`: at its data frame with the
direction already Input, at its direction frame, or at its data frame after an answered direction frame. -/
def ReadFails (ctx : BusContext) (s t : State) : Prop :=
  (s.drv.dir = some .input ∧ s.world.answer = .failed ∧ t = s.readFailed ctx) ∨
  (s.drv.dir ≠ some .input ∧ s.world.answer = .failed ∧ t = s.turnFailed ctx .input) ∨
  (s.drv.dir ≠ some .input ∧ ∃ x0 x1 x2, s.world.answer = .answered x0 x1 x2 ∧ s.world.advance.answer = .failed ∧
    t = (s.turned .input x0 x1 x2).readFailed ctx)

/-- R98, R159: BD.WRITE_BYTE v with an exchange that fails under context `ctx` leaves `t`. -/
def WriteFails (ctx : BusContext) (s : State) (v : Byte) (t : State) : Prop :=
  (s.drv.dir = some .output ∧ s.world.answer = .failed ∧ t = s.writeFailed ctx v) ∨
  (s.drv.dir ≠ some .output ∧ s.world.answer = .failed ∧ t = s.turnFailed ctx .output) ∨
  (s.drv.dir ≠ some .output ∧ ∃ x0 x1 x2, s.world.answer = .answered x0 x1 x2 ∧ s.world.advance.answer = .failed ∧
    t = (s.turned .output x0 x1 x2).writeFailed ctx v)

/-! ## The stream (R145-R148) -/

/-- R145, R146: the bank counter's value after `k` bank switches. -/
def bankAfter (v : Variant) (k : Nat) : BitVec 9 := (nextBank v)^[k] 0#9

/-- R129: the boundaries that a reader standing at linear address `lin` has crossed. -/
def crossings (lin : Nat) : Nat := (lin - 1) / Config.bankSize

/-- R37, R133-R136: the bank-select registers that a bank switch writes, in order. -/
def selectAddrs : Variant → List Addr
  | .romOnly => []
  | .mbc1 => [Config.selLow, Config.selMbc1High]
  | .mbc2 => [Config.selMbc2]
  | .mbc3 => [Config.selLow]
  | .mbc5 => [Config.selLow, Config.selMbc5High]

/-- R148: the bus addresses driven for the stream byte at `lin`: the bank-select registers at a boundary, then the
translated address. -/
def byteAddrs (v : Variant) (lin : Nat) : List Addr :=
  (if trigger v lin then selectAddrs v else []) ++ [translate lin]

/-- R148: the bus addresses driven for `m` stream bytes from linear address `lin` on. -/
def streamAddrs (v : Variant) (lin m : Nat) : List Addr := (List.range' lin m).flatMap (byteAddrs v)

/-- R37, R133-R136: the bank-select writes that carry the counter `b`, in order: bus address and byte. -/
def selectWrites (v : Variant) (b : BitVec 9) : List (Addr × Byte) :=
  match v with
  | .romOnly => []
  | .mbc1 => [(Config.selLow, (b.extractLsb' 0 5).setWidth 8), (Config.selMbc1High, (b.extractLsb' 5 2).setWidth 8)]
  | .mbc2 => [(Config.selMbc2, (b.extractLsb' 0 4).setWidth 8)]
  | .mbc3 => [(Config.selLow, b.extractLsb' 0 8)]
  | .mbc5 => [(Config.selLow, b.extractLsb' 0 8), (Config.selMbc5High, (b.extractLsb' 8 1).setWidth 8)]

/-- R129, R147: the bank switches that reading `m` stream bytes from linear address `lin` on makes. -/
def switches (v : Variant) (lin m : Nat) : Nat := (List.range' lin m).countP (trigger v)

/-- R130, R139: the bank-select writes made for `m` stream bytes from linear address `lin` on by a reader whose counter
holds `b`: at each boundary those that carry the counter as that switch has stepped it. -/
def streamWrites (v : Variant) (b : BitVec 9) (lin m : Nat) : List (Addr × Byte) :=
  (List.range m).flatMap fun k =>
    if trigger v (lin + k) then selectWrites v ((nextBank v)^[switches v lin (k + 1)] b) else []

/-- The cartridge's bytes after a list of writes. -/
def Memory.writeAll (m : Memory) (ws : List (Addr × Byte)) : Memory :=
  ws.foldl (fun m w => Memory.write m w.1.toNat w.2) m

/-- R148: the bus write cycles of one bank switch. -/
def writesPerSwitch : Variant → Nat
  | .romOnly => 0
  | .mbc1 | .mbc5 => 2
  | .mbc2 | .mbc3 => 1

/-! ## Sequences of operations -/

/-- The operations of a list, each issued when the one before it has ended. -/
def execAll : List Instr → State → Host.Outcome State Fault Refusal
  | [], s => .next s
  | i :: is, s =>
    match exec i s with
    | .next s' => execAll is s'
    | .fault f => .fault f
    | .refused r => .refused r

/-- R100: the direction of a transfer operation. -/
def transferDirection : Instr → Option DataDirection
  | .bdReadByte | .busRead _ | .busr _ => some .input
  | .bdWriteByte _ | .busWrite _ _ => some .output
  | _ => none

/-- R100: the places where a direction differs from the one before it. -/
def directionChanges (d : DataDirection) : List DataDirection → Nat
  | [] => 0
  | e :: es => (if e = d then 0 else 1) + directionChanges e es

/-! ## What an instruction may change -/

/-- R2: the micro-operations that are single steps of a transfer (R89-R94), and the bare frames of two of them. R39 leaves
them out: between any two other instructions that complete, the strobes are idle. -/
def isTransferStep : Instr → Bool
  | .bdSetDir _ | .bdSetRd _ | .bdSetCs _ | .bdPulseWr | .expWrite _ _ | .expRead _ => true
  | .expWrIocon _ _ | .expWrIodir _ _ | .expWrGpio _ _ | .expRdGpio _ _ => true
  | _ => false

/-- The instructions that pulse WR, and so may write to the cartridge (R94, R98, R133-R136, R139). -/
def pulsesWr : Instr → Bool
  | .bdWriteByte _ | .bdPulseWr | .busWrite _ _ | .rdrRead _ => true
  | .bankselMbc1 _ | .bankselMbc2 _ | .bankselMbc3 _ | .bankselMbc5 _ => true
  | .buswMbc1SelLo _ | .buswMbc1SelHi _ | .buswMbc2Sel _ | .buswMbc3Sel _ | .buswMbc5SelLo _ | .buswMbc5SelHi _ => true
  | _ => false

/-- The instructions that may move the Header Window (R21, R95, R121). -/
def movesWindow : Instr → Bool
  | .bdInit | .hwRead _ | .hwSeek _ _ | .dispatch => true
  | _ => false

/-- The instructions that may change the reader (R21). -/
def changesReader : Instr → Bool
  | .dispatch | .rdrRead _ => true
  | _ => false

/-- The instructions that never touch the bus (R116, R143, R144). -/
def offBus : Instr → Bool
  | .hwSeek _ _ | .rdrSize | .rdrStatus => true
  | _ => false

/-- The bus address and byte of the bus write cycle that an instruction is (R74-R80, R109). -/
def busWriteOf : Instr → Option (Addr × Byte)
  | .busWrite a v => some (a, v)
  | .buswMbc1SelLo b => some (Config.selLow, b.setWidth 8)
  | .buswMbc1SelHi h => some (Config.selMbc1High, h.setWidth 8)
  | .buswMbc2Sel b => some (Config.selMbc2, b.setWidth 8)
  | .buswMbc3Sel b => some (Config.selLow, b)
  | .buswMbc5SelLo b => some (Config.selLow, b)
  | .buswMbc5SelHi h => some (Config.selMbc5High, h.setWidth 8)
  | _ => none

/-- The bus address of the bus read cycle that an instruction is (R73, R108). -/
def busReadOf : Instr → Option Addr
  | .busRead a => some a
  | .busr a => some a
  | _ => none

/-- The write frame that an instruction is, on an engine strapped to `expDev` (R69, R72, R89): device, register, byte. -/
def writeFrameOf (expDev : BitVec 3) : Instr → Option (BitVec 3 × Byte × Byte)
  | .expWrite r v => some (expDev, r, v)
  | .expWrIocon d v => some (d, Config.regIocon, v)
  | .expWrIodir d v => some (d, Config.regIodir, v)
  | .expWrGpio d v => some (d, Config.regGpio, v)
  | _ => none

/-- The read frame that an instruction is (R70, R72, R90): device, register, third byte sent. -/
def readFrameOf (expDev : BitVec 3) : Instr → Option (BitVec 3 × Byte × Byte)
  | .expRead r => some (expDev, r, Config.dontCare)
  | .expRdGpio d _ => some (d, Config.regGpio, Config.dontCare)
  | _ => none

/-! ## Consistent, honest and safe states -/

/-- R39: every strobe and CS is idle. -/
abbrev StrobesIdle (s : State) : Prop :=
  s.drv.lvl.rd = some .H ∧ s.drv.lvl.wr = some .H ∧ s.drv.lvl.cs = some .H

/-- R186: every control line is idle. -/
abbrev LinesIdle (s : State) : Prop := StrobesIdle s ∧ s.drv.lvl.rst = some .H

/-- R24-R30, R85: what the fields of a reader have to do with each other. -/
structure Reader.Consistent (r : Reader) : Prop where
  variant_of_tag : variantOf r.header.mbcType = some r.variant
  declared_of_header : r.declared = if r.variant = .romOnly then Config.romOnlySize else r.header.romSize
  linear_le : r.linear ≤ r.declared
  bank_lt : r.bank.toNat < 2 ^ bankWidth r.variant
  mbc1_skips : r.variant = .mbc1 → r.bank ≠ 0x20#9 ∧ r.bank ≠ 0x40#9 ∧ r.bank ≠ 0x60#9

/-- R20-R32, R40: what the phases, the window, the reader and the fault have to do with each other. -/
structure Consistent (s : State) : Prop where
  pre_init : s.ses.phase = .preInit → s.drv.phase = .unowned ∧ s.rdr = none ∧ s.ses.fault = none
  header_phase : s.ses.phase = .headerPhase → s.drv.phase = .ready ∧ s.rdr = none ∧ s.ses.fault = none
  streaming : s.ses.phase = .streaming → s.drv.phase = .ready ∧ s.rdr.isSome = true ∧ s.ses.fault = none
  torn_down : s.drv.phase = .tornDown → s.ses.phase = .ended
  window : s.win.pos ≤ Config.hdrEnd
  reader : ∀ r, s.rdr = some r → r.Consistent
  rst_high : s.drv.phase ≠ .unowned → s.drv.lvl.rst = some .H

/-- R19, R102: where the direction cache holds Output, the expander drives the data bus. -/
abbrev OutputDriven (s : State) : Prop := s.drv.dir = some .output → s.exp.iodir = s.world.params.dirOut

/-- R16, R17, R35: the caches and the expander's registers say what the trace says. -/
structure TraceHonest (s : State) : Prop where
  levels : ∀ ln, s.drv.lvl.get ln = lastLine s.trace ln
  address : s.drv.addr = lastAddr s.trace
  iodir : ∀ v, lastWritten s.trace s.world.expDev Config.regIodir = some v → s.exp.iodir = v
  iocon : ∀ v, lastWritten s.trace s.world.expDev Config.regIocon = some v → s.exp.iocon = v
  gpio : ∀ v, lastWritten s.trace s.world.expDev Config.regGpio = some v → s.exp.gpio = v

/-- R145, R146: while the session streams, the bank counter is the one that the stream position has reached. -/
def BankTracksStream (s : State) : Prop :=
  s.ses.phase = .streaming → ∀ r, s.rdr = some r → r.bank = bankAfter r.variant (crossings r.linear)

/-- R103: at every point of the trace where RD has been driven to L, the last completed direction frame carried
DIR_IN. -/
def NoContention (d : BitVec 3) (p : Params) (tr : List Event) : Prop :=
  ∀ q, q <+: tr → lastLine q .rd = some .L → lastWritten q d Config.regIodir = some p.dirIn

/-- R19, R39, R103: what holds between operations of a session in which the caller issues no micro-operation. -/
structure SessionSafe (s : State) : Prop where
  honest : TraceHonest s
  idle : s.transferring = true → StrobesIdle s
  direction : s.transferring = true →
    ∃ d, s.drv.dir = some d ∧ lastWritten s.trace s.world.expDev Config.regIodir = some (directionByte s.world.params d)
  no_contention : NoContention s.world.expDev s.world.params s.trace

/-- R37, R47: the bus addresses of the bank-select registers. -/
def bankSelects : List Addr := [Config.selLow, Config.selMbc2, Config.selMbc5High, Config.selMbc1High]

/-- R47, R84: what such a session ever drives, sends and writes. Every WR pulse finds a bank-select register's address on
the address lines. -/
structure Confined (s : State) : Prop where
  addresses : ∀ a, Event.addr a ∈ s.trace → a.toNat < 0x8000
  frames : ∀ t0 t1 t2 r0 r1 r2, Event.spi t0 t1 t2 r0 r1 r2 ∈ s.trace → EngineFrame s.world.expDev s.world.params t0 t1 t2
  failed_frames : ∀ t0 t1 t2, Event.spiFail t0 t1 t2 ∈ s.trace → EngineFrame s.world.expDev s.world.params t0 t1 t2
  strobes : ∀ q, q ++ [Event.line .wr .L] <+: s.trace → ∃ a ∈ bankSelects, lastAddr q = some a
  written : ∀ c ∈ s.cart, c.1 = 0x2000 ∨ c.1 = 0x2100 ∨ c.1 = 0x3000 ∨ c.1 = 0x4000

end Sys2Proof.Machine
end

