-- ==== Sys2Proof/Certificates/Slice0/Obligations.lean ====
section
/-! DEFINITION. The statements for the provers. -/

open Sys2Proof Sys2Proof.Machine

/-! ## Encoding (R67-R88) -/

/-- R82, R67-R80: decoding what the encoder writes for a well-formed instruction gives the instruction back, with every
operand at every value, whatever reader there is; a bank-select row under its own variant (R86, log 11). -/
def Obligations.DecodeOfEncodeIsTheInstruction : Prop :=
  ∀ i, Sys2Proof.Laws.DecodeEncode.Statement i

/-- R82, R84, R86: no bit of a call is dropped: a call that decodes is what the encoder writes for its instruction, and
the instruction's operands are in range. -/
def Obligations.EncodeOfDecodeIsTheCall : Prop :=
  ∀ (v : Option Variant) (c : Call) (i : Instr), decode v c = .ok i → encode i = c ∧ i.operandsOk = true

/-- Words written out from R72 (95_test_vectors.md V-F2: every frame with d = 0 and with d = 5) and R75, R78, R80, and
calls as the programs of 95_test_vectors.md write them, decode to the instructions they stand for. That Start is the
integer 0 is the model's choice (log 10), and so is that a code and a frame of no row are refused by these names
(log 20). -/
def Obligations.WordsOfTheSpecDecode : Prop :=
  decode none (.frame 0x400520#24) = .ok (.expWrIocon 0 0x20#8) ∧
  decode none (.frame 0x4000FF#24) = .ok (.expWrIodir 0 0xFF#8) ∧
  decode none (.frame 0x400000#24) = .ok (.expWrIodir 0 0x00#8) ∧
  decode none (.frame 0x40095A#24) = .ok (.expWrGpio 0 0x5A#8) ∧
  decode none (.frame 0x410900#24) = .ok (.expRdGpio 0 0x00#8) ∧
  decode none (.frame 0x4A0520#24) = .ok (.expWrIocon 5 0x20#8) ∧
  decode none (.frame 0x4A00FF#24) = .ok (.expWrIodir 5 0xFF#8) ∧
  decode none (.frame 0x4A0000#24) = .ok (.expWrIodir 5 0x00#8) ∧
  decode none (.frame 0x4A095A#24) = .ok (.expWrGpio 5 0x5A#8) ∧
  decode none (.frame 0x4B0900#24) = .ok (.expRdGpio 5 0x00#8) ∧
  decode (some .mbc1) (.busWrite 0x200001#24) = .ok (.buswMbc1SelLo 1) ∧
  decode (some .mbc3) (.busWrite 0x200001#24) = .ok (.buswMbc3Sel 1) ∧
  decode (some .mbc5) (.busWrite 0x300001#24) = .ok (.buswMbc5SelHi 1) ∧
  decode none (.busRead 0x0147#16) = .ok (.busr 0x0147#16) ∧
  decode none (.op 0x21#8 [0, 0x14F]) = .ok (.hwSeek .start 0x14F) ∧
  decode none (.op 0x40#8 [0x3FFF]) = .ok (.rdrRead 0x3FFF) ∧
  decode none (.op 0x06#8 []) = .error .unknownCode ∧
  decode none (.frame 0x400600#24) = .error .foreignFrame

/-- R68: the command byte, bit by bit, for every device. -/
def Obligations.CommandByteBits : Prop :=
  ∀ d : BitVec 3,
    writeCommand d = (0x40#8 ||| (d.setWidth 8 <<< 1)) ∧ readCommand d = (0x41#8 ||| (d.setWidth 8 <<< 1)) ∧
    (writeCommand d).extractLsb' 4 4 = 0b0100#4 ∧ (writeCommand d).extractLsb' 1 3 = d ∧
    (writeCommand d).extractLsb' 0 1 = 0#1 ∧
    (readCommand d).extractLsb' 4 4 = 0b0100#4 ∧ (readCommand d).extractLsb' 1 3 = d ∧
    (readCommand d).extractLsb' 0 1 = 1#1

/-! ## Step and reset -/

/-- A step runs the decoded call: it takes the call off the caller's list and is `exec` of its instruction. (How a call
reaches the engine is the model's own form, log 9.) -/
def Obligations.StepRunsTheDecodedCall : Prop :=
  ∀ (s : State) (c : Call) (rest : List Call) (i : Instr),
    s.caller.calls = c :: rest → decode s.variant c = .ok i →
      step s = exec i { s with caller := { s.caller with calls := rest } }

/-- R165: with no call the engine sits idle and nothing changes; a call that is no operation of R82 and no word of the
table is refused by name (the model's choice, log 20). -/
def Obligations.StepIdlesWithoutACallAndRefusesWhatDoesNotDecode : Prop :=
  ∀ s : State,
    (s.caller.calls = [] → step s = .next s) ∧
    (∀ c rest e, s.caller.calls = c :: rest → decode s.variant c = .error e → step s = .refused (.undecodable e))

/-- R13, R162: every instruction, in every state, ends in a next state: a result, an error or a refusal that is
returned to the caller. -/
def Obligations.EveryInstructionEndsInANextState : Prop :=
  ∀ (i : Instr) (s : State), ∃ t r, exec i s = .next t ∧ t.caller.returned = s.caller.returned ++ [r]

/-- R41, R42: the state immediately after BD.INIT, and the state before it. -/
def Obligations.ResetAndPowerOnHoldTheSpecsValues : Prop :=
  (State.reset.drv.phase = .ready ∧
    State.reset.drv.lvl = { rd := some .H, wr := some .H, cs := some .H, rst := some .H } ∧
    State.reset.drv.dir = some .input ∧ State.reset.drv.addr = none ∧
    State.reset.exp.iocon = Config.ioconInit ∧ State.reset.exp.iodir = Config.dirIn ∧
    State.reset.ses.phase = .headerPhase ∧ State.reset.ses.fault = none ∧
    State.reset.win.pos = 0 ∧ State.reset.rdr = none) ∧
  State.powerOn.drv.phase = .unowned ∧
  State.powerOn.drv.lvl = { rd := none, wr := none, cs := none, rst := none } ∧
  State.powerOn.drv.dir = none ∧ State.powerOn.drv.addr = none ∧
  State.powerOn.ses.phase = .preInit ∧ State.powerOn.ses.fault = none ∧ State.powerOn.trace = []

/-- R169, R170: the reset state is what BD.INIT, its two frames answered with any bytes the free values name, makes of
the state before it. (The trace, the caller's list and register 0x09 are the model's choices, log 2 and log 3.) -/
def Obligations.ResetIsWhatInitMakesOfPowerOn : Prop :=
  exec .bdInit { State.powerOn with
      world := { State.powerOn.world with
        link := [.answered (Config.xferByte 0) (Config.xferByte 1) (Config.xferByte 2),
                 .answered (Config.xferByte 3) (Config.xferByte 4) (Config.xferByte 5)] } } =
    .next State.reset

/-! ## The bus driver (R89-R99) -/

/-- R95: BD.INIT, both frames answered: the four lines high, the two frames, direction Input, driver Ready, session in
HeaderPhase, window at 0; nothing else changes. -/
def Obligations.InitDrivesTheLinesAndConfiguresTheExpander : Prop :=
  ∀ (s : State) (q0 q1 q2 r0 r1 r2 : Byte),
    admits .init s = true → s.world.answer = .answered q0 q1 q2 → s.world.advance.answer = .answered r0 r1 r2 →
    exec .bdInit s = .next
      ({ s with
        drv := { addr := s.drv.addr, lvl := { rd := some Level.H, wr := some Level.H, cs := some Level.H, rst := some Level.H },
                 dir := some .input, phase := .ready }
        win := { pos := 0 }
        ses := { s.ses with phase := .headerPhase }
        trace := s.trace ++
          [Event.line .rd .H, Event.line .wr .H, Event.line .cs .H, Event.line .rst .H,
           Event.spi (writeCommand s.world.expDev) Config.regIocon s.world.params.ioconInit q0 q1 q2,
           Event.spi (writeCommand s.world.expDev) Config.regIodir s.world.params.dirIn r0 r1 r2]
        exp := { s.exp with iodir := s.world.params.dirIn, iocon := s.world.params.ioconInit }
        world := s.world.advance.advance }.returning (.ok .unit))

/-- R95, R158, R161: a BD.INIT whose first or second frame fails stops there, with the lines high, the driver still
Unowned and its direction cache unwritten, and the session ended with BusCommunicationError(Init). (The expander's register on a
failed frame: log 17.) -/
def Obligations.InitStopsAtAFailedFrame : Prop :=
  ∀ s : State, admits .init s = true →
    let lines := [Event.line .rd .H, Event.line .wr .H, Event.line .cs .H, Event.line .rst .H]
    let drv := { s.drv with lvl := { rd := some Level.H, wr := some Level.H, cs := some Level.H, rst := some Level.H } }
    (s.world.answer = .failed → exec .bdInit s = .next
      (({ s with
        drv := drv
        trace := s.trace ++ lines ++ [Event.spiFail (writeCommand s.world.expDev) Config.regIocon s.world.params.ioconInit]
        world := s.world.advance }.faulted (.busCommunication .init)).returning (.err (.busCommunication .init)))) ∧
    (∀ q0 q1 q2, s.world.answer = .answered q0 q1 q2 → s.world.advance.answer = .failed → exec .bdInit s = .next
      (({ s with
        drv := drv
        trace := s.trace ++ lines ++
          [Event.spi (writeCommand s.world.expDev) Config.regIocon s.world.params.ioconInit q0 q1 q2,
           Event.spiFail (writeCommand s.world.expDev) Config.regIodir s.world.params.dirIn]
        exp := { s.exp with iocon := s.world.params.ioconInit }
        world := s.world.advance.advance }.faulted (.busCommunication .init)).returning
          (.err (.busCommunication .init))))

/-- R96: BD.SET_ADDRESS drives all lines with one ADDR event, whatever was driven before; nothing else changes. -/
def Obligations.SetAddressAlwaysDrivesTheLines : Prop :=
  ∀ (s : State) (a : Addr), admits .transfer s = true →
    exec (.bdSetAddress a) s = .next ((s.addressed a).returning (.ok .unit))

/-- R91: BD.SET_DIR emits nothing when the direction is cached; otherwise one direction frame, and then the cache holds
the new direction. -/
def Obligations.SetDirSendsAFrameOnlyOnATransition : Prop :=
  ∀ (s : State) (d : DataDirection), admits .transfer s = true →
    (s.drv.dir = some d → exec (.bdSetDir d) s = .next (s.returning (.ok .unit))) ∧
    (∀ r0 r1 r2, s.drv.dir ≠ some d → s.world.answer = .answered r0 r1 r2 →
      exec (.bdSetDir d) s = .next ((s.turned d r0 r1 r2).returning (.ok .unit)))

/-- R91, R158: after a failed direction frame the cache keeps its old value and the session has ended. (Which context is
recorded for a directly issued BD.SET_DIR is a free value, log 12; the expander's register on a failed frame: log 17.) -/
def Obligations.SetDirKeepsTheCacheWhenItsFrameFails : Prop :=
  ∀ (s : State) (d : DataDirection), admits .transfer s = true → s.drv.dir ≠ some d → s.world.answer = .failed →
    exec (.bdSetDir d) s = .next
      (({ s with
        trace := s.trace ++ [Event.spiFail (writeCommand s.world.expDev) Config.regIodir (directionByte s.world.params d)]
        world := s.world.advance }.faulted (.busCommunication (directContext s))).returning
          (.err (.busCommunication (directContext s))))

/-- R92, R93, R101: BD.SET_RD and BD.SET_CS emit a LINE event and its settle wait (4 and 3 microseconds) exactly when
the cached level differs, and leave the level in the cache. -/
def Obligations.StrobeLevelsAreCoalesced : Prop :=
  ∀ (s : State) (l : Level), admits .transfer s = true →
    exec (.bdSetRd l) s = .next
      ({ s with
        drv := { s.drv with lvl := { s.drv.lvl with rd := some l } }
        trace := s.trace ++ if s.drv.lvl.rd = some l then [] else [Event.line .rd l, Event.wait 4] }.returning (.ok .unit)) ∧
    exec (.bdSetCs l) s = .next
      ({ s with
        drv := { s.drv with lvl := { s.drv.lvl with cs := some l } }
        trace := s.trace ++ if s.drv.lvl.cs = some l then [] else [Event.line .cs l, Event.wait 3] }.returning (.ok .unit))

/-- R94: BD.PULSE_WR emits WAIT(1); LINE(WR, L), unless the cache already holds L; WAIT(T_WR_LOW), where that is not 0;
LINE(WR, H); WAIT(5). The cartridge, when it is selected, takes the byte on the data lines at the address on the address
lines at WR's rising edge; otherwise it takes nothing. The data lines carry the expander's register 0x09 where the
expander drives them and the cartridge does not (RD not at L), and a free value otherwise (log 14). -/
def Obligations.PulseWrWritesWhenTheCartridgeIsSelected : Prop :=
  ∀ (s : State), admits .transfer s = true →
    let strobe := s.trace ++ [Event.wait 1] ++
      (if s.drv.lvl.wr = some Level.L then [] else [Event.line .wr .L]) ++
      (if 0 < s.world.params.tWrLow then [Event.wait s.world.params.tWrLow] else []) ++ [Event.line .wr .H]
    exec .bdPulseWr s = .next
      ({ s with
        drv := { s.drv with lvl := { s.drv.lvl with wr := some .H } }
        trace := strobe ++ [Event.wait 5]
        cart :=
          if s.drv.lvl.cs = some Level.L then
            Memory.write s.cart (s.drv.addr.getD (Config.undrivenAddr strobe.length)).toNat
              (if s.exp.iodir = s.world.params.dirOut ∧ s.drv.lvl.rd ≠ some Level.L then s.exp.gpio
               else Config.undrivenData strobe.length)
          else s.cart }.returning (.ok .unit))

/-- R69, R72, R89: EXP.WRITE and the three write frames, where they are admitted (R34; for a frame word also R84, log 8):
one exchange with the device EXP_DEV, its received bytes ignored; the expander's register is written (log 17); nothing
else changes. -/
def Obligations.WriteFramesAreExchangedOnce : Prop :=
  ∀ (i : Instr) (s : State) (d : BitVec 3) (r v r0 r1 r2 : Byte),
    writeFrameOf s.world.expDev i = some (d, r, v) → admitted i s = true →
    s.world.answer = .answered r0 r1 r2 →
    exec i s = .next
      ({ s with
        trace := s.trace ++ [Event.spi (writeCommand s.world.expDev) r v r0 r1 r2]
        exp :=
          if r = 0x00#8 then { s.exp with iodir := v }
          else if r = 0x05#8 then { s.exp with iocon := v }
          else if r = 0x09#8 then { s.exp with gpio := v }
          else s.exp
        world := s.world.advance }.returning (.ok .unit))

/-- R70, R72, R90: EXP.READ and the read frame, where they are admitted: one exchange with the device EXP_DEV, whose third
byte sent is DONT_CARE whatever the frame word carries there (log 8); the result is the third received byte, the other
two are ignored; nothing else changes. -/
def Obligations.ReadFramesReturnTheThirdByte : Prop :=
  ∀ (i : Instr) (s : State) (d : BitVec 3) (r x r0 r1 r2 : Byte),
    readFrameOf s.world.expDev i = some (d, r, x) → admitted i s = true →
    s.world.answer = .answered r0 r1 r2 →
    exec i s = .next
      ({ s with
        trace := s.trace ++ [Event.spi (readCommand s.world.expDev) r x r0 r1 r2]
        world := s.world.advance }.returning (.ok (.byte r2)))

/-- R12, R152, R158, R159: an exchange of EXP.WRITE, EXP.READ or one of the four frames that fails is one failed frame
in the trace; no register changes (log 17), the error goes to the caller and ends the session. -/
def Obligations.FailedFramesEndTheSession : Prop :=
  ∀ (i : Instr) (s : State) (d : BitVec 3) (r v : Byte), s.world.answer = .failed →
    (writeFrameOf s.world.expDev i = some (d, r, v) → admitted i s = true →
      ∃ ctx, exec i s = .next
        (({ s with trace := s.trace ++ [Event.spiFail (writeCommand s.world.expDev) r v], world := s.world.advance }.faulted
          (.busCommunication ctx)).returning (.err (.busCommunication ctx)))) ∧
    (readFrameOf s.world.expDev i = some (d, r, v) → admitted i s = true →
      ∃ ctx, exec i s = .next
        (({ s with trace := s.trace ++ [Event.spiFail (readCommand s.world.expDev) r v], world := s.world.advance }.faulted
          (.busCommunication ctx)).returning (.err (.busCommunication ctx))))

/-- R97, R105, R108: BD.READ_BYTE, and BUS.READ a and BUSR a, which drive the address first: the direction turned to
Input if it was not, then the nine-event segment (shorter where a strobe was already low); the result is the sampled
byte; nothing else changes. -/
def Obligations.ReadCyclesReturnTheSampledByte : Prop :=
  ∀ (s t : State) (b : Byte), admits .transfer s = true →
    (ReadCompletes s b t → exec .bdReadByte s = .next (t.returning (.ok (.byte b)))) ∧
    (∀ i a, busReadOf i = some a → ReadCompletes (s.addressed a) b t →
      exec i s = .next (t.returning (.ok (.byte b))))

/-- R98, R106, R109, R74-R80: BD.WRITE_BYTE, and BUS.WRITE and the six bank-select writes, which drive the address
first: the direction turned to Output if it was not, then the write segment; nothing else changes. -/
def Obligations.WriteCyclesPulseWrOnce : Prop :=
  ∀ (s t : State) (v : Byte),
    (admits .transfer s = true → WriteCompletes s v t → exec (.bdWriteByte v) s = .next (t.returning (.ok .unit))) ∧
    (∀ i a, busWriteOf i = some (a, v) → admits .bankSelect s = true → WriteCompletes (s.addressed a) v t →
      exec i s = .next (t.returning (.ok .unit)))

/-- R105, R106: from idle lines, the segments event by event: 4 LINE, 4 WAIT and 1 SPI for a read, and for a write
LINE(CS, L), WAIT(3), SPI, WAIT(1), LINE(WR, L), LINE(WR, H), WAIT(5), LINE(CS, H), WAIT(3); each preceded by one
direction frame where the direction was the other one. (Between the edges of WR stands WAIT(T_WR_LOW) where that
parameter is not 0, R94.) -/
def Obligations.SteadyStateSegmentsEventByEvent : Prop :=
  ∀ (s : State) (v r0 r1 r2 x0 x1 x2 : Byte), admits .transfer s = true → StrobesIdle s →
    let d := s.world.expDev
    let read := [Event.line .rd .L, Event.wait 4, Event.line .cs .L, Event.wait 3,
      Event.spi (readCommand d) 0x09#8 0x00#8 r0 r1 r2,
      Event.line .rd .H, Event.wait 4, Event.line .cs .H, Event.wait 3]
    let write := [Event.line .cs .L, Event.wait 3, Event.spi (writeCommand d) 0x09#8 v r0 r1 r2, Event.wait 1,
      Event.line .wr .L] ++ (if 0 < s.world.params.tWrLow then [Event.wait s.world.params.tWrLow] else []) ++
      [Event.line .wr .H, Event.wait 5, Event.line .cs .H, Event.wait 3]
    let turn := fun dir => Event.spi (writeCommand d) 0x00#8 dir x0 x1 x2
    (s.drv.dir = some .input → s.world.answer = .answered r0 r1 r2 →
      ∃ t, exec .bdReadByte s = .next t ∧ t.trace = s.trace ++ read) ∧
    (s.drv.dir = some .output → s.world.answer = .answered x0 x1 x2 → s.world.advance.answer = .answered r0 r1 r2 →
      ∃ t, exec .bdReadByte s = .next t ∧ t.trace = s.trace ++ [turn s.world.params.dirIn] ++ read) ∧
    (s.drv.dir = some .output → s.world.answer = .answered r0 r1 r2 →
      ∃ t, exec (.bdWriteByte v) s = .next t ∧ t.trace = s.trace ++ write) ∧
    (s.drv.dir = some .input → s.world.answer = .answered x0 x1 x2 → s.world.advance.answer = .answered r0 r1 r2 →
      ∃ t, exec (.bdWriteByte v) s = .next t ∧ t.trace = s.trace ++ [turn s.world.params.dirOut] ++ write)

/-- R97, R108, R159: BD.READ_BYTE, and BUS.READ a and BUSR a, which drive the address first, with an exchange that fails:
at the direction frame, at the data frame, or at the data frame after an answered direction frame. The state they leave
is given in full: the session ended, nothing after the failed frame. From idle lines, a failed data frame leaves RD and
CS at L, and a failed direction frame has driven no line. (The context of a directly issued read is a free value,
log 12; the expander's register on a failed frame: log 17.) -/
def Obligations.FailedReadLeavesTheStrobesLow : Prop :=
  ∀ s : State, admits .transfer s = true →
    (∀ t, ReadFails (directContext s) s t →
      exec .bdReadByte s = .next (t.returning (.err (.busCommunication (directContext s))))) ∧
    (∀ i a t, busReadOf i = some a → ReadFails (directContext s) (s.addressed a) t →
      exec i s = .next (t.returning (.err (.busCommunication (directContext s))))) ∧
    (s.world.answer = .failed → StrobesIdle s →
      ∃ ctx t, exec .bdReadByte s = .next t ∧ t.ses = { phase := .ended, fault := some (.busCommunication ctx) } ∧
        t.caller.returned = s.caller.returned ++ [.err (.busCommunication ctx)] ∧ t.cart = s.cart ∧ t.exp = s.exp ∧
        (s.drv.dir = some .input →
          t.drv = { s.drv with lvl := { s.drv.lvl with rd := some Level.L, cs := some Level.L } } ∧
          t.trace = s.trace ++ [Event.line .rd .L, Event.wait 4, Event.line .cs .L, Event.wait 3,
            Event.spiFail (readCommand s.world.expDev) 0x09#8 0x00#8]) ∧
        (s.drv.dir ≠ some .input →
          t.drv = s.drv ∧
          t.trace = s.trace ++ [Event.spiFail (writeCommand s.world.expDev) 0x00#8 s.world.params.dirIn])) ∧
    (∀ x0 x1 x2, s.drv.dir ≠ some .input → s.world.answer = .answered x0 x1 x2 → s.world.advance.answer = .failed →
      StrobesIdle s →
      ∃ ctx t, exec .bdReadByte s = .next t ∧ t.ses = { phase := .ended, fault := some (.busCommunication ctx) } ∧
        t.drv = { s.drv with dir := some .input, lvl := { s.drv.lvl with rd := some Level.L, cs := some Level.L } } ∧
        t.trace = s.trace ++ [Event.spi (writeCommand s.world.expDev) 0x00#8 s.world.params.dirIn x0 x1 x2,
          Event.line .rd .L, Event.wait 4, Event.line .cs .L, Event.wait 3,
          Event.spiFail (readCommand s.world.expDev) 0x09#8 0x00#8])

/-- R98, R109, R159: BD.WRITE_BYTE v, and BUS.WRITE and the six bank-select writes, which drive the address first, with
an exchange that fails: at the direction frame, at the data frame, or at the data frame after an answered direction
frame (95_test_vectors.md V-B11). The state they leave is given in full: the session ended, nothing after the failed
frame. From idle lines, a failed data frame leaves CS at L and WR not pulsed, so that the cartridge has taken nothing,
and a failed direction frame has driven no line. (The context of a directly issued write is a free value, log 12; the
expander's register on a failed frame: log 17.) -/
def Obligations.FailedWriteLeavesChipSelectLowAndWrUnpulsed : Prop :=
  ∀ (s : State) (v : Byte), admits .transfer s = true →
    (∀ t, WriteFails (directContext s) s v t →
      exec (.bdWriteByte v) s = .next (t.returning (.err (.busCommunication (directContext s))))) ∧
    (∀ i a t, busWriteOf i = some (a, v) → admits .bankSelect s = true → WriteFails (directContext s) (s.addressed a) v t →
      exec i s = .next (t.returning (.err (.busCommunication (directContext s))))) ∧
    (s.world.answer = .failed → StrobesIdle s →
      ∃ ctx t, exec (.bdWriteByte v) s = .next t ∧ t.ses = { phase := .ended, fault := some (.busCommunication ctx) } ∧
        t.caller.returned = s.caller.returned ++ [.err (.busCommunication ctx)] ∧ t.cart = s.cart ∧ t.exp = s.exp ∧
        (s.drv.dir = some .output →
          t.drv = { s.drv with lvl := { s.drv.lvl with cs := some Level.L } } ∧
          t.trace = s.trace ++ [Event.line .cs .L, Event.wait 3, Event.spiFail (writeCommand s.world.expDev) 0x09#8 v]) ∧
        (s.drv.dir ≠ some .output →
          t.drv = s.drv ∧
          t.trace = s.trace ++ [Event.spiFail (writeCommand s.world.expDev) 0x00#8 s.world.params.dirOut])) ∧
    (∀ x0 x1 x2, s.drv.dir ≠ some .output → s.world.answer = .answered x0 x1 x2 → s.world.advance.answer = .failed →
      StrobesIdle s →
      ∃ ctx t, exec (.bdWriteByte v) s = .next t ∧ t.ses = { phase := .ended, fault := some (.busCommunication ctx) } ∧
        t.cart = s.cart ∧
        t.drv = { s.drv with dir := some .output, lvl := { s.drv.lvl with cs := some Level.L } } ∧
        t.trace = s.trace ++ [Event.spi (writeCommand s.world.expDev) 0x00#8 s.world.params.dirOut x0 x1 x2,
          Event.line .cs .L, Event.wait 3, Event.spiFail (writeCommand s.world.expDev) 0x09#8 v])

/-- R99, R186: BD.TEARDOWN drives RD, WR, CS and RST to H in this order, whatever the cache holds, and ends the session;
the direction, the address, the fault and everything else are unchanged. The last LINE event of every control line of
the whole trace is then LINE(s, H). -/
def Obligations.TeardownReturnsEveryLineToIdle : Prop :=
  ∀ s : State, s.drv.phase ≠ .tornDown →
    let lines := [Event.line .rd .H, Event.line .wr .H, Event.line .cs .H, Event.line .rst .H]
    exec .bdTeardown s = .next
      ({ s with
        drv := { s.drv with lvl := { rd := some .H, wr := some .H, cs := some .H, rst := some .H }, phase := .tornDown }
        ses := { s.ses with phase := .ended }
        trace := s.trace ++ lines }.returning (.ok .unit)) ∧
    ∀ ln, lastLine (s.trace ++ lines) ln = some Level.H

/-- R55, R74, R109: what BUS.WRITE a, v, the bank-select writes and BD.WRITE_BYTE at a driven address store. Where the
operation is admitted and completes and the expander drives the bus for a cached Output, the byte at the address is v;
completed, failed or refused, every other bus address reads as before. (That memory holds the byte last written, in a
canonical form, is log 14.) -/
def Obligations.BusWritesStoreAtTheirAddressOnly : Prop :=
  ∀ (i : Instr) (a : Addr) (v : Byte) (s t : State),
    (busWriteOf i = some (a, v) ∨ i = .bdWriteByte v ∧ s.drv.addr = some a) → exec i s = .next t →
    (∀ b : Nat, b ≠ a.toNat → Memory.read t.cart b = Memory.read s.cart b) ∧
    (admitted i s = true → t.ses.fault = none → s.ses.fault = none → OutputDriven s → Memory.wf s.cart = true →
      Memory.read t.cart a.toNat = v)

/-! ## The Header Window and the Dispatcher (R113-R126) -/

/-- R114, R115: HW.READ from idle lines with the direction Input, every exchange answered: it reads the bytes at the
next min(n, 0x150 - pos) bus addresses, each with its own ADDR event, moves the position past them and returns them;
nothing else changes. -/
def Obligations.HwReadReturnsTheWindowsBytes : Prop :=
  ∀ (s : State) (n : Nat) (rs : List (Byte × Byte × Byte)),
    s.ses.phase = .headerPhase → StrobesIdle s → s.drv.dir = some .input →
    rs.length = min n (0x150 - s.win.pos) →
    (∀ k (h : k < rs.length), s.world.answerAt k = .answered rs[k].1 rs[k].2.1 rs[k].2.2) →
    exec (.hwRead n) s = .next
      ({ s with
        drv := { s.drv with
          addr := if rs.length = 0 then s.drv.addr else some (BitVec.ofNat 16 (s.win.pos + rs.length - 1)) }
        win := { pos := s.win.pos + rs.length }
        trace := s.trace ++ rs.zipIdx.flatMap fun (r : (Byte × Byte × Byte) × Nat) =>
          Event.addr (BitVec.ofNat 16 (s.win.pos + r.2)) ::
            readEvents s.drv.lvl s.world.expDev r.1.1 r.1.2.1 r.1.2.2
        world := World.advance^[rs.length] s.world }.returning (.ok (.bytes (rs.map fun (r : Byte × Byte × Byte) => r.2.2))))

/-- R114: whatever the lines, the direction and the answers: an HW.READ that returns bytes returns
min(n, 0x150 - pos) of them, those the data frames brought, from consecutive addresses; one that does not has failed at
an exchange with context HeaderDecode, delivers nothing, and leaves the position at the failing byte: the last address
driven is the position's, and one data frame has completed for each byte before it. -/
def Obligations.HwReadIsShortOnlyAtTheWindowsEnd : Prop :=
  ∀ (s t : State) (n : Nat), s.ses.phase = .headerPhase → exec (.hwRead n) s = .next t →
    (∃ bs, t.caller.returned = s.caller.returned ++ [.ok (.bytes bs)] ∧ bs.length = min n (0x150 - s.win.pos) ∧
      t.win.pos = s.win.pos + bs.length ∧ t.ses = s.ses ∧
      dataRead t.trace s.world.expDev = dataRead s.trace s.world.expDev ++ bs ∧
      addrsOf t.trace = addrsOf s.trace ++ (List.range' s.win.pos bs.length).map (BitVec.ofNat 16)) ∨
    (t.caller.returned = s.caller.returned ++ [.err (.busCommunication .headerDecode)] ∧
      t.ses = { phase := .ended, fault := some (.busCommunication .headerDecode) } ∧
      s.win.pos ≤ t.win.pos ∧ t.win.pos < 0x150 ∧ t.win.pos < s.win.pos + n ∧
      addrsOf t.trace = addrsOf s.trace ++
        (List.range' s.win.pos (t.win.pos + 1 - s.win.pos)).map (BitVec.ofNat 16) ∧
      ∃ bs, bs.length = t.win.pos - s.win.pos ∧
        dataRead t.trace s.world.expDev = dataRead s.trace s.world.expDev ++ bs)

/-- R116, R117, R118, R154: HW.SEEK to a target in [0, 0x150) moves the position there and returns it; any other target
is returned in an AddressRangeError that changes nothing else, so that the session goes on. No event is emitted. -/
def Obligations.HwSeekMovesWithinTheWindowOnly : Prop :=
  ∀ (s : State) (w : Whence) (off : Int), s.ses.phase = .headerPhase →
    let target := match w with
      | .start => off
      | .current => (s.win.pos : Int) + off
      | .fromEnd => 0x150 + off
    (0 ≤ target ∧ target < 0x150 →
      exec (.hwSeek w off) s =
        .next ({ s with win := { pos := target.toNat } }.returning (.ok (.position target.toNat)))) ∧
    (¬(0 ≤ target ∧ target < 0x150) →
      exec (.hwSeek w off) s = .next (s.returning (.err (.addressRange target))))

/-- R121, R122, R43, R125: DISPATCH, the decoder run over the window from position 0 and answering a header with a
reader's tag: the reader is constructed fresh, the session streams, and reader and header are returned. Apart from the
decoder's window operations nothing is emitted (R124) and nothing else changes. (The decoder's form, a tree of window
operations and answers, is the model's, log 5.) -/
def Obligations.DispatchConstructsTheReaderOfTheTag : Prop :=
  ∀ (s s1 : State) (h : RomHeader) (v : Variant), s.ses.phase = .headerPhase →
    runDecoder s.world.headerDecoder { s with win := { pos := 0 } } = .ok (.header h) s1 →
    variantOf h.mbcType = some v →
    let r : Reader := { variant := v, linear := 0, bank := 0#9,
                        declared := if v = .romOnly then 0x8000 else h.romSize, header := h }
    exec .dispatch s = .next ({ s1 with rdr := some r, ses := { s1.ses with phase := .streaming } }.returning
      (.ok (.reader r)))

/-- R123, R155, R156, R160, R158: a tag without a reader, a decoder's own failure and an address-range error that the
decoder passes up end the session in their errors; a BusCommunicationError of the decoder's reads passes unchanged. No
reader is constructed. -/
def Obligations.DispatchFailuresEndTheSession : Prop :=
  ∀ (s s1 : State), s.ses.phase = .headerPhase →
    (∀ h, runDecoder s.world.headerDecoder { s with win := { pos := 0 } } = .ok (.header h) s1 →
      variantOf h.mbcType = none →
      exec .dispatch s = .next ((s1.faulted (.unsupportedCartridge h.mbcType)).returning
        (.err (.unsupportedCartridge h.mbcType)))) ∧
    (∀ a, runDecoder s.world.headerDecoder { s with win := { pos := 0 } } = .ok a s1 →
      (a = .decodeError ∨ ∃ t, a = .addressRange t) →
      exec .dispatch s = .next ((s1.faulted .headerDecode).returning (.err .headerDecode))) ∧
    (∀ e, runDecoder s.world.headerDecoder { s with win := { pos := 0 } } = .err e s1 →
      e = .busCommunication .headerDecode ∧ s1.ses = { phase := .ended, fault := some e } ∧
      exec .dispatch s = .next (s1.returning (.err e)))

/-- R120, R23: whatever the decoder does, it stays in the window, leaves the reader, the caller and the cartridge's
registers as they were, and, if no exchange fails, the session and the driver's phase too. -/
def Obligations.HeaderDecoderOnlyReadsTheWindow : Prop :=
  ∀ (d : HeaderDecoder) (s : State), s.win.pos ≤ 0x150 →
    let t := (runDecoder d s).state
    t.win.pos ≤ 0x150 ∧ t.rdr = s.rdr ∧ t.caller = s.caller ∧ t.cart = s.cart ∧ t.drv.phase = s.drv.phase ∧
    t.drv.lvl.wr = s.drv.lvl.wr ∧ t.drv.lvl.rst = s.drv.lvl.rst ∧
    (∀ a u, runDecoder d s = .ok a u → u.ses = s.ses) ∧
    ∃ as : List Addr, addrsOf t.trace = addrsOf s.trace ++ as ∧ ∀ a ∈ as, a.toNat < 0x150

/-- R122: the table of tags. -/
def Obligations.VariantOfEveryTag : Prop :=
  variantOf .romOnly = some .romOnly ∧
  (∀ t ∈ [MbcTag.mbc1, .mbc1Ram, .mbc1RamBattery], variantOf t = some .mbc1) ∧
  (∀ t ∈ [MbcTag.mbc2, .mbc2Battery], variantOf t = some .mbc2) ∧
  (∀ n, variantOf (.mbc3Like n) = some .mbc3) ∧
  (∀ t ∈ [MbcTag.mbc5, .mbc5Ram, .mbc5RamBattery, .mbc5Rumble, .mbc5RumbleRam, .mbc5RumbleRamBattery],
    variantOf t = some .mbc5) ∧
  (∀ n, variantOf (.other n) = none)

/-! ## The readers (R127-R150) -/

/-- R81, R127, R128: the translated address of every linear address. -/
def Obligations.TranslateMapsIntoTheTwoWindows : Prop :=
  ∀ lin : Nat,
    (lin < 0x4000 → (translate lin).toNat = lin) ∧
    (0x4000 ≤ lin → (translate lin).toNat = lin % 0x4000 + 0x4000 ∧
      0x4000 ≤ (translate lin).toNat ∧ (translate lin).toNat ≤ 0x7FFF ∧ (translate lin).toNat % 0x4000 = lin % 0x4000) ∧
    (lin < 0x8000 → (translate lin).toNat = lin)

/-- R130, R131, R132: the next-bank functions on every counter in range, with MBC1's skip of 0x20, 0x40 and 0x60. -/
def Obligations.NextBankOfEachVariant : Prop :=
  ∀ b : Nat,
    (b < 256 →
      (nextBank .mbc1 (BitVec.ofNat 9 b)).toNat =
        (if b = 0x1F ∨ b = 0x3F ∨ b = 0x5F then b + 2 else (b + 1) % 256) ∧
      (nextBank .mbc2 (BitVec.ofNat 9 b)).toNat = (b + 1) % 256 ∧
      (nextBank .mbc3 (BitVec.ofNat 9 b)).toNat = (b + 1) % 256) ∧
    (b < 512 → (nextBank .mbc5 (BitVec.ofNat 9 b)).toNat = (b + 1) % 512)

/-- R145: the bank counter of MBC2, MBC3 and MBC5 after k switches is k modulo 2^w. -/
def Obligations.BankAfterSwitchesCountsModuloTheWidth : Prop :=
  ∀ k : Nat,
    (bankAfter .mbc2 k).toNat = k % 256 ∧ (bankAfter .mbc3 k).toNat = k % 256 ∧ (bankAfter .mbc5 k).toNat = k % 512

/-- R146: the closed form of MBC1's counter up to k = 252, its wrap at 253, and its period. -/
def Obligations.Mbc1BankAfterSwitchesSkipsThree : Prop :=
  (∀ k : Nat, k ≤ 252 → (bankAfter .mbc1 k).toNat =
    if k ≤ 31 then k else if k ≤ 62 then k + 1 else if k ≤ 93 then k + 2 else k + 3) ∧
  ∀ k : Nat, bankAfter .mbc1 (k + 253) = bankAfter .mbc1 k

/-- R133, R134, R135, R136: the bank-select sequences, every exchange answered: the bus writes of the variant, the low
register first, and nothing else. -/
def Obligations.BankSelectSequencesWriteTheirRegisters : Prop :=
  ∀ s t u : State, admits .bankSelect s = true →
    (∀ b : BitVec 8, WriteCompletes (s.addressed 0x2000#16) ((b.extractLsb' 0 5).setWidth 8) t →
      WriteCompletes (t.addressed 0x4000#16) ((b.extractLsb' 5 2).setWidth 8) u →
      exec (.bankselMbc1 b) s = .next (u.returning (.ok .unit))) ∧
    (∀ b : BitVec 8, WriteCompletes (s.addressed 0x2100#16) ((b.extractLsb' 0 4).setWidth 8) t →
      exec (.bankselMbc2 b) s = .next (t.returning (.ok .unit))) ∧
    (∀ b : BitVec 8, WriteCompletes (s.addressed 0x2000#16) b t →
      exec (.bankselMbc3 b) s = .next (t.returning (.ok .unit))) ∧
    (∀ b : BitVec 9, WriteCompletes (s.addressed 0x2000#16) (b.extractLsb' 0 8) t →
      WriteCompletes (t.addressed 0x3000#16) ((b.extractLsb' 8 1).setWidth 8) u →
      exec (.bankselMbc5 b) s = .next (u.returning (.ok .unit)))

/-- R133-R136, R149, R153, R158: a bank-select sequence that fails, with context BankSelect, in full. Its first write
fails, at its direction frame, at its data frame, or at its data frame after an answered direction frame
(95_test_vectors.md V-N7): the second write is not issued. Or its first write completes and its second fails. In
particular, where the first exchange of MBC1's or MBC5's sequence fails, only 0x2000 has been driven and the cartridge
has taken nothing. (The state is given in full, so it says that a failed frame leaves the expander's registers as they
were: that is deduced, log 17. What a completed first write stores in the cartridge is log 14, and that BANKSEL.* is
admitted in Streaming only is log 13.) -/
def Obligations.BankSelectStopsAtItsFirstFailedWrite : Prop :=
  ∀ s : State, admits .bankSelect s = true →
    let fails := fun (i : Instr) (t : State) => exec i s = .next (t.returning (.err (.busCommunication .bankSelect)))
    (∀ t (b : BitVec 8), WriteFails .bankSelect (s.addressed 0x2000#16) ((b.extractLsb' 0 5).setWidth 8) t →
      fails (.bankselMbc1 b) t) ∧
    (∀ t u (b : BitVec 8), WriteCompletes (s.addressed 0x2000#16) ((b.extractLsb' 0 5).setWidth 8) t →
      WriteFails .bankSelect (t.addressed 0x4000#16) ((b.extractLsb' 5 2).setWidth 8) u → fails (.bankselMbc1 b) u) ∧
    (∀ t (b : BitVec 8), WriteFails .bankSelect (s.addressed 0x2100#16) ((b.extractLsb' 0 4).setWidth 8) t →
      fails (.bankselMbc2 b) t) ∧
    (∀ t (b : BitVec 8), WriteFails .bankSelect (s.addressed 0x2000#16) b t → fails (.bankselMbc3 b) t) ∧
    (∀ t (b : BitVec 9), WriteFails .bankSelect (s.addressed 0x2000#16) (b.extractLsb' 0 8) t →
      fails (.bankselMbc5 b) t) ∧
    (∀ t u (b : BitVec 9), WriteCompletes (s.addressed 0x2000#16) (b.extractLsb' 0 8) t →
      WriteFails .bankSelect (t.addressed 0x3000#16) ((b.extractLsb' 8 1).setWidth 8) u → fails (.bankselMbc5 b) u) ∧
    (s.world.answer = .failed →
      ∀ i, ((∃ b, i = Instr.bankselMbc1 b) ∨ (∃ b, i = Instr.bankselMbc5 b)) →
        ∃ t, exec i s = .next t ∧ t.ses = { phase := .ended, fault := some (.busCommunication .bankSelect) } ∧
          t.caller.returned = s.caller.returned ++ [.err (.busCommunication .bankSelect)] ∧
          addrsOf t.trace = addrsOf s.trace ++ [0x2000#16] ∧ t.cart = s.cart ∧ t.drv.addr = some 0x2000#16)

/-- R139, R140, R141, R148: RDR.READ n with enough exchanges answered (five for a byte are always enough) returns the
next min(n, declared - linear) bytes, which are those the data frames brought; the position moves past them, the bank
counter takes one step at each boundary, and the bus addresses driven are, byte by byte, the bank-select registers at a
boundary and then the translated address. The bytes that the write frames carry are, in order, the bank-select fields of
the counter as each boundary has stepped it (R130, R37). Where the expander drives the bus for a cached Output, the
cartridge has taken exactly these writes (log 14), so that after a boundary its registers hold the fields of the counter
that the read leaves. The window, the session, the driver's phase and RST are unchanged. -/
def Obligations.RdrReadDeliversTheNextBytes : Prop :=
  ∀ (s : State) (r : Reader) (n : Nat), s.ses.phase = .streaming → s.rdr = some r →
    (∀ k, k < 5 * n → ∃ r0 r1 r2, s.world.answerAt k = .answered r0 r1 r2) →
    ∃ t bs, exec (.rdrRead n) s = .next t ∧ t.caller.returned = s.caller.returned ++ [.ok (.bytes bs)] ∧
      bs.length = min n (r.declared - r.linear) ∧
      dataRead t.trace s.world.expDev = dataRead s.trace s.world.expDev ++ bs ∧
      t.rdr = some { r with
        linear := r.linear + bs.length
        bank := (nextBank r.variant)^[switches r.variant r.linear bs.length] r.bank } ∧
      addrsOf t.trace = addrsOf s.trace ++ streamAddrs r.variant r.linear bs.length ∧
      dataWritten t.trace s.world.expDev = dataWritten s.trace s.world.expDev ++
        (streamWrites r.variant r.bank r.linear bs.length).map Prod.snd ∧
      (OutputDriven s → t.cart = Memory.writeAll s.cart (streamWrites r.variant r.bank r.linear bs.length)) ∧
      (OutputDriven s → Memory.wf s.cart = true → 0 < switches r.variant r.linear bs.length → ∀ r', t.rdr = some r' →
        ∀ w ∈ selectWrites r.variant r'.bank, Memory.read t.cart w.1.toNat = w.2) ∧
      t.win = s.win ∧ t.ses = s.ses ∧ t.drv.phase = s.drv.phase ∧ t.drv.lvl.rst = s.drv.lvl.rst ∧
      t.caller.calls = s.caller.calls

/-- R139, R149, R161, R24: an RDR.READ that fails delivers nothing and ends the session. It stands at the byte m that
failed: one data frame has completed for each byte before it, and the addresses driven are those of the bytes before it
and then its own. Failing in a bank-select sequence (context BankSelect) it stands at the boundary with the bank counter
already stepped, and of this byte's addresses one or more of the bank-select registers have been driven, and nothing
else; failing in a data read (context DataTransfer) all of this byte's addresses have been driven, and its boundary, if
it is one, has been crossed. -/
def Obligations.RdrReadFailsWhereItStands : Prop :=
  ∀ (s t : State) (r : Reader) (n : Nat) (e : EngineError), s.ses.phase = .streaming → s.rdr = some r →
    exec (.rdrRead n) s = .next t → t.caller.returned = s.caller.returned ++ [.err e] →
    t.ses = { phase := .ended, fault := some e } ∧
    ∃ m, m < n ∧ r.linear + m < r.declared ∧
      (∃ bs, bs.length = m ∧ dataRead t.trace s.world.expDev = dataRead s.trace s.world.expDev ++ bs) ∧
      ((e = .busCommunication .bankSelect ∧ trigger r.variant (r.linear + m) = true ∧
          ∃ p, p ≠ [] ∧ p <+: selectAddrs r.variant ∧
            addrsOf t.trace = addrsOf s.trace ++ streamAddrs r.variant r.linear m ++ p) ∨
        (e = .busCommunication .dataTransfer ∧
          addrsOf t.trace = addrsOf s.trace ++ streamAddrs r.variant r.linear m ++
            byteAddrs r.variant (r.linear + m))) ∧
      t.rdr = some { r with
        linear := r.linear + m
        bank := (nextBank r.variant)^[switches r.variant r.linear (m + 1)] r.bank }

/-- R142, R150, R157, R161: a request for no bytes, and every request at the end of the stream, returns Ok([]) and
changes nothing else: no event, and no bank switch even where the end is a multiple of 0x4000. -/
def Obligations.RdrReadAtTheEndOfTheStreamTouchesNothing : Prop :=
  ∀ (s : State) (r : Reader) (n : Nat), s.ses.phase = .streaming → s.rdr = some r → (n = 0 ∨ r.declared ≤ r.linear) →
    exec (.rdrRead n) s = .next (s.returning (.ok (.bytes [])))

/-- R137, R147: a bank switch is the only thing that pulses WR in RDR.READ: one or two pulses, by variant, for each
boundary crossed, and none for RomOnly. -/
def Obligations.RdrReadPulsesWrOnlyAtBoundaries : Prop :=
  ∀ (s t : State) (r : Reader) (n : Nat) (bs : List Byte), s.ses.phase = .streaming → s.rdr = some r →
    s.drv.lvl.wr = some Level.H → exec (.rdrRead n) s = .next t →
    t.caller.returned = s.caller.returned ++ [.ok (.bytes bs)] →
    writePulses t.trace = writePulses s.trace + writesPerSwitch r.variant * switches r.variant r.linear bs.length

/-- R147: reading a whole stream of D bytes from linear address 0 crosses max(0, ceil(D / 0x4000) - 1) boundaries, and
none for RomOnly. -/
def Obligations.WholeStreamSwitchCount : Prop :=
  ∀ (v : Variant) (D : Nat), switches v 0 D = if v = .romOnly then 0 else (D + 0x3FFF) / 0x4000 - 1

/-- R143, R144: RDR.SIZE returns the declared size and RDR.STATUS the bank (0 for RomOnly) and the linear address;
neither changes anything else. -/
def Obligations.RdrSizeAndStatusOnlyReport : Prop :=
  ∀ (s : State) (r : Reader), s.ses.phase = .streaming → s.rdr = some r →
    exec .rdrSize s = .next (s.returning (.ok (.size r.declared))) ∧
    exec .rdrStatus s =
      .next (s.returning (.ok (.status (if r.variant = .romOnly then 0 else r.bank.toNat) r.linear)))

/-! ## Admission, errors and what never changes -/

/-- R13, R34: an instruction that the session's phase does not admit is refused: nothing is emitted and nothing changes
but the outcome the caller gets. Then R34's table, its refused cells written out phase by phase (with R20 for what runs
before BD.INIT, R119 for the window in Streaming), and its admitted cells as what `admits` says. (Which row a
micro-operation and a wire format have is deduced, log 13; that a frame word which is no frame of this engine is refused
in every phase is the model's choice, log 8; and that the run goes on after a refusal is deduced, log 1.) -/
def Obligations.RefusedInstructionsChangeNothing : Prop :=
  let isRefused := fun (i : Instr) (s : State) =>
    exec i s = .next (s.returning (.refused (if s.ses.fault.isSome then .sessionFaulted else .phase)))
  (∀ (i : Instr) (s : State), admitted i s = false → isRefused i s) ∧
  (∀ s : State, s.ses.phase = .preInit → ∀ i, i ≠ .bdInit → i ≠ .bdTeardown → isRefused i s) ∧
  (∀ s : State, s.ses.phase = .headerPhase →
    isRefused .bdInit s ∧
    (∀ n, isRefused (.rdrRead n) s) ∧ isRefused .rdrSize s ∧ isRefused .rdrStatus s ∧
    (∀ b, isRefused (.bankselMbc1 b) s) ∧ (∀ b, isRefused (.bankselMbc2 b) s) ∧
    (∀ b, isRefused (.bankselMbc3 b) s) ∧ (∀ b, isRefused (.bankselMbc5 b) s) ∧
    (∀ i a v, busWriteOf i = some (a, v) → isRefused i s)) ∧
  (∀ s : State, s.ses.phase = .streaming →
    isRefused .bdInit s ∧ (∀ n, isRefused (.hwRead n) s) ∧ (∀ w off, isRefused (.hwSeek w off) s) ∧
    isRefused .dispatch s) ∧
  (∀ s : State, s.ses.phase = .ended → ∀ i, i ≠ .bdTeardown → isRefused i s) ∧
  (∀ s : State, s.drv.phase = .tornDown → isRefused .bdTeardown s) ∧
  ∀ s : State,
    (admits .init s = true ↔ s.ses.phase = .preInit ∧ s.drv.phase = .unowned) ∧
    (admits .teardown s = true ↔ s.drv.phase ≠ .tornDown) ∧
    (admits .transfer s = true ↔ s.drv.phase = .ready ∧ (s.ses.phase = .headerPhase ∨ s.ses.phase = .streaming)) ∧
    (admits .bankSelect s = true ↔ s.drv.phase = .ready ∧ s.ses.phase = .streaming)

/-- R31, R34, R158: once the session has ended, every instruction but BD.TEARDOWN is refused, and after BD.TEARDOWN
that one as well. -/
def Obligations.EndedSessionAdmitsOneTeardownOnly : Prop :=
  ∀ (i : Instr) (s : State), s.ses.phase = .ended → (i = .bdTeardown → s.drv.phase = .tornDown) →
    ∃ why, exec i s = .next (s.returning (.refused why))

/-- R151, R154, R158: the code of each error, and that AddressRangeError alone leaves the session as it was. (The
numbers are the spec's own labels, D23.) -/
def Obligations.ErrorCodesAndWhatTheyEnd : Prop :=
  (∀ c, EngineError.code (.busCommunication c) = 1) ∧ (∀ x, EngineError.code (.addressRange x) = 2) ∧
  (∀ g, EngineError.code (.unsupportedCartridge g) = 3) ∧ EngineError.code .headerDecode = 4 ∧
  ∀ (e : EngineError) (s : State),
    s.takeError e = if EngineError.code e = 2 then s else s.faulted e

/-- R32, R158, R166: a step never clears the fault, never leaves Ended, and moves the phase only forwards. -/
def Obligations.FaultIsStickyAndPhasesGoForward : Prop :=
  let rank : SessionPhase → Nat := fun p => match p with
    | .preInit => 0
    | .headerPhase => 1
    | .streaming => 2
    | .ended => 3
  ∀ s t : State, Consistent s → step s = .next t →
    rank s.ses.phase ≤ rank t.ses.phase ∧ ∀ e, s.ses.fault = some e → t.ses.fault = some e

/-- R24, R25, R28, R29: a step never changes a reader's variant, declared size or header, never removes the reader, and
never lowers its linear address. -/
def Obligations.ReaderOnlyMovesForward : Prop :=
  ∀ (s t : State) (r : Reader), Consistent s → step s = .next t → s.rdr = some r →
    ∃ r', t.rdr = some r' ∧ r'.variant = r.variant ∧ r'.declared = r.declared ∧ r'.header = r.header ∧
      r.linear ≤ r'.linear

/-- R11, R12: events once emitted stay emitted, and outcomes once returned stay returned: a step only adds to both. -/
def Obligations.TraceAndOutcomesOnlyGrow : Prop :=
  ∀ s t : State, step s = .next t → s.trace <+: t.trace ∧ s.caller.returned <+: t.caller.returned

/-- R21, R116, R143, R144, R94: which instructions can change which part of the state at all: the window, the reader,
the cartridge's registers, the bus. The strap EXP_DEV, the parameters, the decoder and the pending calls are changed by
none. -/
def Obligations.InstructionsLeaveTheOtherPartsAlone : Prop :=
  ∀ (i : Instr) (s t : State), exec i s = .next t →
    (movesWindow i = false → t.win = s.win) ∧
    (changesReader i = false → t.rdr = s.rdr) ∧
    (pulsesWr i = false → t.cart = s.cart) ∧
    (offBus i = true → t.drv = s.drv ∧ t.trace = s.trace ∧ t.exp = s.exp ∧ t.world = s.world) ∧
    t.world.expDev = s.world.expDev ∧ t.world.params = s.world.params ∧
    t.world.decoder = s.world.decoder ∧ t.caller.calls = s.caller.calls

/-! ## Invariants -/

/-- R41: the reset state is consistent, its caches agree with its trace, and it has the properties of a session in which
no micro-operation was issued: the premises of the invariants below hold where the machine starts. -/
def Obligations.ResetSatisfiesTheInvariants : Prop :=
  Consistent State.reset ∧ TraceHonest State.reset ∧ SessionSafe State.reset ∧ BankTracksStream State.reset

/-- R20, R23-R32, R34, R40, R85: every step from a consistent state leads to a consistent state. -/
def Obligations.StepKeepsTheStateConsistent : Prop :=
  ∀ s t : State, Consistent s → step s = .next t → Consistent t

/-- R46: the cartridge's written bytes keep their canonical form over every step, and have it at reset. (The form is the
model's choice, log 14.) -/
def Obligations.StepKeepsTheMemoryCanonical : Prop :=
  Memory.wf State.reset.cart = true ∧
  ∀ s t : State, Memory.wf s.cart = true → step s = .next t → Memory.wf t.cart = true

/-- R16, R17, R35: over every step, micro-operations included, the level cache, the address and the expander's
registers go on agreeing with the trace. -/
def Obligations.StepKeepsTheCachesHonest : Prop :=
  ∀ s t : State, TraceHonest s → step s = .next t → TraceHonest t

/-- R130, R145, R146, R182, R183: while the session streams, the bank counter stays the one that the stream position has
reached. -/
def Obligations.StepKeepsTheBankOnTheStream : Prop :=
  ∀ s t : State, BankTracksStream s → step s = .next t → BankTracksStream t

/-- R39, R102, R103, R176, R19: an engine whose caller issues no single step of a transfer keeps its strobes idle
between operations and its direction cache honest, and never has RD low while the expander drives the data bus. This
takes in BD.SET_ADDRESS, BD.READ_BYTE and BD.WRITE_BYTE, the bus cycles BUS.READ, BUS.WRITE and BUSR, and the
bank-select sequences and writes made of them. -/
def Obligations.SessionOperationsNeverCauseContention : Prop :=
  ∀ (i : Instr) (s t : State), isTransferStep i = false → Consistent s → SessionSafe s → exec i s = .next t →
    SessionSafe t

/-- R47, R56, R84: an engine whose caller issues no micro-operation never drives an address at or above 0x8000, never
sends a frame of another form or to another device, never pulses WR with another address on the address lines than the
four bank-select addresses, and never writes anywhere else; at reset it has done none of this. -/
def Obligations.SessionOperationsStayConfined : Prop :=
  Confined State.reset ∧
  ∀ (i : Instr) (s t : State), i.isSessionOp = true → Confined s → exec i s = .next t → Confined t

/-- R100: over transfer operations that all succeed, the direction frames sent are as many as the places where an
operation's direction differs from the one before it. -/
def Obligations.DirectionFramesAreCoalesced : Prop :=
  ∀ (ops : List Instr) (ds : List DataDirection) (d : DataDirection) (s t : State),
    ops.map transferDirection = ds.map some → (∀ i ∈ ops, admitted i s = true) → s.ses.fault = none → s.drv.dir = some d →
    execAll ops s = .next t → t.ses.fault = none →
    directionFrames t.trace s.world.expDev = directionFrames s.trace s.world.expDev + directionChanges d ds
end

