-- ==== Sys2Proof/Laws/Memory.lean ====
section
/-! SUPPORT. The cartridge's written bytes: a read after a write, and that a write keeps the canonical form. -/

namespace Sys2Proof.Machine

@[simp] theorem Memory.read_nil (a : Nat) : Memory.read [] a = Config.busUnwritten a := rfl

/-- Reading from a list that starts with the entry of one byte. -/
theorem Memory.read_entry (a b : Nat) (v : Byte) (m : Memory) (h : b = a → Memory.read m a = Config.busUnwritten a) :
    Memory.read (Memory.entry a v ++ m) b = if b = a then v else Memory.read m b := by
  unfold Memory.entry
  split_ifs with h1 h2 h2
  · subst h2; exact (h rfl).trans h1.symm
  · rfl
  · simp [Memory.read, h2]
  · simp [Memory.read, Ne.symm h2]

theorem Memory.read_below {lo : Nat} {m : Memory} {a : Nat} (hm : Memory.risingFrom lo m = true) (ha : a < lo) :
    Memory.read m a = Config.busUnwritten a := by
  induction m generalizing lo with
  | nil => rfl
  | cons c rest ih =>
    obtain ⟨k, w⟩ := c
    simp only [Memory.risingFrom, Bool.and_eq_true, decide_eq_true_eq] at hm
    have hk : k ≠ a := by omega
    simp only [Memory.read, if_neg hk]
    exact ih hm.2 (by omega)

theorem Memory.read_write_from (lo : Nat) (m : Memory) (a b : Nat) (v : Byte) (hm : Memory.risingFrom lo m = true) :
    Memory.read (Memory.write m a v) b = if b = a then v else Memory.read m b := by
  induction m generalizing lo with
  | nil => simpa [Memory.write] using Memory.read_entry a b v [] fun _ => rfl
  | cons c rest ih =>
    obtain ⟨k, w⟩ := c
    simp only [Memory.risingFrom, Bool.and_eq_true, decide_eq_true_eq] at hm
    unfold Memory.write
    split
    · rename_i h1
      have hb : Memory.risingFrom k ((k, w) :: rest) = true := by
        simpa [Memory.risingFrom, hm.1.2.2, hm.2] using hm.1.2.1
      exact Memory.read_entry _ _ _ _ fun _ => Memory.read_below hb h1
    · split
      · rename_i h2
        subst h2
        rw [Memory.read_entry _ _ _ _ fun _ => Memory.read_below hm.2 (Nat.lt_succ_self _)]
        by_cases h3 : b = a
        · simp [h3]
        · simp [Memory.read, h3, Ne.symm h3]
      · rename_i h1 h2
        have k1 := ih (k + 1) hm.2
        by_cases hk : k = b
        · subst hk; simp [Memory.read, Ne.symm h2]
        · simpa [Memory.read, hk] using k1

/-- Reading the address written gives the byte written. -/
theorem Memory.read_write_self {m : Memory} (a : Nat) (v : Byte) (h : Memory.wf m = true) :
    Memory.read (Memory.write m a v) a = v := by
  simpa using Memory.read_write_from 0 m a a v h

/-- Reading any other address gives what it gave before. -/
theorem Memory.read_write_other (m : Memory) (a b : Nat) (v : Byte) (h : b ≠ a) :
    Memory.read (Memory.write m a v) b = Memory.read m b := by
  have entry : ∀ t : Memory, Memory.read (Memory.entry a v ++ t) b = Memory.read t b := fun t => by
    rw [Memory.read_entry _ _ _ _ fun e => absurd e h, if_neg h]
  induction m with
  | nil => simpa [Memory.write] using entry []
  | cons c rest ih =>
    obtain ⟨k, w⟩ := c
    unfold Memory.write
    split_ifs with h1 h2
    · exact entry _
    · subst h2
      rw [entry]
      simp [Memory.read, Ne.symm h]
    · by_cases hk : k = b <;> simp [Memory.read, hk, ih]

theorem Memory.risingFrom_mono {lo lo' : Nat} (h : lo' ≤ lo) (m : Memory) (hm : Memory.risingFrom lo m = true) :
    Memory.risingFrom lo' m = true := by
  cases m with
  | nil => rfl
  | cons c rest =>
    obtain ⟨k, v⟩ := c
    simp only [Memory.risingFrom, Bool.and_eq_true, decide_eq_true_eq] at hm ⊢
    exact ⟨⟨le_trans h hm.1.1, hm.1.2⟩, hm.2⟩

theorem Memory.risingFrom_entry {lo : Nat} {a : Nat} {v : Byte} {m : Memory} (hlo : lo ≤ a) (ha : a < 2 ^ 16)
    (hm : Memory.risingFrom (a + 1) m = true) : Memory.risingFrom lo (Memory.entry a v ++ m) = true := by
  unfold Memory.entry
  split_ifs with h
  · exact Memory.risingFrom_mono (by omega) m hm
  · simpa [Memory.risingFrom, h, hm, hlo] using ha

theorem Memory.risingFrom_write (lo : Nat) (m : Memory) (a : Nat) (v : Byte) (hm : Memory.risingFrom lo m = true)
    (hlo : lo ≤ a) (ha : a < 2 ^ 16) : Memory.risingFrom lo (Memory.write m a v) = true := by
  induction m generalizing lo with
  | nil => simpa [Memory.write] using Memory.risingFrom_entry (v := v) (m := []) hlo ha rfl
  | cons c rest ih =>
    obtain ⟨k, w⟩ := c
    simp only [Memory.risingFrom, Bool.and_eq_true, decide_eq_true_eq] at hm
    unfold Memory.write
    split_ifs with h1 h2
    · refine Memory.risingFrom_entry hlo ha ?_
      simp only [Memory.risingFrom, Bool.and_eq_true, decide_eq_true_eq]
      exact ⟨⟨by omega, hm.1.2⟩, hm.2⟩
    · subst h2
      exact Memory.risingFrom_entry hlo ha hm.2
    · simp only [Memory.risingFrom, Bool.and_eq_true, decide_eq_true_eq]
      exact ⟨hm.1, ih (k + 1) hm.2 (by omega)⟩

/-- Every write keeps the canonical form. -/
theorem Memory.wf_write (m : Memory) (a : Addr) (v : Byte) (h : Memory.wf m = true) :
    Memory.wf (Memory.write m a.toNat v) = true :=
  Memory.risingFrom_write 0 m _ v h (Nat.zero_le _) a.isLt

theorem Memory.mem_write {m : Memory} {a : Nat} {v : Byte} {c : Host.Cell} (h : c ∈ Memory.write m a v) :
    c = (a, v) ∨ c ∈ m := by
  have entry : ∀ t : Memory, c ∈ Memory.entry a v ++ t → c = (a, v) ∨ c ∈ t := fun t ht => by
    unfold Memory.entry at ht
    split_ifs at ht
    · exact .inr (by simpa using ht)
    · simpa using ht
  induction m with
  | nil => simpa [Memory.write] using entry [] (by simpa [Memory.write] using h)
  | cons d rest ih =>
    obtain ⟨k, w⟩ := d
    unfold Memory.write at h
    split_ifs at h
    · exact entry _ h
    · rcases entry _ h with h | h
      · exact .inl h
      · exact .inr (List.mem_cons_of_mem _ h)
    · rcases List.mem_cons.1 h with h | h
      · exact .inr (h ▸ List.mem_cons_self)
      · rcases ih h with h | h
        · exact .inl h
        · exact .inr (List.mem_cons_of_mem _ h)

/-- The reset state's memory has the canonical form. -/
theorem reset_memory_wf : Memory.wf State.reset.cart = true := rfl

end Sys2Proof.Machine
end

