-- ==== Sys2Proof/Laws/State.lean ====
section
/-! SUPPORT. One lemma for each field of the state and each update of it, true by rfl, so that no proof unfolds a
record update. -/

namespace Sys2Proof.Machine

@[simp] theorem State.emit_drv (s : State) (e : Event) : (s.emit e).drv = s.drv := rfl
@[simp] theorem State.emit_win (s : State) (e : Event) : (s.emit e).win = s.win := rfl
@[simp] theorem State.emit_rdr (s : State) (e : Event) : (s.emit e).rdr = s.rdr := rfl
@[simp] theorem State.emit_ses (s : State) (e : Event) : (s.emit e).ses = s.ses := rfl
@[simp] theorem State.emit_trace (s : State) (e : Event) : (s.emit e).trace = s.trace ++ [e] := rfl
@[simp] theorem State.emit_exp (s : State) (e : Event) : (s.emit e).exp = s.exp := rfl
@[simp] theorem State.emit_cart (s : State) (e : Event) : (s.emit e).cart = s.cart := rfl
@[simp] theorem State.emit_world (s : State) (e : Event) : (s.emit e).world = s.world := rfl
@[simp] theorem State.emit_caller (s : State) (e : Event) : (s.emit e).caller = s.caller := rfl

@[simp] theorem State.withLevel_drv_addr (s : State) (ln : Line) (l : Level) : (s.withLevel ln l).drv.addr = s.drv.addr := rfl
@[simp] theorem State.withLevel_drv_lvl (s : State) (ln : Line) (l : Level) : (s.withLevel ln l).drv.lvl = s.drv.lvl.set ln l := rfl
@[simp] theorem State.withLevel_drv_dir (s : State) (ln : Line) (l : Level) : (s.withLevel ln l).drv.dir = s.drv.dir := rfl
@[simp] theorem State.withLevel_drv_phase (s : State) (ln : Line) (l : Level) : (s.withLevel ln l).drv.phase = s.drv.phase := rfl
@[simp] theorem State.withLevel_win (s : State) (ln : Line) (l : Level) : (s.withLevel ln l).win = s.win := rfl
@[simp] theorem State.withLevel_rdr (s : State) (ln : Line) (l : Level) : (s.withLevel ln l).rdr = s.rdr := rfl
@[simp] theorem State.withLevel_ses (s : State) (ln : Line) (l : Level) : (s.withLevel ln l).ses = s.ses := rfl
@[simp] theorem State.withLevel_trace (s : State) (ln : Line) (l : Level) : (s.withLevel ln l).trace = s.trace := rfl
@[simp] theorem State.withLevel_exp (s : State) (ln : Line) (l : Level) : (s.withLevel ln l).exp = s.exp := rfl
@[simp] theorem State.withLevel_cart (s : State) (ln : Line) (l : Level) : (s.withLevel ln l).cart = s.cart := rfl
@[simp] theorem State.withLevel_world (s : State) (ln : Line) (l : Level) : (s.withLevel ln l).world = s.world := rfl
@[simp] theorem State.withLevel_caller (s : State) (ln : Line) (l : Level) : (s.withLevel ln l).caller = s.caller := rfl

@[simp] theorem State.withAddr_drv_addr (s : State) (a : Addr) : (s.withAddr a).drv.addr = some a := rfl
@[simp] theorem State.withAddr_drv_lvl (s : State) (a : Addr) : (s.withAddr a).drv.lvl = s.drv.lvl := rfl
@[simp] theorem State.withAddr_drv_dir (s : State) (a : Addr) : (s.withAddr a).drv.dir = s.drv.dir := rfl
@[simp] theorem State.withAddr_drv_phase (s : State) (a : Addr) : (s.withAddr a).drv.phase = s.drv.phase := rfl
@[simp] theorem State.withAddr_win (s : State) (a : Addr) : (s.withAddr a).win = s.win := rfl
@[simp] theorem State.withAddr_rdr (s : State) (a : Addr) : (s.withAddr a).rdr = s.rdr := rfl
@[simp] theorem State.withAddr_ses (s : State) (a : Addr) : (s.withAddr a).ses = s.ses := rfl
@[simp] theorem State.withAddr_trace (s : State) (a : Addr) : (s.withAddr a).trace = s.trace := rfl
@[simp] theorem State.withAddr_exp (s : State) (a : Addr) : (s.withAddr a).exp = s.exp := rfl
@[simp] theorem State.withAddr_cart (s : State) (a : Addr) : (s.withAddr a).cart = s.cart := rfl
@[simp] theorem State.withAddr_world (s : State) (a : Addr) : (s.withAddr a).world = s.world := rfl
@[simp] theorem State.withAddr_caller (s : State) (a : Addr) : (s.withAddr a).caller = s.caller := rfl

@[simp] theorem State.withDir_drv_addr (s : State) (d : DataDirection) : (s.withDir d).drv.addr = s.drv.addr := rfl
@[simp] theorem State.withDir_drv_lvl (s : State) (d : DataDirection) : (s.withDir d).drv.lvl = s.drv.lvl := rfl
@[simp] theorem State.withDir_drv_dir (s : State) (d : DataDirection) : (s.withDir d).drv.dir = some d := rfl
@[simp] theorem State.withDir_drv_phase (s : State) (d : DataDirection) : (s.withDir d).drv.phase = s.drv.phase := rfl
@[simp] theorem State.withDir_win (s : State) (d : DataDirection) : (s.withDir d).win = s.win := rfl
@[simp] theorem State.withDir_rdr (s : State) (d : DataDirection) : (s.withDir d).rdr = s.rdr := rfl
@[simp] theorem State.withDir_ses (s : State) (d : DataDirection) : (s.withDir d).ses = s.ses := rfl
@[simp] theorem State.withDir_trace (s : State) (d : DataDirection) : (s.withDir d).trace = s.trace := rfl
@[simp] theorem State.withDir_exp (s : State) (d : DataDirection) : (s.withDir d).exp = s.exp := rfl
@[simp] theorem State.withDir_cart (s : State) (d : DataDirection) : (s.withDir d).cart = s.cart := rfl
@[simp] theorem State.withDir_world (s : State) (d : DataDirection) : (s.withDir d).world = s.world := rfl
@[simp] theorem State.withDir_caller (s : State) (d : DataDirection) : (s.withDir d).caller = s.caller := rfl

@[simp] theorem State.withDriverPhase_drv_addr (s : State) (p : DriverPhase) : (s.withDriverPhase p).drv.addr = s.drv.addr := rfl
@[simp] theorem State.withDriverPhase_drv_lvl (s : State) (p : DriverPhase) : (s.withDriverPhase p).drv.lvl = s.drv.lvl := rfl
@[simp] theorem State.withDriverPhase_drv_dir (s : State) (p : DriverPhase) : (s.withDriverPhase p).drv.dir = s.drv.dir := rfl
@[simp] theorem State.withDriverPhase_drv_phase (s : State) (p : DriverPhase) : (s.withDriverPhase p).drv.phase = p := rfl
@[simp] theorem State.withDriverPhase_win (s : State) (p : DriverPhase) : (s.withDriverPhase p).win = s.win := rfl
@[simp] theorem State.withDriverPhase_rdr (s : State) (p : DriverPhase) : (s.withDriverPhase p).rdr = s.rdr := rfl
@[simp] theorem State.withDriverPhase_ses (s : State) (p : DriverPhase) : (s.withDriverPhase p).ses = s.ses := rfl
@[simp] theorem State.withDriverPhase_trace (s : State) (p : DriverPhase) : (s.withDriverPhase p).trace = s.trace := rfl
@[simp] theorem State.withDriverPhase_exp (s : State) (p : DriverPhase) : (s.withDriverPhase p).exp = s.exp := rfl
@[simp] theorem State.withDriverPhase_cart (s : State) (p : DriverPhase) : (s.withDriverPhase p).cart = s.cart := rfl
@[simp] theorem State.withDriverPhase_world (s : State) (p : DriverPhase) : (s.withDriverPhase p).world = s.world := rfl
@[simp] theorem State.withDriverPhase_caller (s : State) (p : DriverPhase) : (s.withDriverPhase p).caller = s.caller := rfl

@[simp] theorem State.withPhase_drv (s : State) (p : SessionPhase) : (s.withPhase p).drv = s.drv := rfl
@[simp] theorem State.withPhase_win (s : State) (p : SessionPhase) : (s.withPhase p).win = s.win := rfl
@[simp] theorem State.withPhase_rdr (s : State) (p : SessionPhase) : (s.withPhase p).rdr = s.rdr := rfl
@[simp] theorem State.withPhase_ses_phase (s : State) (p : SessionPhase) : (s.withPhase p).ses.phase = p := rfl
@[simp] theorem State.withPhase_ses_fault (s : State) (p : SessionPhase) : (s.withPhase p).ses.fault = s.ses.fault := rfl
@[simp] theorem State.withPhase_trace (s : State) (p : SessionPhase) : (s.withPhase p).trace = s.trace := rfl
@[simp] theorem State.withPhase_exp (s : State) (p : SessionPhase) : (s.withPhase p).exp = s.exp := rfl
@[simp] theorem State.withPhase_cart (s : State) (p : SessionPhase) : (s.withPhase p).cart = s.cart := rfl
@[simp] theorem State.withPhase_world (s : State) (p : SessionPhase) : (s.withPhase p).world = s.world := rfl
@[simp] theorem State.withPhase_caller (s : State) (p : SessionPhase) : (s.withPhase p).caller = s.caller := rfl

@[simp] theorem State.withPos_drv (s : State) (p : Nat) : (s.withPos p).drv = s.drv := rfl
@[simp] theorem State.withPos_win (s : State) (p : Nat) : (s.withPos p).win = { pos := p } := rfl
@[simp] theorem State.withPos_win_pos (s : State) (p : Nat) : (s.withPos p).win.pos = p := rfl
@[simp] theorem State.withPos_rdr (s : State) (p : Nat) : (s.withPos p).rdr = s.rdr := rfl
@[simp] theorem State.withPos_ses (s : State) (p : Nat) : (s.withPos p).ses = s.ses := rfl
@[simp] theorem State.withPos_trace (s : State) (p : Nat) : (s.withPos p).trace = s.trace := rfl
@[simp] theorem State.withPos_exp (s : State) (p : Nat) : (s.withPos p).exp = s.exp := rfl
@[simp] theorem State.withPos_cart (s : State) (p : Nat) : (s.withPos p).cart = s.cart := rfl
@[simp] theorem State.withPos_world (s : State) (p : Nat) : (s.withPos p).world = s.world := rfl
@[simp] theorem State.withPos_caller (s : State) (p : Nat) : (s.withPos p).caller = s.caller := rfl

@[simp] theorem State.withReader_drv (s : State) (r : Reader) : (s.withReader r).drv = s.drv := rfl
@[simp] theorem State.withReader_win (s : State) (r : Reader) : (s.withReader r).win = s.win := rfl
@[simp] theorem State.withReader_rdr (s : State) (r : Reader) : (s.withReader r).rdr = some r := rfl
@[simp] theorem State.withReader_ses (s : State) (r : Reader) : (s.withReader r).ses = s.ses := rfl
@[simp] theorem State.withReader_trace (s : State) (r : Reader) : (s.withReader r).trace = s.trace := rfl
@[simp] theorem State.withReader_exp (s : State) (r : Reader) : (s.withReader r).exp = s.exp := rfl
@[simp] theorem State.withReader_cart (s : State) (r : Reader) : (s.withReader r).cart = s.cart := rfl
@[simp] theorem State.withReader_world (s : State) (r : Reader) : (s.withReader r).world = s.world := rfl
@[simp] theorem State.withReader_caller (s : State) (r : Reader) : (s.withReader r).caller = s.caller := rfl

@[simp] theorem State.withBank_drv (s : State) (b : BitVec 9) : (s.withBank b).drv = s.drv := rfl
@[simp] theorem State.withBank_win (s : State) (b : BitVec 9) : (s.withBank b).win = s.win := rfl
@[simp] theorem State.withBank_rdr (s : State) (b : BitVec 9) : (s.withBank b).rdr = s.rdr.map fun r => { r with bank := b } := rfl
@[simp] theorem State.withBank_ses (s : State) (b : BitVec 9) : (s.withBank b).ses = s.ses := rfl
@[simp] theorem State.withBank_trace (s : State) (b : BitVec 9) : (s.withBank b).trace = s.trace := rfl
@[simp] theorem State.withBank_exp (s : State) (b : BitVec 9) : (s.withBank b).exp = s.exp := rfl
@[simp] theorem State.withBank_cart (s : State) (b : BitVec 9) : (s.withBank b).cart = s.cart := rfl
@[simp] theorem State.withBank_world (s : State) (b : BitVec 9) : (s.withBank b).world = s.world := rfl
@[simp] theorem State.withBank_caller (s : State) (b : BitVec 9) : (s.withBank b).caller = s.caller := rfl

@[simp] theorem State.withLinear_drv (s : State) (n : Nat) : (s.withLinear n).drv = s.drv := rfl
@[simp] theorem State.withLinear_win (s : State) (n : Nat) : (s.withLinear n).win = s.win := rfl
@[simp] theorem State.withLinear_rdr (s : State) (n : Nat) : (s.withLinear n).rdr = s.rdr.map fun r => { r with linear := n } := rfl
@[simp] theorem State.withLinear_ses (s : State) (n : Nat) : (s.withLinear n).ses = s.ses := rfl
@[simp] theorem State.withLinear_trace (s : State) (n : Nat) : (s.withLinear n).trace = s.trace := rfl
@[simp] theorem State.withLinear_exp (s : State) (n : Nat) : (s.withLinear n).exp = s.exp := rfl
@[simp] theorem State.withLinear_cart (s : State) (n : Nat) : (s.withLinear n).cart = s.cart := rfl
@[simp] theorem State.withLinear_world (s : State) (n : Nat) : (s.withLinear n).world = s.world := rfl
@[simp] theorem State.withLinear_caller (s : State) (n : Nat) : (s.withLinear n).caller = s.caller := rfl

@[simp] theorem State.deliver_drv (s : State) (r : OpResult) : (s.deliver r).drv = s.drv := rfl
@[simp] theorem State.deliver_win (s : State) (r : OpResult) : (s.deliver r).win = s.win := rfl
@[simp] theorem State.deliver_rdr (s : State) (r : OpResult) : (s.deliver r).rdr = s.rdr := rfl
@[simp] theorem State.deliver_ses (s : State) (r : OpResult) : (s.deliver r).ses = s.ses := rfl
@[simp] theorem State.deliver_trace (s : State) (r : OpResult) : (s.deliver r).trace = s.trace := rfl
@[simp] theorem State.deliver_exp (s : State) (r : OpResult) : (s.deliver r).exp = s.exp := rfl
@[simp] theorem State.deliver_cart (s : State) (r : OpResult) : (s.deliver r).cart = s.cart := rfl
@[simp] theorem State.deliver_world (s : State) (r : OpResult) : (s.deliver r).world = s.world := rfl
@[simp] theorem State.deliver_caller_calls (s : State) (r : OpResult) : (s.deliver r).caller.calls = s.caller.calls := rfl
@[simp] theorem State.deliver_caller_returned (s : State) (r : OpResult) : (s.deliver r).caller.returned = s.caller.returned ++ [r] := rfl

/-! The level cache. -/

@[simp] theorem Levels.get_set_self (v : Levels) (ln : Line) (l : Level) : (v.set ln l).get ln = some l := by
  cases ln <;> rfl

theorem Levels.get_set (v : Levels) (ln ln' : Line) (l : Level) :
    (v.set ln l).get ln' = if ln = ln' then some l else v.get ln' := by
  cases ln <;> cases ln' <;> rfl

@[simp] theorem Levels.set_rd (v : Levels) (ln : Line) (l : Level) :
    (v.set ln l).rd = if ln = .rd then some l else v.rd := by cases ln <;> rfl

@[simp] theorem Levels.set_wr (v : Levels) (ln : Line) (l : Level) :
    (v.set ln l).wr = if ln = .wr then some l else v.wr := by cases ln <;> rfl

@[simp] theorem Levels.set_cs (v : Levels) (ln : Line) (l : Level) :
    (v.set ln l).cs = if ln = .cs then some l else v.cs := by cases ln <;> rfl

@[simp] theorem Levels.set_rst (v : Levels) (ln : Line) (l : Level) :
    (v.set ln l).rst = if ln = .rst then some l else v.rst := by cases ln <;> rfl

@[simp] theorem Levels.get_rd (v : Levels) : v.get .rd = v.rd := rfl
@[simp] theorem Levels.get_wr (v : Levels) : v.get .wr = v.wr := rfl
@[simp] theorem Levels.get_cs (v : Levels) : v.get .cs = v.cs := rfl
@[simp] theorem Levels.get_rst (v : Levels) : v.get .rst = v.rst := rfl

/-! An error that is taken changes only the session. -/

@[simp] theorem State.takeError_drv (s : State) (e : EngineError) : (s.takeError e).drv = s.drv := by
  unfold State.takeError; split <;> rfl
@[simp] theorem State.takeError_win (s : State) (e : EngineError) : (s.takeError e).win = s.win := by
  unfold State.takeError; split <;> rfl
@[simp] theorem State.takeError_rdr (s : State) (e : EngineError) : (s.takeError e).rdr = s.rdr := by
  unfold State.takeError; split <;> rfl
@[simp] theorem State.takeError_trace (s : State) (e : EngineError) : (s.takeError e).trace = s.trace := by
  unfold State.takeError; split <;> rfl
@[simp] theorem State.takeError_exp (s : State) (e : EngineError) : (s.takeError e).exp = s.exp := by
  unfold State.takeError; split <;> rfl
@[simp] theorem State.takeError_cart (s : State) (e : EngineError) : (s.takeError e).cart = s.cart := by
  unfold State.takeError; split <;> rfl
@[simp] theorem State.takeError_world (s : State) (e : EngineError) : (s.takeError e).world = s.world := by
  unfold State.takeError; split <;> rfl
@[simp] theorem State.takeError_caller (s : State) (e : EngineError) : (s.takeError e).caller = s.caller := by
  unfold State.takeError; split <;> rfl

theorem State.takeError_ses (s : State) (e : EngineError) :
    (s.takeError e).ses = if e.endsSession then { phase := .ended, fault := some e } else s.ses := by
  unfold State.takeError; split <;> rfl

/-! The results of bodies. -/

@[simp] theorem Res.bind_ok {α β : Type} (v : α) (s : State) (f : α → State → Res β) : (Res.ok v s).bind f = f v s := rfl
@[simp] theorem Res.bind_err {α β : Type} (e : EngineError) (s : State) (f : α → State → Res β) :
    (Res.err e s).bind f = .err e s := rfl
@[simp] theorem Res.state_ok {α : Type} (v : α) (s : State) : (Res.ok v s).state = s := rfl
@[simp] theorem Res.state_err {α : Type} (e : EngineError) (s : State) : (Res.err e s : Res α).state = s := rfl
@[simp] theorem Res.result_ok {α : Type} (f : α → OpValue) (v : α) (s : State) : (Res.ok v s).result f = .ok (f v) := rfl
@[simp] theorem Res.result_err {α : Type} (f : α → OpValue) (e : EngineError) (s : State) :
    (Res.err e s : Res α).result f = .err e := rfl
@[simp] theorem raise_state {α : Type} (e : EngineError) (s : State) : (raise e s : Res α).state = s.takeError e := rfl

/-- What holds after the first body and is kept by the second holds after both. -/
theorem Res.bind_keeps {α β : Type} (P : State → Prop) (r : Res α) (f : α → State → Res β)
    (h1 : P r.state) (h2 : ∀ v s, r = .ok v s → P s → P (f v s).state) : P (r.bind f).state := by
  cases r with
  | ok v s => exact h2 v s rfl h1
  | err e s => exact h1

/-- A composed body that ends with a value: both parts did. -/
theorem Res.bind_eq_ok {α β : Type} (r : Res α) (f : α → State → Res β) (v : β) (s : State) :
    r.bind f = .ok v s ↔ ∃ u s1, r = .ok u s1 ∧ f u s1 = .ok v s := by
  cases r <;> simp

/-- A composed body that ends with an error: the first part did, or the second. -/
theorem Res.bind_eq_err {α β : Type} (r : Res α) (f : α → State → Res β) (e : EngineError) (s : State) :
    r.bind f = .err e s ↔ r = .err e s ∨ ∃ u s1, r = .ok u s1 ∧ f u s1 = .err e s := by
  cases r <;> simp

theorem Res.bind_assoc {α β γ : Type} (r : Res α) (f : α → State → Res β) (g : β → State → Res γ) :
    (r.bind f).bind g = r.bind fun v s => (f v s).bind g := by
  cases r <;> rfl

end Sys2Proof.Machine
end

