-- ==== Sys2Proof/Laws/Driver.lean ====
section
/-! SUPPORT. What each operation of the bus driver can do, said once: one exchange, the direction, the strobes, the WR
pulse, a byte read, a byte written. -/

namespace Sys2Proof.Machine

/-! ## One exchange -/

theorem xfer_answered {ctx : BusContext} {t0 t1 t2 r0 r1 r2 : Byte} {s : State}
    (h : s.world.answer = .answered r0 r1 r2) :
    xfer ctx t0 t1 t2 s = .ok (r0, r1, r2)
      { s with
        world := s.world.advance
        exp := s.exp.receive s.world.expDev t0 t1 t2
        trace := s.trace ++ [.spi t0 t1 t2 r0 r1 r2] } := by
  simp [xfer, h]

theorem xfer_failed {ctx : BusContext} {t0 t1 t2 : Byte} {s : State} (h : s.world.answer = .failed) :
    xfer ctx t0 t1 t2 s = .err (.busCommunication ctx)
      ({ s with world := s.world.advance, trace := s.trace ++ [Event.spiFail t0 t1 t2] }.faulted
        (.busCommunication ctx)) := by
  simp [xfer, h, raise, State.takeError, EngineError.endsSession, State.faulted]

/-- R12: an exchange is answered or fails; there is no third case. -/
theorem World.answer_cases (w : World) : (∃ r0 r1 r2, w.answer = .answered r0 r1 r2) ∨ w.answer = .failed := by
  cases w.answer with
  | answered r0 r1 r2 => exact .inl ⟨r0, r1, r2, rfl⟩
  | failed => exact .inr rfl

@[simp] theorem World.advance_expDev (w : World) : w.advance.expDev = w.expDev := rfl
@[simp] theorem World.advance_params (w : World) : w.advance.params = w.params := rfl
@[simp] theorem World.advance_decoder (w : World) : w.advance.decoder = w.decoder := rfl

/-- R68: the read command of a device is not its write command (bit 0). -/
theorem readCommand_ne_writeCommand (d d' : BitVec 3) : readCommand d ≠ writeCommand d' := by
  revert d d'; decide

/-- R68: the command byte names the device. -/
@[simp] theorem writeCommand_inj (d d' : BitVec 3) : writeCommand d = writeCommand d' ↔ d = d' := by
  revert d d'; decide

@[simp] theorem readCommand_inj (d d' : BitVec 3) : readCommand d = readCommand d' ↔ d = d' := by
  revert d d'; decide

/-- A read frame writes no register. -/
@[simp] theorem ExpanderRegs.receive_read (x : ExpanderRegs) (d d' : BitVec 3) (r v : Byte) :
    x.receive d (readCommand d') r v = x := by
  simp [ExpanderRegs.receive, readCommand_ne_writeCommand]

@[simp] theorem ExpanderRegs.receive_iodir (x : ExpanderRegs) (d : BitVec 3) (v : Byte) :
    x.receive d (writeCommand d) Config.regIodir v = { x with iodir := v } := by
  simp [ExpanderRegs.receive]

@[simp] theorem ExpanderRegs.receive_iocon (x : ExpanderRegs) (d : BitVec 3) (v : Byte) :
    x.receive d (writeCommand d) Config.regIocon v = { x with iocon := v } := by
  simp [ExpanderRegs.receive, Config.regIocon, Config.regIodir]

@[simp] theorem ExpanderRegs.receive_gpio (x : ExpanderRegs) (d : BitVec 3) (v : Byte) :
    x.receive d (writeCommand d) Config.regGpio v = { x with gpio := v } := by
  simp [ExpanderRegs.receive, Config.regIocon, Config.regIodir, Config.regGpio]

/-! ## Lines -/

theorem Levels.set_eq_self {v : Levels} {ln : Line} {l : Level} (h : v.get ln = some l) : v.set ln l = v := by
  cases v; cases ln <;> simp_all [Levels.get, Levels.set]

/-- R92: `Force`. -/
theorem force_eq (ln : Line) (l : Level) (s : State) :
    force ln l s = { s with drv := { s.drv with lvl := s.drv.lvl.set ln l }, trace := s.trace ++ [.line ln l] } := rfl

/-- R92: `Drive`: the cache holds the level, and an event is emitted if it did not. -/
theorem drive_eq (ln : Line) (l : Level) (s : State) :
    (drive ln l s).2 =
      { s with
        drv := { s.drv with lvl := s.drv.lvl.set ln l }
        trace := s.trace ++ edgeEvents (s.drv.lvl.get ln) ln l } := by
  unfold drive
  split
  · rename_i h; simp [Levels.set_eq_self h, edgeEvents, h]
  · rename_i h; simp [edgeEvents, h, force, State.emit, State.withLevel]

/-- R92, R93: a coalesced transition. -/
theorem settle_eq (ln : Line) (l : Level) (t : Nat) (s : State) :
    settle ln l t s =
      { s with
        drv := { s.drv with lvl := s.drv.lvl.set ln l }
        trace := s.trace ++ settleEvents (s.drv.lvl.get ln) ln l t } := by
  unfold settle drive settleEvents
  split_ifs with h
  · simp [Levels.set_eq_self h]
  · simp [force, State.emit, State.withLevel]

/-- R92: BD.SET_RD. -/
theorem setRd_eq (l : Level) (s : State) :
    setRd l s =
      { s with
        drv := { s.drv with lvl := { s.drv.lvl with rd := some l } }
        trace := s.trace ++ settleEvents s.drv.lvl.rd .rd l Config.tRd } :=
  settle_eq .rd l Config.tRd s

/-- R93: BD.SET_CS. -/
theorem setCs_eq (l : Level) (s : State) :
    setCs l s =
      { s with
        drv := { s.drv with lvl := { s.drv.lvl with cs := some l } }
        trace := s.trace ++ settleEvents s.drv.lvl.cs .cs l Config.tCs } :=
  settle_eq .cs l Config.tCs s

/-- R94: the edges of WR. -/
theorem drive_wr_eq (l : Level) (s : State) :
    (drive .wr l s).2 =
      { s with
        drv := { s.drv with lvl := { s.drv.lvl with wr := some l } }
        trace := s.trace ++ edgeEvents s.drv.lvl.wr .wr l } :=
  drive_eq .wr l s

/-- A transition from one level to the other is driven and settles. -/
@[simp] theorem settleEvents_L_H (ln : Line) (t : Nat) : settleEvents (some .L) ln .H t = [.line ln .H, .wait t] := rfl
@[simp] theorem settleEvents_H_L (ln : Line) (t : Nat) : settleEvents (some .H) ln .L t = [.line ln .L, .wait t] := rfl
@[simp] theorem settleEvents_same (ln : Line) (l : Level) (t : Nat) : settleEvents (some l) ln l t = [] := by
  simp [settleEvents]

@[simp] theorem edgeEvents_L_H (ln : Line) : edgeEvents (some .L) ln .H = [.line ln .H] := rfl
@[simp] theorem edgeEvents_H_L (ln : Line) : edgeEvents (some .H) ln .L = [.line ln .L] := rfl

/-- R95, R99: all four lines driven high. -/
theorem forceIdle_eq (s : State) :
    forceIdle s =
      { s with
        drv := { s.drv with lvl := { rd := some .H, wr := some .H, cs := some .H, rst := some .H } }
        trace := s.trace ++ [.line .rd .H, .line .wr .H, .line .cs .H, .line .rst .H] } := by
  simp [forceIdle, force, State.emit, State.withLevel, Levels.set]

/-- R94: the wait between WR's edges. -/
theorem lowEvents_step (tLow : Nat) (s : State) :
    (if 0 < tLow then s.emit (.wait tLow) else s) = { s with trace := s.trace ++ lowEvents tLow } := by
  unfold lowEvents
  split <;> simp [State.emit]

/-- R94: the WR pulse, and what the cartridge takes at its rising edge. -/
theorem pulseWr_eq (s : State) :
    pulseWr s =
      let tr := s.trace ++ [.wait Config.tWrPre] ++ edgeEvents s.drv.lvl.wr .wr .L ++
        lowEvents s.world.params.tWrLow ++ [.line .wr .H]
      { s with
        drv := { s.drv with lvl := { s.drv.lvl with wr := some .H } }
        trace := tr ++ [.wait Config.tWrPost]
        cart :=
          if s.drv.lvl.cs = some .L then
            Memory.write s.cart (s.drv.addr.getD (Config.undrivenAddr tr.length)).toNat
              (if s.exp.iodir = s.world.params.dirOut ∧ s.drv.lvl.rd ≠ some .L then s.exp.gpio
                else Config.undrivenData tr.length)
          else s.cart } := by
  simp only [pulseWr, pulseWrWith, lowEvents_step, drive_wr_eq, State.strobeWrite]
  by_cases hc : s.drv.lvl.cs = some .L <;>
    simp [hc, State.emit, State.addrSeen, State.dataSeen, State.readWindow, -List.length_append, -List.length_cons]

/-! ## The direction (R91) -/

theorem setDir_cached {ctx : BusContext} {d : DataDirection} {s : State} (h : s.drv.dir = some d) :
    setDir ctx d s = .ok () s := by
  simp [setDir, h]

theorem setDir_answered {ctx : BusContext} {d : DataDirection} {s : State} {r0 r1 r2 : Byte}
    (h : s.drv.dir ≠ some d) (ha : s.world.answer = .answered r0 r1 r2) :
    setDir ctx d s = .ok () (s.turned d r0 r1 r2) := by
  simp [setDir, h, expWrite, xfer_answered ha, State.withDir, State.turned]

theorem setDir_failed {ctx : BusContext} {d : DataDirection} {s : State}
    (h : s.drv.dir ≠ some d) (ha : s.world.answer = .failed) :
    setDir ctx d s = .err (.busCommunication ctx)
      (s.turnFailed ctx d) := by
  simp [setDir, h, expWrite, xfer_failed ha, State.turnFailed]

/-- R91, R104: BD.SET_DIR finds the direction cached, sends one frame, or fails at it. -/
theorem setDir_cases (ctx : BusContext) (d : DataDirection) (s : State) :
    (s.drv.dir = some d ∧ setDir ctx d s = .ok () s) ∨
    (s.drv.dir ≠ some d ∧ ∃ r0 r1 r2, s.world.answer = .answered r0 r1 r2 ∧
      setDir ctx d s = .ok () (s.turned d r0 r1 r2)) ∨
    (s.drv.dir ≠ some d ∧ s.world.answer = .failed ∧ setDir ctx d s = .err (.busCommunication ctx)
      (s.turnFailed ctx d)) := by
  by_cases h : s.drv.dir = some d
  · exact .inl ⟨h, setDir_cached h⟩
  · rcases s.world.answer_cases with ⟨r0, r1, r2, ha⟩ | ha
    · exact .inr (.inl ⟨h, r0, r1, r2, ha, setDir_answered h ha⟩)
    · exact .inr (.inr ⟨h, ha, setDir_failed h ha⟩)

/-! ## A byte read (R97) -/

theorem readByte_input_answered {ctx : BusContext} {s : State} {r0 r1 b : Byte}
    (hd : s.drv.dir = some .input) (ha : s.world.answer = .answered r0 r1 b) :
    readByte ctx s = .ok b (s.readDone r0 r1 b) := by
  have h2 : (setCs .L (setRd .L s)).world.answer = .answered r0 r1 b := by simpa [setCs_eq, setRd_eq] using ha
  rw [readByte, setDir_cached hd, Res.bind_ok, expRead, xfer_answered h2]
  simp [setRd_eq, setCs_eq, State.readDone, readEvents]

theorem readByte_input_failed {ctx : BusContext} {s : State}
    (hd : s.drv.dir = some .input) (ha : s.world.answer = .failed) :
    readByte ctx s = .err (.busCommunication ctx) (s.readFailed ctx) := by
  have h2 : (setCs .L (setRd .L s)).world.answer = .failed := by simpa [setCs_eq, setRd_eq] using ha
  rw [readByte, setDir_cached hd, Res.bind_ok, expRead, xfer_failed h2]
  simp [setRd_eq, setCs_eq, State.readFailed, State.faulted]

/-- After a completed direction frame a read goes on as one that found the direction already Input. -/
theorem readByte_turned {ctx : BusContext} {s : State} {x0 x1 x2 : Byte}
    (hd : s.drv.dir ≠ some .input) (ha : s.world.answer = .answered x0 x1 x2) :
    readByte ctx s = readByte ctx (s.turned .input x0 x1 x2) := by
  simp only [readByte, setDir_answered hd ha]
  rw [setDir_cached (s := s.turned .input x0 x1 x2) rfl]

theorem readByte_turn_failed {ctx : BusContext} {s : State}
    (hd : s.drv.dir ≠ some .input) (ha : s.world.answer = .failed) :
    readByte ctx s = .err (.busCommunication ctx)
      (s.turnFailed ctx .input) := by
  simp only [readByte, setDir_failed hd ha, Res.bind_err]

/-- Everything that BD.READ_BYTE can do: with the direction turned first or not, it reads a byte or fails at its data
frame; or it fails at the direction frame. -/
theorem readByte_cases (ctx : BusContext) (s : State) :
    (∃ s1, (s.drv.dir = some .input ∧ s1 = s ∨
        s.drv.dir ≠ some .input ∧ ∃ x0 x1 x2, s.world.answer = .answered x0 x1 x2 ∧ s1 = s.turned .input x0 x1 x2) ∧
      ((∃ r0 r1 b, s1.world.answer = .answered r0 r1 b ∧ readByte ctx s = .ok b (s1.readDone r0 r1 b)) ∨
        (s1.world.answer = .failed ∧ readByte ctx s = .err (.busCommunication ctx) (s1.readFailed ctx)))) ∨
    (s.drv.dir ≠ some .input ∧ s.world.answer = .failed ∧ readByte ctx s = .err (.busCommunication ctx)
      (s.turnFailed ctx .input)) := by
  have done : ∀ s1 : State, s1.drv.dir = some .input →
      (∃ r0 r1 b, s1.world.answer = .answered r0 r1 b ∧ readByte ctx s1 = .ok b (s1.readDone r0 r1 b)) ∨
        (s1.world.answer = .failed ∧ readByte ctx s1 = .err (.busCommunication ctx) (s1.readFailed ctx)) := by
    intro s1 h1
    rcases s1.world.answer_cases with ⟨r0, r1, b, ha⟩ | ha
    · exact .inl ⟨r0, r1, b, ha, readByte_input_answered h1 ha⟩
    · exact .inr ⟨ha, readByte_input_failed h1 ha⟩
  by_cases hd : s.drv.dir = some .input
  · exact .inl ⟨s, .inl ⟨hd, rfl⟩, done s hd⟩
  · rcases s.world.answer_cases with ⟨x0, x1, x2, ha⟩ | ha
    · refine .inl ⟨s.turned .input x0 x1 x2, .inr ⟨hd, x0, x1, x2, ha, rfl⟩, ?_⟩
      rw [readByte_turned hd ha]
      exact done _ rfl
    · exact .inr ⟨hd, ha, readByte_turn_failed hd ha⟩

/-! ## A byte written (R98) -/

theorem writeByte_output_answered {ctx : BusContext} {s : State} {v r0 r1 r2 : Byte}
    (hd : s.drv.dir = some .output) (ha : s.world.answer = .answered r0 r1 r2) :
    writeByte ctx v s = .ok () (s.writeDone v r0 r1 r2) := by
  have h2 : (setCs .L (setRd .H s)).world.answer = .answered r0 r1 r2 := by simpa [setCs_eq, setRd_eq] using ha
  rw [writeByte, setDir_cached hd, Res.bind_ok, expWrite, xfer_answered h2]
  simp [setRd_eq, setCs_eq, pulseWr_eq, State.writeDone, writeEventsToStrobe, -List.length_append,
    -List.length_cons]

theorem writeByte_output_failed {ctx : BusContext} {s : State} {v : Byte}
    (hd : s.drv.dir = some .output) (ha : s.world.answer = .failed) :
    writeByte ctx v s = .err (.busCommunication ctx) (s.writeFailed ctx v) := by
  have h2 : (setCs .L (setRd .H s)).world.answer = .failed := by simpa [setCs_eq, setRd_eq] using ha
  rw [writeByte, setDir_cached hd, Res.bind_ok, expWrite, xfer_failed h2]
  simp [setRd_eq, setCs_eq, State.writeFailed, State.faulted]

/-- After a completed direction frame a write goes on as one that found the direction already Output. -/
theorem writeByte_turned {ctx : BusContext} {s : State} {v x0 x1 x2 : Byte}
    (hd : s.drv.dir ≠ some .output) (ha : s.world.answer = .answered x0 x1 x2) :
    writeByte ctx v s = writeByte ctx v (s.turned .output x0 x1 x2) := by
  simp only [writeByte, setDir_answered hd ha]
  rw [setDir_cached (s := s.turned .output x0 x1 x2) rfl]

theorem writeByte_turn_failed {ctx : BusContext} {s : State} {v : Byte}
    (hd : s.drv.dir ≠ some .output) (ha : s.world.answer = .failed) :
    writeByte ctx v s = .err (.busCommunication ctx)
      (s.turnFailed ctx .output) := by
  simp only [writeByte, setDir_failed hd ha, Res.bind_err]

/-- Everything that BD.WRITE_BYTE can do. -/
theorem writeByte_cases (ctx : BusContext) (v : Byte) (s : State) :
    (∃ s1, (s.drv.dir = some .output ∧ s1 = s ∨
        s.drv.dir ≠ some .output ∧ ∃ x0 x1 x2, s.world.answer = .answered x0 x1 x2 ∧ s1 = s.turned .output x0 x1 x2) ∧
      ((∃ r0 r1 r2, s1.world.answer = .answered r0 r1 r2 ∧ writeByte ctx v s = .ok () (s1.writeDone v r0 r1 r2)) ∨
        (s1.world.answer = .failed ∧ writeByte ctx v s = .err (.busCommunication ctx) (s1.writeFailed ctx v)))) ∨
    (s.drv.dir ≠ some .output ∧ s.world.answer = .failed ∧ writeByte ctx v s = .err (.busCommunication ctx)
      (s.turnFailed ctx .output)) := by
  have done : ∀ s1 : State, s1.drv.dir = some .output →
      (∃ r0 r1 r2, s1.world.answer = .answered r0 r1 r2 ∧ writeByte ctx v s1 = .ok () (s1.writeDone v r0 r1 r2)) ∨
        (s1.world.answer = .failed ∧ writeByte ctx v s1 = .err (.busCommunication ctx) (s1.writeFailed ctx v)) := by
    intro s1 h1
    rcases s1.world.answer_cases with ⟨r0, r1, r2, ha⟩ | ha
    · exact .inl ⟨r0, r1, r2, ha, writeByte_output_answered h1 ha⟩
    · exact .inr ⟨ha, writeByte_output_failed h1 ha⟩
  by_cases hd : s.drv.dir = some .output
  · exact .inl ⟨s, .inl ⟨hd, rfl⟩, done s hd⟩
  · rcases s.world.answer_cases with ⟨x0, x1, x2, ha⟩ | ha
    · refine .inl ⟨s.turned .output x0 x1 x2, .inr ⟨hd, x0, x1, x2, ha, rfl⟩, ?_⟩
      rw [writeByte_turned hd ha]
      exact done _ rfl
    · exact .inr ⟨hd, ha, writeByte_turn_failed hd ha⟩

/-! ## Bus cycles (R108, R109) -/

theorem setAddress_eq (a : Addr) (s : State) : setAddress a s = s.addressed a := rfl

theorem busRead_eq (ctx : BusContext) (a : Addr) (s : State) : busRead ctx a s = readByte ctx (s.addressed a) := rfl

theorem busWrite_eq (ctx : BusContext) (a : Addr) (v : Byte) (s : State) :
    busWrite ctx a v s = writeByte ctx v (s.addressed a) := rfl

/-! ## Initialisation (R95) -/

/-- R95: BD.INIT with both frames answered. -/
theorem initDriver_answered {s : State} {q0 q1 q2 r0 r1 r2 : Byte}
    (h1 : s.world.answer = .answered q0 q1 q2) (h2 : s.world.advance.answer = .answered r0 r1 r2) :
    initDriver s = .ok () { s with
        drv := { addr := s.drv.addr, lvl := { rd := some .H, wr := some .H, cs := some .H, rst := some .H },
                 dir := some .input, phase := .ready }
        win := { pos := 0 }
        ses := { s.ses with phase := .headerPhase }
        trace := s.trace ++
          [Event.line .rd .H, Event.line .wr .H, Event.line .cs .H, Event.line .rst .H,
           Event.spi (writeCommand s.world.expDev) Config.regIocon s.world.params.ioconInit q0 q1 q2,
           Event.spi (writeCommand s.world.expDev) Config.regIodir s.world.params.dirIn r0 r1 r2]
        exp := { s.exp with iodir := s.world.params.dirIn, iocon := s.world.params.ioconInit }
        world := s.world.advance.advance } := by
  have e1 : (forceIdle s).world.answer = .answered q0 q1 q2 := by simpa [forceIdle_eq] using h1
  simp only [initDriver, expWrite, xfer_answered e1, Res.bind_ok]
  rw [xfer_answered (r0 := r0) (r1 := r1) (r2 := r2) (by simpa [forceIdle_eq] using h2)]
  simp [forceIdle_eq, State.withDir, State.withDriverPhase, State.withPhase, State.withPos]

/-- R95: BD.INIT stops at a failed first frame. -/
theorem initDriver_failed_first {s : State} (h1 : s.world.answer = .failed) :
    initDriver s = .err (.busCommunication .init) ({ s with
        drv := { s.drv with lvl := { rd := some .H, wr := some .H, cs := some .H, rst := some .H } }
        trace := s.trace ++ [Event.line .rd .H, Event.line .wr .H, Event.line .cs .H, Event.line .rst .H,
          Event.spiFail (writeCommand s.world.expDev) Config.regIocon s.world.params.ioconInit]
        world := s.world.advance }.faulted (.busCommunication .init)) := by
  have e1 : (forceIdle s).world.answer = .failed := by simpa [forceIdle_eq] using h1
  simp only [initDriver, expWrite, xfer_failed e1, Res.bind_err]
  simp [forceIdle_eq]

/-- R95: BD.INIT stops at a failed second frame. -/
theorem initDriver_failed_second {s : State} {q0 q1 q2 : Byte}
    (h1 : s.world.answer = .answered q0 q1 q2) (h2 : s.world.advance.answer = .failed) :
    initDriver s = .err (.busCommunication .init) ({ s with
        drv := { s.drv with lvl := { rd := some .H, wr := some .H, cs := some .H, rst := some .H } }
        trace := s.trace ++ [Event.line .rd .H, Event.line .wr .H, Event.line .cs .H, Event.line .rst .H,
           Event.spi (writeCommand s.world.expDev) Config.regIocon s.world.params.ioconInit q0 q1 q2,
           Event.spiFail (writeCommand s.world.expDev) Config.regIodir s.world.params.dirIn]
        exp := { s.exp with iocon := s.world.params.ioconInit }
        world := s.world.advance.advance }.faulted (.busCommunication .init)) := by
  have e1 : (forceIdle s).world.answer = .answered q0 q1 q2 := by simpa [forceIdle_eq] using h1
  simp only [initDriver, expWrite, xfer_answered e1, Res.bind_ok]
  rw [xfer_failed (by simpa [forceIdle_eq] using h2)]
  simp [forceIdle_eq, State.faulted]

/-! ## Issuing (R13, R161) -/

/-- An admitted operation gives the caller the outcome of its body. -/
@[simp] theorem issueIf_true {α : Type} (value : α → OpValue) (body : State → Res α) (s : State) :
    issueIf true value body s = .next (finish value (body s)) := rfl

/-- R34: a refused operation changes nothing but the caller's list. -/
@[simp] theorem issueIf_false {α : Type} (value : α → OpValue) (body : State → Res α) (s : State) :
    issueIf false value body s = .next (s.returning (.refused (refusedWhy s))) := rfl

theorem issue_admitted {α : Type} {k : Admission} {value : α → OpValue} {body : State → Res α} {s : State}
    (h : admits k s = true) : issue k value body s = .next (finish value (body s)) := by simp [issue, h]

theorem issue_refused {α : Type} {k : Admission} {value : α → OpValue} {body : State → Res α} {s : State}
    (h : admits k s = false) : issue k value body s = .next (s.returning (.refused (refusedWhy s))) := by
  simp [issue, h]

/-- R72, R84: a frame of this engine, where a transfer is admitted. -/
theorem issueFrame_admitted {α : Type} {own : Bool} {value : α → OpValue} {body : State → Res α} {s : State}
    (h : admits .transfer s = true) (ho : own = true) : issueFrame own value body s = .next (finish value (body s)) := by
  simp [issueFrame, h, ho]

@[simp] theorem finish_ok {α : Type} (value : α → OpValue) (v : α) (s : State) :
    finish value (.ok v s) = s.returning (.ok (value v)) := rfl
@[simp] theorem finish_err {α : Type} (value : α → OpValue) (e : EngineError) (s : State) :
    finish value (.err e s) = s.returning (.err e) := rfl

end Sys2Proof.Machine
end

