-- ==== Sys2Proof/Laws/Trace.lean ====
section
/-! SUPPORT. What the trace functions of Safety.lean say of a trace that has grown, and of the events of each bus
cycle. -/

namespace Sys2Proof.Machine

/-! ## Appending -/

@[simp] theorem addrsOf_append (a b : List Event) : addrsOf (a ++ b) = addrsOf a ++ addrsOf b := by
  simp [addrsOf]
@[simp] theorem addrsOf_nil : addrsOf [] = [] := rfl
@[simp] theorem addrsOf_addr (a : Addr) (tr : List Event) : addrsOf (.addr a :: tr) = a :: addrsOf tr := rfl
@[simp] theorem addrsOf_line (s : Line) (l : Level) (tr : List Event) : addrsOf (.line s l :: tr) = addrsOf tr := rfl
@[simp] theorem addrsOf_wait (t : Nat) (tr : List Event) : addrsOf (.wait t :: tr) = addrsOf tr := rfl
@[simp] theorem addrsOf_spi (t0 t1 t2 r0 r1 r2 : Byte) (tr : List Event) :
    addrsOf (.spi t0 t1 t2 r0 r1 r2 :: tr) = addrsOf tr := rfl
@[simp] theorem addrsOf_spiFail (t0 t1 t2 : Byte) (tr : List Event) :
    addrsOf (.spiFail t0 t1 t2 :: tr) = addrsOf tr := rfl

@[simp] theorem dataRead_append (a b : List Event) (d : BitVec 3) :
    dataRead (a ++ b) d = dataRead a d ++ dataRead b d := by
  simp [dataRead]
@[simp] theorem dataRead_nil (d : BitVec 3) : dataRead [] d = [] := rfl
@[simp] theorem dataRead_addr (a : Addr) (tr : List Event) (d : BitVec 3) :
    dataRead (.addr a :: tr) d = dataRead tr d := rfl
@[simp] theorem dataRead_line (s : Line) (l : Level) (tr : List Event) (d : BitVec 3) :
    dataRead (.line s l :: tr) d = dataRead tr d := rfl
@[simp] theorem dataRead_wait (t : Nat) (tr : List Event) (d : BitVec 3) :
    dataRead (.wait t :: tr) d = dataRead tr d := rfl
@[simp] theorem dataRead_read (d : BitVec 3) (t2 r0 r1 r2 : Byte) (tr : List Event) :
    dataRead (.spi (readCommand d) Config.regGpio t2 r0 r1 r2 :: tr) d = r2 :: dataRead tr d := by
  simp [dataRead]
@[simp] theorem dataRead_write (d d' : BitVec 3) (t1 t2 r0 r1 r2 : Byte) (tr : List Event) :
    dataRead (.spi (writeCommand d') t1 t2 r0 r1 r2 :: tr) d = dataRead tr d := by
  have h : writeCommand d' ≠ readCommand d := fun h => readCommand_ne_writeCommand _ _ h.symm
  simp [dataRead, h]
@[simp] theorem dataRead_spiFail (t0 t1 t2 : Byte) (tr : List Event) (d : BitVec 3) :
    dataRead (.spiFail t0 t1 t2 :: tr) d = dataRead tr d := rfl

@[simp] theorem dataWritten_append (a b : List Event) (d : BitVec 3) :
    dataWritten (a ++ b) d = dataWritten a d ++ dataWritten b d := by
  simp [dataWritten]
@[simp] theorem dataWritten_nil (d : BitVec 3) : dataWritten [] d = [] := rfl
@[simp] theorem dataWritten_addr (a : Addr) (tr : List Event) (d : BitVec 3) :
    dataWritten (.addr a :: tr) d = dataWritten tr d := rfl
@[simp] theorem dataWritten_line (s : Line) (l : Level) (tr : List Event) (d : BitVec 3) :
    dataWritten (.line s l :: tr) d = dataWritten tr d := rfl
@[simp] theorem dataWritten_wait (t : Nat) (tr : List Event) (d : BitVec 3) :
    dataWritten (.wait t :: tr) d = dataWritten tr d := rfl
@[simp] theorem dataWritten_read (d d' : BitVec 3) (t1 t2 r0 r1 r2 : Byte) (tr : List Event) :
    dataWritten (.spi (readCommand d') t1 t2 r0 r1 r2 :: tr) d = dataWritten tr d := by
  simp [dataWritten, readCommand_ne_writeCommand]
@[simp] theorem dataWritten_gpio (d : BitVec 3) (v r0 r1 r2 : Byte) (tr : List Event) :
    dataWritten (.spi (writeCommand d) Config.regGpio v r0 r1 r2 :: tr) d = v :: dataWritten tr d := by
  simp [dataWritten]
@[simp] theorem dataWritten_iodir (d d' : BitVec 3) (v r0 r1 r2 : Byte) (tr : List Event) :
    dataWritten (.spi (writeCommand d') Config.regIodir v r0 r1 r2 :: tr) d = dataWritten tr d := by
  simp [dataWritten, Config.regIodir, Config.regGpio]

@[simp] theorem writePulses_append (a b : List Event) : writePulses (a ++ b) = writePulses a + writePulses b := by
  simp [writePulses]
@[simp] theorem directionFrames_append (a b : List Event) (d : BitVec 3) :
    directionFrames (a ++ b) d = directionFrames a d + directionFrames b d := by
  simp [directionFrames]

@[simp] theorem directionFrames_turn (d : BitVec 3) (v r0 r1 r2 : Byte) (tr : List Event) :
    directionFrames (.spi (writeCommand d) Config.regIodir v r0 r1 r2 :: tr) d = directionFrames tr d + 1 := by
  simp [directionFrames]
@[simp] theorem directionFrames_nil (d : BitVec 3) : directionFrames [] d = 0 := rfl

theorem lastLine_snoc (tr : List Event) (e : Event) (ln : Line) :
    lastLine (tr ++ [e]) ln = match e with | .line s l => if s = ln then some l else lastLine tr ln | _ => lastLine tr ln := by
  simp only [lastLine, List.foldl_append]; rfl
theorem lastAddr_snoc (tr : List Event) (e : Event) :
    lastAddr (tr ++ [e]) = match e with | .addr a => some a | _ => lastAddr tr := by
  simp only [lastAddr, List.foldl_append]; rfl
theorem lastWritten_snoc (tr : List Event) (e : Event) (d : BitVec 3) (r : Byte) :
    lastWritten (tr ++ [e]) d r = match e with
      | .spi t0 t1 t2 _ _ _ => if t0 = writeCommand d ∧ t1 = r then some t2 else lastWritten tr d r
      | _ => lastWritten tr d r := by
  simp only [lastWritten, List.foldl_append]; rfl

/-! ## The events of a cycle -/

@[simp] theorem addrsOf_settleEvents (c : Option Level) (ln : Line) (l : Level) (t : Nat) :
    addrsOf (settleEvents c ln l t) = [] := by
  unfold settleEvents; split <;> rfl
@[simp] theorem addrsOf_edgeEvents (c : Option Level) (ln : Line) (l : Level) : addrsOf (edgeEvents c ln l) = [] := by
  unfold edgeEvents; split <;> rfl
@[simp] theorem addrsOf_lowEvents (t : Nat) : addrsOf (lowEvents t) = [] := by unfold lowEvents; split <;> rfl
@[simp] theorem dataRead_lowEvents (t : Nat) (d : BitVec 3) : dataRead (lowEvents t) d = [] := by
  unfold lowEvents; split <;> rfl
@[simp] theorem dataWritten_lowEvents (t : Nat) (d : BitVec 3) : dataWritten (lowEvents t) d = [] := by
  unfold lowEvents; split <;> rfl
@[simp] theorem writePulses_lowEvents (t : Nat) : writePulses (lowEvents t) = 0 := by
  unfold lowEvents; split <;> rfl
@[simp] theorem directionFrames_lowEvents (t : Nat) (d : BitVec 3) : directionFrames (lowEvents t) d = 0 := by
  unfold lowEvents; split <;> rfl
@[simp] theorem addrsOf_readEvents (v : Levels) (d : BitVec 3) (r0 r1 b : Byte) :
    addrsOf (readEvents v d r0 r1 b) = [] := by
  simp [readEvents]
@[simp] theorem addrsOf_writeEventsToStrobe (c : Levels) (d : BitVec 3) (tLow : Nat) (v r0 r1 r2 : Byte) :
    addrsOf (writeEventsToStrobe c d tLow v r0 r1 r2) = [] := by
  simp [writeEventsToStrobe]

@[simp] theorem dataRead_settleEvents (c : Option Level) (ln : Line) (l : Level) (t : Nat) (d : BitVec 3) :
    dataRead (settleEvents c ln l t) d = [] := by
  unfold settleEvents; split <;> rfl
@[simp] theorem dataRead_edgeEvents (c : Option Level) (ln : Line) (l : Level) (d : BitVec 3) :
    dataRead (edgeEvents c ln l) d = [] := by
  unfold edgeEvents; split <;> rfl
@[simp] theorem dataRead_readEvents (v : Levels) (d : BitVec 3) (r0 r1 b : Byte) :
    dataRead (readEvents v d r0 r1 b) d = [b] := by
  simp [readEvents]
@[simp] theorem dataRead_writeEventsToStrobe (c : Levels) (d : BitVec 3) (tLow : Nat) (v r0 r1 r2 : Byte) :
    dataRead (writeEventsToStrobe c d tLow v r0 r1 r2) d = [] := by
  simp [writeEventsToStrobe]

@[simp] theorem dataWritten_settleEvents (c : Option Level) (ln : Line) (l : Level) (t : Nat) (d : BitVec 3) :
    dataWritten (settleEvents c ln l t) d = [] := by
  unfold settleEvents; split <;> rfl
@[simp] theorem dataWritten_edgeEvents (c : Option Level) (ln : Line) (l : Level) (d : BitVec 3) :
    dataWritten (edgeEvents c ln l) d = [] := by
  unfold edgeEvents; split <;> rfl
@[simp] theorem dataWritten_readEvents (v : Levels) (d d' : BitVec 3) (r0 r1 b : Byte) :
    dataWritten (readEvents v d r0 r1 b) d' = [] := by
  simp [readEvents]
@[simp] theorem dataWritten_writeEventsToStrobe (c : Levels) (d : BitVec 3) (tLow : Nat) (v r0 r1 r2 : Byte) :
    dataWritten (writeEventsToStrobe c d tLow v r0 r1 r2) d = [v] := by
  simp [writeEventsToStrobe]

@[simp] theorem writePulses_settleEvents (c : Option Level) (ln : Line) (l : Level) (t : Nat) (h : ln ≠ .wr) :
    writePulses (settleEvents c ln l t) = 0 := by
  unfold settleEvents; split <;> simp [writePulses, h]
@[simp] theorem writePulses_readEvents (v : Levels) (d : BitVec 3) (r0 r1 b : Byte) :
    writePulses (readEvents v d r0 r1 b) = 0 := by
  simp only [readEvents, writePulses_append, writePulses_settleEvents _ _ _ _ (show Line.rd ≠ .wr by decide),
    writePulses_settleEvents _ _ _ _ (show Line.cs ≠ .wr by decide)]
  rfl
/-- R106: a write segment that found WR at H pulses it once. -/
theorem writePulses_writeEventsToStrobe (c : Levels) (d : BitVec 3) (tLow : Nat) (v r0 r1 r2 : Byte) (h : c.wr = some .H) :
    writePulses (writeEventsToStrobe c d tLow v r0 r1 r2) = 1 := by
  simp only [writeEventsToStrobe, writePulses_append, writePulses_settleEvents _ _ _ _ (show Line.rd ≠ .wr by decide),
    writePulses_settleEvents _ _ _ _ (show Line.cs ≠ .wr by decide), writePulses_lowEvents, h]
  rfl

@[simp] theorem directionFrames_settleEvents (c : Option Level) (ln : Line) (l : Level) (t : Nat) (d : BitVec 3) :
    directionFrames (settleEvents c ln l t) d = 0 := by
  unfold settleEvents; split <;> rfl
@[simp] theorem directionFrames_readEvents (v : Levels) (d d' : BitVec 3) (r0 r1 b : Byte) :
    directionFrames (readEvents v d r0 r1 b) d' = 0 := by
  simp only [readEvents, directionFrames_append, directionFrames_settleEvents]
  simp [directionFrames, readCommand_ne_writeCommand]
@[simp] theorem directionFrames_writeEventsToStrobe (c : Levels) (d d' : BitVec 3) (tLow : Nat) (v r0 r1 r2 : Byte) :
    directionFrames (writeEventsToStrobe c d tLow v r0 r1 r2) d' = 0 := by
  have h : directionFrames (edgeEvents c.wr .wr .L) d' = 0 := by unfold edgeEvents; split <;> rfl
  simp only [writeEventsToStrobe, directionFrames_append, directionFrames_settleEvents,
    directionFrames_lowEvents, h]
  simp [directionFrames, Config.regGpio, Config.regIodir]

end Sys2Proof.Machine
end

