-- ==== Sys2Proof/Laws/Stream.lean ====
section
/-! SUPPORT. What a bus cycle, the Header Window, the header decoder, a bank switch and one byte of the stream can do,
said once each: what they leave when they complete, what they leave when they fail, and that they complete when every
exchange they need is answered. -/

namespace Sys2Proof.Machine

/-! ## What every bus cycle leaves alone -/

/-- What no bus cycle changes, completed or failed: the window, the reader, the caller, the driver's phase, RST, the
strap, the parameters and the decoder. -/
structure OffBusSame (s t : State) : Prop where
  win : t.win = s.win
  rdr : t.rdr = s.rdr
  caller : t.caller = s.caller
  phase : t.drv.phase = s.drv.phase
  rst : t.drv.lvl.rst = s.drv.lvl.rst
  expDev : t.world.expDev = s.world.expDev
  params : t.world.params = s.world.params
  decoder : t.world.decoder = s.world.decoder

theorem OffBusSame.refl (s : State) : OffBusSame s s := ⟨rfl, rfl, rfl, rfl, rfl, rfl, rfl, rfl⟩

theorem OffBusSame.trans {s t u : State} (h : OffBusSame s t) (k : OffBusSame t u) : OffBusSame s u :=
  ⟨k.win.trans h.win, k.rdr.trans h.rdr, k.caller.trans h.caller, k.phase.trans h.phase, k.rst.trans h.rst,
   k.expDev.trans h.expDev, k.params.trans h.params, k.decoder.trans h.decoder⟩

theorem OffBusSame.turned (s : State) (d : DataDirection) (r0 r1 r2 : Byte) : OffBusSame s (s.turned d r0 r1 r2) :=
  ⟨rfl, rfl, rfl, rfl, rfl, rfl, rfl, rfl⟩

theorem OffBusSame.addressed (s : State) (a : Addr) : OffBusSame s (s.addressed a) :=
  ⟨rfl, rfl, rfl, rfl, rfl, rfl, rfl, rfl⟩

/-- R158: the session that a failed exchange of context `ctx` leaves. -/
abbrev busFault (ctx : BusContext) : Session := { phase := .ended, fault := some (.busCommunication ctx) }

/-! ## A read cycle -/

/-- What a completed read cycle leaves. -/
structure ReadOk (s : State) (b : Byte) (t : State) : Prop where
  same : OffBusSame s t
  ses : t.ses = s.ses
  cart : t.cart = s.cart
  wr : t.drv.lvl.wr = s.drv.lvl.wr
  addr : t.drv.addr = s.drv.addr
  dir : t.drv.dir = some .input
  addrs : addrsOf t.trace = addrsOf s.trace
  data : dataRead t.trace s.world.expDev = dataRead s.trace s.world.expDev ++ [b]
  written : dataWritten t.trace s.world.expDev = dataWritten s.trace s.world.expDev
  pulses : writePulses t.trace = writePulses s.trace

/-- What a failed read or write cycle leaves. -/
structure CycleErr (ctx : BusContext) (s t : State) : Prop where
  same : OffBusSame s t
  ses : t.ses = busFault ctx
  cart : t.cart = s.cart
  wr : t.drv.lvl.wr = s.drv.lvl.wr
  addr : t.drv.addr = s.drv.addr
  addrs : addrsOf t.trace = addrsOf s.trace
  data : dataRead t.trace s.world.expDev = dataRead s.trace s.world.expDev

theorem writePulses_turned (s : State) (d : DataDirection) (r0 r1 r2 : Byte) :
    writePulses (s.turned d r0 r1 r2).trace = writePulses s.trace := by
  simp [State.turned, writePulses]

theorem readDone_ok {s s1 : State} {r0 r1 b : Byte}
    (h : s.drv.dir = some .input ∧ s1 = s ∨ s.drv.dir ≠ some .input ∧
      ∃ x0 x1 x2, s.world.answer = .answered x0 x1 x2 ∧ s1 = s.turned .input x0 x1 x2) :
    ReadOk s b (s1.readDone r0 r1 b) := by
  rcases h with ⟨hd, rfl⟩ | ⟨hd, x0, x1, x2, ha, rfl⟩
  · exact ⟨⟨rfl, rfl, rfl, rfl, rfl, rfl, rfl, rfl⟩, rfl, rfl, rfl, rfl, hd, by simp [State.readDone],
      by simp [State.readDone], by simp [State.readDone], by simp [State.readDone]⟩
  · exact ⟨⟨rfl, rfl, rfl, rfl, rfl, rfl, rfl, rfl⟩, rfl, rfl, rfl, rfl, rfl, by simp [State.readDone, State.turned],
      by simp [State.readDone, State.turned], by simp [State.readDone, State.turned], by
        simp only [State.readDone, writePulses_append, writePulses_turned, writePulses_readEvents, Nat.add_zero]⟩

theorem readByte_ok {ctx : BusContext} {s t : State} {b : Byte} (h : readByte ctx s = .ok b t) : ReadOk s b t := by
  rcases readByte_cases ctx s with ⟨s1, h1, ⟨r0, r1, r2, -, he⟩ | ⟨-, he⟩⟩ | ⟨-, -, he⟩ <;> rw [he] at h <;> cases h
  exact readDone_ok h1

theorem readByte_err {ctx : BusContext} {s t : State} {e : EngineError} (h : readByte ctx s = .err e t) :
    e = .busCommunication ctx ∧ CycleErr ctx s t := by
  rcases readByte_cases ctx s with ⟨s1, h1, ⟨r0, r1, r2, -, he⟩ | ⟨-, he⟩⟩ | ⟨-, -, he⟩ <;> rw [he] at h <;> cases h
  · rcases h1 with ⟨-, rfl⟩ | ⟨-, x0, x1, x2, -, rfl⟩
    · refine ⟨rfl, ⟨rfl, rfl, rfl, rfl, rfl, rfl, rfl, rfl⟩, rfl, rfl, rfl, rfl, ?_, ?_⟩ <;>
        simp [State.readFailed, State.faulted]
    · refine ⟨rfl, ⟨rfl, rfl, rfl, rfl, rfl, rfl, rfl, rfl⟩, rfl, rfl, rfl, rfl, ?_, ?_⟩ <;>
        simp [State.readFailed, State.faulted, State.turned]
  · refine ⟨rfl, ⟨rfl, rfl, rfl, rfl, rfl, rfl, rfl, rfl⟩, rfl, rfl, rfl, rfl, ?_, ?_⟩ <;>
      simp [State.turnFailed, State.faulted]

/-- A read whose exchanges are answered completes, with one exchange or, where it turns the direction, two. -/
theorem readByte_progress {ctx : BusContext} {s : State}
    (h : ∀ k, k < 2 → ∃ r0 r1 r2, s.world.answerAt k = .answered r0 r1 r2) :
    ∃ b t m, m ≤ 2 ∧ readByte ctx s = .ok b t ∧ t.world = World.advance^[m] s.world := by
  obtain ⟨x0, x1, x2, hx⟩ := h 0 (by omega)
  obtain ⟨y0, y1, y2, hy⟩ := h 1 (by omega)
  by_cases hd : s.drv.dir = some .input
  · exact ⟨x2, _, 1, by omega, readByte_input_answered hd hx, rfl⟩
  · exact ⟨y2, _, 2, by omega, (readByte_turned hd hx).trans (readByte_input_answered rfl hy), rfl⟩

/-! ## A write cycle -/

/-- What a completed write cycle leaves. -/
structure WriteOk (s : State) (v : Byte) (t : State) : Prop where
  same : OffBusSame s t
  ses : t.ses = s.ses
  wr : t.drv.lvl.wr = some .H
  addr : t.drv.addr = s.drv.addr
  dir : t.drv.dir = some .output
  addrs : addrsOf t.trace = addrsOf s.trace
  data : dataRead t.trace s.world.expDev = dataRead s.trace s.world.expDev
  written : dataWritten t.trace s.world.expDev = dataWritten s.trace s.world.expDev ++ [v]
  stored : OutputDriven s → OutputDriven t ∧ ∀ a, s.drv.addr = some a → t.cart = Memory.write s.cart a.toNat v
  pulses : s.drv.lvl.wr = some .H → writePulses t.trace = writePulses s.trace + 1

theorem writeDone_ok {s s1 : State} {v r0 r1 r2 : Byte}
    (h : s.drv.dir = some .output ∧ s1 = s ∨ s.drv.dir ≠ some .output ∧
      ∃ x0 x1 x2, s.world.answer = .answered x0 x1 x2 ∧ s1 = s.turned .output x0 x1 x2) :
    WriteOk s v (s1.writeDone v r0 r1 r2) := by
  have tail : writePulses [.wait Config.tWrPost, .line .cs .H, .wait Config.tCs] = 0 := rfl
  rcases h with ⟨hd, rfl⟩ | ⟨hd, x0, x1, x2, ha, rfl⟩
  · exact ⟨⟨rfl, rfl, rfl, rfl, rfl, rfl, rfl, rfl⟩, rfl, rfl, rfl, hd, by simp [State.writeDone],
      by simp [State.writeDone], by simp [State.writeDone],
      fun ho => ⟨ho, fun a ha => by simp [State.writeDone, ha, ho hd]⟩, fun hw => by
        simp only [State.writeDone, writePulses_append, writePulses_writeEventsToStrobe _ _ _ _ _ _ _ hw, tail,
          Nat.add_zero]⟩
  · exact ⟨⟨rfl, rfl, rfl, rfl, rfl, rfl, rfl, rfl⟩, rfl, rfl, rfl, rfl, by simp [State.writeDone, State.turned],
      by simp [State.writeDone, State.turned], by simp [State.writeDone, State.turned],
      fun _ => ⟨fun _ => rfl, fun a ha => by simp [State.writeDone, State.turned, ha, directionByte]⟩, fun hw => by
        simp only [State.writeDone, writePulses_append, writePulses_turned, tail, Nat.add_zero,
          writePulses_writeEventsToStrobe (s.turned .output x0 x1 x2).drv.lvl _ _ _ _ _ _ hw]⟩

theorem writeByte_ok {ctx : BusContext} {v : Byte} {s t : State} {u : Unit} (h : writeByte ctx v s = .ok u t) :
    WriteOk s v t := by
  rcases writeByte_cases ctx v s with ⟨s1, h1, ⟨r0, r1, r2, -, he⟩ | ⟨-, he⟩⟩ | ⟨-, -, he⟩ <;> rw [he] at h <;> cases h
  exact writeDone_ok h1

theorem writeByte_err {ctx : BusContext} {v : Byte} {s t : State} {e : EngineError}
    (h : writeByte ctx v s = .err e t) : e = .busCommunication ctx ∧ CycleErr ctx s t := by
  rcases writeByte_cases ctx v s with ⟨s1, h1, ⟨r0, r1, r2, -, he⟩ | ⟨-, he⟩⟩ | ⟨-, -, he⟩ <;> rw [he] at h <;> cases h
  · rcases h1 with ⟨-, rfl⟩ | ⟨-, x0, x1, x2, -, rfl⟩
    · refine ⟨rfl, ⟨rfl, rfl, rfl, rfl, rfl, rfl, rfl, rfl⟩, rfl, rfl, rfl, rfl, ?_, ?_⟩ <;>
        simp [State.writeFailed, State.faulted]
    · refine ⟨rfl, ⟨rfl, rfl, rfl, rfl, rfl, rfl, rfl, rfl⟩, rfl, rfl, rfl, rfl, ?_, ?_⟩ <;>
        simp [State.writeFailed, State.faulted, State.turned]
  · refine ⟨rfl, ⟨rfl, rfl, rfl, rfl, rfl, rfl, rfl, rfl⟩, rfl, rfl, rfl, rfl, ?_, ?_⟩ <;>
      simp [State.turnFailed, State.faulted]

/-- A write whose exchanges are answered completes, with one exchange or, where it turns the direction, two. -/
theorem writeByte_progress {ctx : BusContext} {v : Byte} {s : State}
    (h : ∀ k, k < 2 → ∃ r0 r1 r2, s.world.answerAt k = .answered r0 r1 r2) :
    ∃ t m, m ≤ 2 ∧ writeByte ctx v s = .ok () t ∧ t.world = World.advance^[m] s.world := by
  obtain ⟨x0, x1, x2, hx⟩ := h 0 (by omega)
  obtain ⟨y0, y1, y2, hy⟩ := h 1 (by omega)
  by_cases hd : s.drv.dir = some .output
  · exact ⟨_, 1, by omega, writeByte_output_answered hd hx, rfl⟩
  · exact ⟨_, 2, by omega, (writeByte_turned hd hx).trans (writeByte_output_answered rfl hy), rfl⟩

/-- Where the direction is already Output, one answered exchange is enough. -/
theorem writeByte_progress_output {ctx : BusContext} {v : Byte} {s : State} (hd : s.drv.dir = some .output)
    (h : ∃ r0 r1 r2, s.world.answer = .answered r0 r1 r2) :
    ∃ t, writeByte ctx v s = .ok () t ∧ t.world = s.world.advance := by
  obtain ⟨x0, x1, x2, hx⟩ := h
  exact ⟨_, writeByte_output_answered hd hx, rfl⟩

/-! ## The Header Window (R114, R116) -/

/-- A completed HW.READ: min(n, 0x150 - pos) bytes, from consecutive addresses. -/
structure WindowOk (n : Nat) (s : State) (bs : List Byte) (t : State) : Prop where
  length : bs.length = min n (Config.hdrEnd - s.win.pos)
  pos : t.win.pos = s.win.pos + bs.length
  rdr : t.rdr = s.rdr
  ses : t.ses = s.ses
  caller : t.caller = s.caller
  cart : t.cart = s.cart
  phase : t.drv.phase = s.drv.phase
  wr : t.drv.lvl.wr = s.drv.lvl.wr
  rst : t.drv.lvl.rst = s.drv.lvl.rst
  expDev : t.world.expDev = s.world.expDev
  decoder : t.world.decoder = s.world.decoder
  data : dataRead t.trace s.world.expDev = dataRead s.trace s.world.expDev ++ bs
  addrs : addrsOf t.trace = addrsOf s.trace ++ (List.range' s.win.pos bs.length).map (BitVec.ofNat 16)
  pulses : writePulses t.trace = writePulses s.trace

/-- A failed HW.READ: it stands at the byte it failed at. -/
structure WindowErr (n : Nat) (s t : State) : Prop where
  pos_ge : s.win.pos ≤ t.win.pos
  pos_lt : t.win.pos < Config.hdrEnd ∧ t.win.pos < s.win.pos + n
  ses : t.ses = busFault .headerDecode
  rdr : t.rdr = s.rdr
  caller : t.caller = s.caller
  cart : t.cart = s.cart
  phase : t.drv.phase = s.drv.phase
  wr : t.drv.lvl.wr = s.drv.lvl.wr
  rst : t.drv.lvl.rst = s.drv.lvl.rst
  expDev : t.world.expDev = s.world.expDev
  decoder : t.world.decoder = s.world.decoder
  addrs : addrsOf t.trace =
    addrsOf s.trace ++ (List.range' s.win.pos (t.win.pos + 1 - s.win.pos)).map (BitVec.ofNat 16)
  data : ∃ bs, bs.length = t.win.pos - s.win.pos ∧
    dataRead t.trace s.world.expDev = dataRead s.trace s.world.expDev ++ bs

theorem windowRead_ok : ∀ (n : Nat) (s t : State) (bs : List Byte), windowRead n s = .ok bs t → WindowOk n s bs t := by
  intro n
  induction n with
  | zero =>
    intro s t bs h
    cases h
    exact ⟨by simp, by simp, rfl, rfl, rfl, rfl, rfl, rfl, rfl, rfl, rfl, by simp, by simp, rfl⟩
  | succ n ih =>
    intro s t bs h
    rw [windowRead] at h
    split at h
    · rename_i hp
      cases h
      exact ⟨by simp; omega, by simp, rfl, rfl, rfl, rfl, rfl, rfl, rfl, rfl, rfl, by simp, by simp, rfl⟩
    · rename_i hp
      rw [busRead_eq] at h
      cases hr : readByte .headerDecode (s.addressed (BitVec.ofNat 16 s.win.pos)) with
      | err e u => simp [hr] at h
      | ok b u =>
        have hb := readByte_ok hr
        rw [hr, Res.bind_ok] at h
        cases hw : windowRead n (u.withPos (u.win.pos + 1)) with
        | err e u => simp [hw] at h
        | ok bs' u' =>
          have hn := ih _ _ _ hw
          rw [hw, Res.bind_ok] at h
          cases h
          have hwin : u.win = s.win := hb.same.win
          refine ⟨?_, ?_, ?_, ?_, ?_, ?_, ?_, ?_, ?_, ?_, ?_, ?_, ?_, ?_⟩
          · have := hn.length
            simp [State.withPos, hwin] at this ⊢
            omega
          · have := hn.pos
            simp [State.withPos, hwin] at this ⊢
            omega
          · exact hn.rdr.trans hb.same.rdr
          · exact hn.ses.trans hb.ses
          · exact hn.caller.trans hb.same.caller
          · exact hn.cart.trans hb.cart
          · exact hn.phase.trans hb.same.phase
          · exact hn.wr.trans hb.wr
          · exact hn.rst.trans hb.same.rst
          · exact hn.expDev.trans hb.same.expDev
          · exact hn.decoder.trans hb.same.decoder
          · have h1 := hn.data
            have h2 := hb.data
            have h3 : u.world.expDev = s.world.expDev := hb.same.expDev
            simp [State.withPos, State.addressed, h3] at h1 h2
            simp [h1, h2]
          · have h1 := hn.addrs
            have h2 := hb.addrs
            simp [State.withPos, State.addressed, hwin] at h1 h2
            simp [h1, h2, List.range'_succ]
          · have h2 := hb.pulses
            exact hn.pulses.trans (h2.trans (by simp [State.addressed, writePulses]))

theorem windowRead_err : ∀ (n : Nat) (s t : State) (e : EngineError), windowRead n s = .err e t →
    e = .busCommunication .headerDecode ∧ WindowErr n s t := by
  intro n
  induction n with
  | zero => intro s t e h; simp [windowRead] at h
  | succ n ih =>
    intro s t e h
    rw [windowRead] at h
    split at h
    · simp at h
    · rename_i hp
      rw [busRead_eq] at h
      cases hr : readByte .headerDecode (s.addressed (BitVec.ofNat 16 s.win.pos)) with
      | err e u =>
        obtain ⟨rfl, hb⟩ := readByte_err hr
        rw [hr] at h
        cases h
        have hwin : t.win = s.win := hb.same.win
        have ha := hb.addrs
        simp [State.addressed] at ha
        exact ⟨rfl, by rw [hwin], by rw [hwin]; omega, hb.ses, hb.same.rdr, hb.same.caller, hb.cart, hb.same.phase,
          hb.wr, hb.same.rst, hb.same.expDev, hb.same.decoder, by simp [ha, hwin],
          [], by simp [hwin], by simpa [State.addressed] using hb.data⟩
      | ok b u =>
        have hb := readByte_ok hr
        have hwin : u.win = s.win := hb.same.win
        rw [hr, Res.bind_ok] at h
        cases hw : windowRead n (u.withPos (u.win.pos + 1)) with
        | ok => simp [hw] at h
        | err e' u' =>
          obtain ⟨rfl, hn⟩ := ih _ _ _ hw
          rw [hw] at h
          cases h
          have h1 := hn.pos_ge
          have h2 := hn.pos_lt
          simp [State.withPos, hwin] at h1 h2
          refine ⟨rfl, by omega, by omega, hn.ses, hn.rdr.trans hb.same.rdr, hn.caller.trans hb.same.caller,
            hn.cart.trans hb.cart, hn.phase.trans hb.same.phase, hn.wr.trans hb.wr, hn.rst.trans hb.same.rst,
            hn.expDev.trans hb.same.expDev, hn.decoder.trans hb.same.decoder, ?_, ?_⟩
          · have h3 := hn.addrs
            have h4 := hb.addrs
            simp [State.withPos, State.addressed, hwin] at h3 h4
            rw [h3, h4, show t.win.pos + 1 - s.win.pos = (t.win.pos - s.win.pos) + 1 by omega, List.range'_succ]
            simp
          · obtain ⟨bs, h3, h4⟩ := hn.data
            have h5 := hb.data
            simp [State.withPos, State.addressed, hwin, hb.same.expDev] at h3 h4 h5
            exact ⟨b :: bs, by simp only [List.length_cons]; omega, by simp [h4, h5]⟩

/-- R116: a seek moves the position to a legal target, or is rejected and changes nothing. -/
theorem windowSeek_cases (whence : Whence) (off : Int) (s : State) :
    (seekLegal (seekTarget whence off s.win.pos) = true ∧ windowSeek whence off s =
      .ok (seekTarget whence off s.win.pos).toNat (s.withPos (seekTarget whence off s.win.pos).toNat)) ∨
    (seekLegal (seekTarget whence off s.win.pos) = false ∧
      windowSeek whence off s = .err (.addressRange (seekTarget whence off s.win.pos)) s) := by
  unfold windowSeek
  cases h : seekLegal (seekTarget whence off s.win.pos)
  · exact .inr ⟨rfl, by simp [h, raise, State.takeError, EngineError.endsSession]⟩
  · exact .inl ⟨rfl, by simp [h]⟩

theorem seekLegal_lt {target : Int} (h : seekLegal target = true) : target.toNat < Config.hdrEnd := by
  simp only [seekLegal, decide_eq_true_eq] at h
  omega

/-! ## Bank switches (R133-R136, R139) -/

/-- What a completed sequence of the bus writes `ws` leaves. -/
structure SelectOk (ws : List (Addr × Byte)) (s t : State) : Prop where
  same : OffBusSame s t
  ses : t.ses = s.ses
  wr : s.drv.lvl.wr = some .H → t.drv.lvl.wr = some .H
  addrs : addrsOf t.trace = addrsOf s.trace ++ ws.map Prod.fst
  data : dataRead t.trace s.world.expDev = dataRead s.trace s.world.expDev
  written : dataWritten t.trace s.world.expDev = dataWritten s.trace s.world.expDev ++ ws.map Prod.snd
  stored : OutputDriven s → OutputDriven t ∧ t.cart = Memory.writeAll s.cart ws
  pulses : s.drv.lvl.wr = some .H → writePulses t.trace = writePulses s.trace + ws.length

theorem SelectOk.none {s t : State} (h : OffBusSame s t) (hs : t.ses = s.ses) (hd : t.drv = s.drv) (he : t.exp = s.exp)
    (ht : t.trace = s.trace) (hc : t.cart = s.cart) : SelectOk [] s t :=
  ⟨h, hs, fun hw => by rw [hd, hw], by simp [ht], by rw [ht], by simp [ht],
   fun ho => ⟨by rw [OutputDriven, hd, he, h.params]; exact ho, hc⟩, fun _ => by simp [ht]⟩

theorem busWrite_ok {ctx : BusContext} {a : Addr} {v : Byte} {s t : State} {u : Unit}
    (h : busWrite ctx a v s = .ok u t) : SelectOk [(a, v)] s t ∧ t.drv.dir = some .output := by
  rw [busWrite_eq] at h
  have k := writeByte_ok h
  exact ⟨⟨(OffBusSame.addressed s a).trans k.same, k.ses, fun _ => k.wr,
    by rw [k.addrs]; simp [State.addressed], by simpa [State.addressed] using k.data,
    by simpa [State.addressed] using k.written,
    fun ho => ⟨(k.stored ho).1, (k.stored ho).2 a rfl⟩,
    fun hw => by rw [k.pulses hw]; simp [State.addressed, writePulses]⟩, k.dir⟩

/-- What a sequence of bus writes to the addresses `as` leaves that fails at one of them: the addresses up to and
including that one have been driven. -/
structure SelectErr (ctx : BusContext) (as : List Addr) (s t : State) : Prop where
  same : OffBusSame s t
  ses : t.ses = busFault ctx
  addrs : ∃ p, p ≠ [] ∧ p <+: as ∧ addrsOf t.trace = addrsOf s.trace ++ p
  data : dataRead t.trace s.world.expDev = dataRead s.trace s.world.expDev

theorem busWrite_err {ctx : BusContext} {a : Addr} {v : Byte} {s t : State} {e : EngineError}
    (as : List Addr) (h : busWrite ctx a v s = .err e t) : e = .busCommunication ctx ∧ SelectErr ctx (a :: as) s t := by
  rw [busWrite_eq] at h
  obtain ⟨rfl, k⟩ := writeByte_err h
  exact ⟨rfl, (OffBusSame.addressed s a).trans k.same, k.ses,
    ⟨[a], by simp, by simp, by rw [k.addrs]; simp [State.addressed]⟩, by simpa [State.addressed] using k.data⟩

/-- A sequence that fails after its first bus writes have completed. -/
theorem SelectErr.after {ctx : BusContext} {ws : List (Addr × Byte)} {as : List Addr} {s t u : State}
    (h : SelectOk ws s t) (k : SelectErr ctx as t u) : SelectErr ctx (ws.map Prod.fst ++ as) s u := by
  obtain ⟨p, hp, hpre, ha⟩ := k.addrs
  refine ⟨h.same.trans k.same, k.ses, ⟨ws.map Prod.fst ++ p, by simp [hp], ?_, ?_⟩, ?_⟩
  · exact (List.prefix_append_right_inj _).2 hpre
  · rw [ha, h.addrs, List.append_assoc]
  · have h1 := k.data
    rw [h.same.expDev] at h1
    rw [h1, h.data]

theorem SelectOk.append {as bs : List (Addr × Byte)} {s t u : State} (h : SelectOk as s t) (k : SelectOk bs t u) :
    SelectOk (as ++ bs) s u :=
  ⟨h.same.trans k.same, k.ses.trans h.ses, fun hw => k.wr (h.wr hw),
   by rw [k.addrs, h.addrs, List.append_assoc, List.map_append],
   by
    have h1 := k.data
    rw [h.same.expDev] at h1
    rw [h1, h.data],
   by
    have h1 := k.written
    rw [h.same.expDev] at h1
    rw [h1, h.written, List.append_assoc, List.map_append],
   fun ho => by
    obtain ⟨h1, h2⟩ := h.stored ho
    obtain ⟨h3, h4⟩ := k.stored h1
    exact ⟨h3, by rw [h4, h2, Memory.writeAll, Memory.writeAll, Memory.writeAll, List.foldl_append]⟩,
   fun hw => by rw [k.pulses (h.wr hw), h.pulses hw, List.length_append, Nat.add_assoc]⟩

/-- R75-R80: the fields of the bank-select sequences are those of the 9-bit counter. -/
theorem fields_of_counter (b : BitVec 9) :
    mbc1LowField (b.setWidth 8) = (b.extractLsb' 0 5).setWidth 8 ∧
    mbc1HighField (b.setWidth 8) = (b.extractLsb' 5 2).setWidth 8 ∧
    mbc2Field (b.setWidth 8) = (b.extractLsb' 0 4).setWidth 8 ∧ b.setWidth 8 = b.extractLsb' 0 8 := by
  revert b; decide +kernel

theorem selectOf_ok {v : Variant} {b : BitVec 9} {s t : State} {u : Unit} (h : selectOf v b s = .ok u t) :
    SelectOk (selectWrites v b) s t := by
  obtain ⟨f1, f2, f3, f4⟩ := fields_of_counter b
  cases v with
  | romOnly =>
    cases h
    exact .none (.refl s) rfl rfl rfl rfl rfl
  | mbc1 =>
    simp only [selectOf, selectMbc1, f1, f2] at h
    obtain ⟨x, s1, h1, h2⟩ := (Res.bind_eq_ok _ _ _ _).1 h
    exact (busWrite_ok h1).1.append (busWrite_ok h2).1
  | mbc5 =>
    obtain ⟨x, s1, h1, h2⟩ := (Res.bind_eq_ok _ _ _ _).1 h
    exact (busWrite_ok h1).1.append (busWrite_ok h2).1
  | mbc2 =>
    simp only [selectOf, selectMbc2, f3] at h
    exact (busWrite_ok h).1
  | mbc3 =>
    simp only [selectOf, selectMbc3, f4] at h
    exact (busWrite_ok h).1

@[simp] theorem selectWrites_addrs (v : Variant) (b : BitVec 9) : (selectWrites v b).map Prod.fst = selectAddrs v := by
  cases v <;> rfl

theorem selectOf_err {v : Variant} {b : BitVec 9} {s t : State} {e : EngineError} (h : selectOf v b s = .err e t) :
    e = .busCommunication .bankSelect ∧ SelectErr .bankSelect (selectAddrs v) s t := by
  cases v with
  | romOnly => simp [selectOf] at h
  | mbc1 | mbc5 =>
    rcases (Res.bind_eq_err _ _ _ _).1 h with h1 | ⟨x, s1, h1, h2⟩
    · exact busWrite_err _ h1
    · obtain ⟨rfl, k⟩ := busWrite_err [] h2
      exact ⟨rfl, .after (busWrite_ok h1).1 k⟩
  | mbc2 | mbc3 => exact busWrite_err _ h

theorem World.answerAt_add (w : World) (m k : Nat) : (World.advance^[m] w).answerAt k = w.answerAt (k + m) := by
  simp [World.answerAt, Function.iterate_add_apply]

/-- A bank-select sequence whose exchanges are answered completes, with at most three of them. -/
theorem selectOf_progress {v : Variant} {b : BitVec 9} {s : State}
    (h : ∀ k, k < 3 → ∃ r0 r1 r2, s.world.answerAt k = .answered r0 r1 r2) :
    ∃ t m, m ≤ 3 ∧ selectOf v b s = .ok () t ∧ t.world = World.advance^[m] s.world := by
  have one : ∀ (a : Addr) (w : Byte), ∃ t m, m ≤ 2 ∧ busWrite .bankSelect a w s = .ok () t ∧
      t.world = World.advance^[m] s.world := fun a w =>
    writeByte_progress (s := s.addressed a) (v := w) fun k hk => h k (by omega)
  have two : ∀ (a a' : Addr) (w w' : Byte), ∃ t m, m ≤ 3 ∧
      ((busWrite .bankSelect a w s).bind fun _ s => busWrite .bankSelect a' w' s) = .ok () t ∧
      t.world = World.advance^[m] s.world := by
    intro a a' w w'
    obtain ⟨t, m, hm, h1, h2⟩ := one a w
    have hd := (busWrite_ok h1).2
    obtain ⟨u, h3, h4⟩ := writeByte_progress_output (ctx := .bankSelect) (v := w') (s := t.addressed a') hd (by
      have := h m (by omega)
      rwa [World.answerAt, ← h2] at this)
    refine ⟨u, m + 1, by omega, ?_, ?_⟩
    · rw [h1, Res.bind_ok, busWrite_eq, h3]
    · rw [h4, Function.iterate_succ', Function.comp, ← h2]; rfl
  cases v with
  | romOnly => exact ⟨s, 0, by omega, rfl, rfl⟩
  | mbc1 => exact two _ _ _ _
  | mbc5 => exact two _ _ _ _
  | mbc2 =>
    obtain ⟨t, m, hm, h1, h2⟩ := one Config.selMbc2 (mbc2Field (b.setWidth 8))
    exact ⟨t, m, by omega, h1, h2⟩
  | mbc3 =>
    obtain ⟨t, m, hm, h1, h2⟩ := one Config.selLow (b.setWidth 8)
    exact ⟨t, m, by omega, h1, h2⟩

/-! ## One byte of the stream (R139, R140) -/

/-- R129, R130: the bank counter of a reader after the switch that its position calls for, if it calls for one. -/
def Reader.bankAt (r : Reader) : BitVec 9 := if trigger r.variant r.linear then nextBank r.variant r.bank else r.bank

/-- R130, R139: the bank-select writes that a reader's position calls for: they carry the stepped counter. -/
def Reader.switchWrites (r : Reader) : List (Addr × Byte) :=
  if trigger r.variant r.linear then selectWrites r.variant (nextBank r.variant r.bank) else []

/-- R148: the addresses of a byte are those of the switch that its position calls for, and then its own. -/
theorem byteAddrs_eq (r : Reader) :
    byteAddrs r.variant r.linear = r.switchWrites.map Prod.fst ++ [Machine.translate r.linear] := by
  unfold byteAddrs Reader.switchWrites
  split <;> simp

/-- What a byte of the stream leaves. -/
structure StreamOk (r : Reader) (s : State) (b : Byte) (t : State) : Prop where
  rdr : t.rdr = some { r with linear := r.linear + 1, bank := r.bankAt }
  win : t.win = s.win
  ses : t.ses = s.ses
  caller : t.caller = s.caller
  phase : t.drv.phase = s.drv.phase
  rst : t.drv.lvl.rst = s.drv.lvl.rst
  wr : s.drv.lvl.wr = some .H → t.drv.lvl.wr = some .H
  expDev : t.world.expDev = s.world.expDev
  decoder : t.world.decoder = s.world.decoder
  addrs : addrsOf t.trace = addrsOf s.trace ++ byteAddrs r.variant r.linear
  data : dataRead t.trace s.world.expDev = dataRead s.trace s.world.expDev ++ [b]
  written : dataWritten t.trace s.world.expDev = dataWritten s.trace s.world.expDev ++ r.switchWrites.map Prod.snd
  stored : OutputDriven s → OutputDriven t ∧ t.cart = Memory.writeAll s.cart r.switchWrites
  pulses : s.drv.lvl.wr = some .H → writePulses t.trace =
    writePulses s.trace + if trigger r.variant r.linear then writesPerSwitch r.variant else 0

/-- What a byte of the stream leaves that fails. -/
structure StreamErr (r : Reader) (s : State) (e : EngineError) (t : State) : Prop where
  rdr : t.rdr = some { r with bank := r.bankAt }
  context :
    (e = .busCommunication .bankSelect ∧ trigger r.variant r.linear = true ∧
      ∃ p, p ≠ [] ∧ p <+: selectAddrs r.variant ∧ addrsOf t.trace = addrsOf s.trace ++ p) ∨
    (e = .busCommunication .dataTransfer ∧ addrsOf t.trace = addrsOf s.trace ++ byteAddrs r.variant r.linear)
  data : dataRead t.trace s.world.expDev = dataRead s.trace s.world.expDev
  ses : t.ses = { phase := .ended, fault := some e }
  win : t.win = s.win
  caller : t.caller = s.caller
  phase : t.drv.phase = s.drv.phase
  rst : t.drv.lvl.rst = s.drv.lvl.rst
  expDev : t.world.expDev = s.world.expDev
  decoder : t.world.decoder = s.world.decoder

theorem switchBank_ok {r : Reader} {s t : State} {u : Unit} (hr : s.rdr = some r) (h : switchBank r s = .ok u t) :
    SelectOk r.switchWrites (s.withReader { r with bank := r.bankAt }) t := by
  unfold switchBank at h
  unfold Reader.bankAt Reader.switchWrites
  split at h
  · rename_i ht
    simpa [ht, State.withBank, State.withReader, hr] using selectOf_ok h
  · rename_i ht
    cases h
    simp only [ht, if_false, State.withReader, Bool.false_eq_true]
    rw [show some { r with bank := r.bank } = s.rdr from hr.symm]
    exact .none (.refl _) rfl rfl rfl rfl rfl

theorem switchBank_err {r : Reader} {s t : State} {e : EngineError} (hr : s.rdr = some r)
    (h : switchBank r s = .err e t) :
    e = .busCommunication .bankSelect ∧ trigger r.variant r.linear = true ∧
      SelectErr .bankSelect (selectAddrs r.variant) (s.withReader { r with bank := r.bankAt }) t := by
  unfold switchBank at h
  unfold Reader.bankAt
  split at h
  · rename_i ht
    obtain ⟨rfl, h1⟩ := selectOf_err h
    refine ⟨rfl, ht, ?_⟩
    simpa [ht, State.withBank, State.withReader, hr] using h1
  · simp at h

theorem streamByte_ok {r : Reader} {s t : State} {b : Byte} (hr : s.rdr = some r) (h : streamByte r s = .ok b t) :
    StreamOk r s b t := by
  unfold streamByte at h
  obtain ⟨x, s1, h1, h2⟩ := (Res.bind_eq_ok _ _ _ _).1 h
  obtain ⟨b', s2, h3, h4⟩ := (Res.bind_eq_ok _ _ _ _).1 h2
  cases h4
  rw [busRead_eq] at h3
  have k1 := switchBank_ok hr h1
  have k3 := readByte_ok h3
  have k := (OffBusSame.addressed s1 (Machine.translate r.linear)).trans k3.same
  have hd : s1.world.expDev = s.world.expDev := k1.same.expDev
  refine ⟨?_, k.win.trans k1.same.win, k3.ses.trans k1.ses, k.caller.trans k1.same.caller, k.phase.trans k1.same.phase,
    k.rst.trans k1.same.rst, fun hw => k3.wr.trans (k1.wr hw), k.expDev.trans k1.same.expDev,
    k.decoder.trans k1.same.decoder, ?_, ?_, ?_, fun ho => ?_, fun hw => ?_⟩
  · have h5 : s2.rdr = some { r with bank := r.bankAt } := k.rdr.trans k1.same.rdr
    simp [State.withLinear, h5]
  · show addrsOf s2.trace = _
    rw [k3.addrs]
    simp only [State.addressed, addrsOf_append, k1.addrs]
    simp [State.withReader, byteAddrs_eq]
  · have h5 := k3.data
    have h6 := k1.data
    simp only [State.addressed, dataRead_append, hd] at h5
    simp only [State.withReader] at h6
    simpa [h6] using h5
  · have h5 := k3.written
    have h6 := k1.written
    simp only [State.addressed, dataWritten_append, hd] at h5
    simp only [State.withReader] at h6
    simpa [h6] using h5
  · refine ⟨fun hx => ?_, k3.cart.trans (k1.stored ho).2⟩
    exact absurd (k3.dir.symm.trans hx) (by simp)
  · have h5 := k3.pulses
    have h6 := k1.pulses hw
    simp only [State.addressed, writePulses_append] at h5
    show writePulses s2.trace = _
    rw [h5, h6]
    simp only [State.withReader, Reader.switchWrites]
    split <;> cases r.variant <;> simp [writePulses, selectWrites, writesPerSwitch]

theorem streamByte_err {r : Reader} {s t : State} {e : EngineError} (hr : s.rdr = some r)
    (h : streamByte r s = .err e t) : StreamErr r s e t := by
  unfold streamByte at h
  rcases (Res.bind_eq_err _ _ _ _).1 h with h1 | ⟨x, s1, h1, h2⟩
  · obtain ⟨rfl, ht, k⟩ := switchBank_err hr h1
    exact ⟨k.same.rdr, .inl ⟨rfl, ht, k.addrs⟩, k.data, k.ses, k.same.win, k.same.caller, k.same.phase, k.same.rst,
      k.same.expDev, k.same.decoder⟩
  · rcases (Res.bind_eq_err _ _ _ _).1 h2 with h3 | ⟨b, s2, h3, h4⟩
    · rw [busRead_eq] at h3
      obtain ⟨rfl, k3⟩ := readByte_err h3
      have k1 := switchBank_ok hr h1
      have k := k1.same.trans ((OffBusSame.addressed s1 _).trans k3.same)
      refine ⟨k.rdr, .inr ⟨rfl, ?_⟩, ?_, k3.ses, k.win, k.caller, k.phase, k.rst, k.expDev, k.decoder⟩
      · rw [k3.addrs]
        simp [State.addressed, k1.addrs, State.withReader, byteAddrs_eq]
      · have h5 := k3.data
        have h6 := k1.data
        have hd : s1.world.expDev = s.world.expDev := k1.same.expDev
        simp only [State.addressed, dataRead_append, hd] at h5
        simp only [State.withReader] at h6
        simpa [h6] using h5
    · cases h4

/-- R130: the writes of a stretch of the stream are those of its first byte and then those of the rest, from the counter
that the first byte leaves. -/
theorem streamWrites_succ (r : Reader) (m : Nat) :
    streamWrites r.variant r.bank r.linear (m + 1) =
      r.switchWrites ++ streamWrites r.variant r.bankAt (r.linear + 1) m := by
  have step : ∀ k, (nextBank r.variant)^[switches r.variant r.linear (k + 1)] r.bank =
      (nextBank r.variant)^[switches r.variant (r.linear + 1) k] r.bankAt := fun k => by
    simp only [switches, List.range'_succ, List.countP_cons, Reader.bankAt]
    split
    · rw [Function.iterate_succ_apply]
    · rfl
  simp only [streamWrites, List.range_succ_eq_map, List.flatMap_cons, List.flatMap_map, Reader.switchWrites]
  congr 1
  · simp only [switches, Nat.add_zero]
    split <;> simp_all
  · refine congrArg (fun f => List.flatMap f _) (funext fun k => ?_)
    rw [step, show r.linear + (k + 1) = r.linear + 1 + k by omega]

/-- A byte of the stream whose exchanges are answered is read, with at most five of them. -/
theorem streamByte_progress {r : Reader} {s : State}
    (h : ∀ k, k < 5 → ∃ r0 r1 r2, s.world.answerAt k = .answered r0 r1 r2) :
    ∃ b t m, m ≤ 5 ∧ streamByte r s = .ok b t ∧ t.world = World.advance^[m] s.world := by
  have sw : ∃ t m, m ≤ 3 ∧ switchBank r s = .ok () t ∧ t.world = World.advance^[m] s.world := by
    unfold switchBank
    split
    · exact selectOf_progress (s := s.withBank (nextBank r.variant r.bank)) fun k hk => h k (by omega)
    · exact ⟨s, 0, by omega, rfl, rfl⟩
  obtain ⟨t, m, hm, h1, h2⟩ := sw
  obtain ⟨b, u, m', hm', h3, h4⟩ := readByte_progress (ctx := .dataTransfer)
    (s := t.addressed (Machine.translate r.linear)) fun k hk => by
      have := h (k + m) (by omega)
      rwa [← World.answerAt_add, ← h2] at this
  refine ⟨b, u.withLinear (r.linear + 1), m' + m, by omega, ?_, ?_⟩
  · simp only [streamByte, h1, Res.bind_ok, busRead_eq, h3]
  · show u.world = _
    rw [h4, Function.iterate_add_apply, ← h2]; rfl

end Sys2Proof.Machine
end

