-- ==== Sys2Proof/Laws/Micro.lean ====
section
/-! SUPPORT. What any instruction can do, said once: a sequence of the small steps below. A property that each small
step keeps is kept by every instruction. -/

namespace Sys2Proof.Machine

/-- The small steps that every meaning is made of. -/
inductive Micro : State → State → Prop
  /-- a control line is driven (R92) -/
  | line (ln : Line) (l : Level) (s : State) : Micro s (force ln l s)
  /-- a wait (R11) -/
  | wait (t : Nat) (s : State) : Micro s (s.emit (.wait t))
  /-- the address lines are driven (R96) -/
  | addr (a : Addr) (s : State) : Micro s (setAddress a s)
  /-- the cartridge takes a byte at a write strobe (R94) -/
  | strobe (s : State) : Micro s s.strobeWrite
  /-- an exchange is answered (R12) -/
  | answered (t0 t1 t2 r0 r1 r2 : Byte) (s : State) (h : s.world.answer = .answered r0 r1 r2) :
      Micro s
        { s with
          world := s.world.advance
          exp := s.exp.receive s.world.expDev t0 t1 t2
          trace := s.trace ++ [.spi t0 t1 t2 r0 r1 r2] }
  /-- an exchange fails (R12, R158) -/
  | failed (ctx : BusContext) (t0 t1 t2 : Byte) (s : State) (h : s.world.answer = .failed) :
      Micro s ({ s with world := s.world.advance, trace := s.trace ++ [Event.spiFail t0 t1 t2] }.faulted
        (.busCommunication ctx))
  /-- the direction cache is written (R91) -/
  | dir (d : DataDirection) (s : State) : Micro s (s.withDir d)
  /-- the window, the reader, the session and the driver's phase change -/
  | inner (s t : State)
      (h : t = { s with
        drv := { s.drv with phase := t.drv.phase }
        win := t.win
        rdr := t.rdr
        ses := t.ses }) : Micro s t

/-- Any number of small steps. -/
abbrev Reach : State → State → Prop := Relation.ReflTransGen Micro

theorem Reach.one {s t : State} (h : Micro s t) : Reach s t := .single h

/-- A property that every small step keeps holds of whatever is reached. -/
theorem Reach.keeps {P : State → Prop} (hP : ∀ s t, Micro s t → P s → P t) {s t : State} (h : Reach s t) (hs : P s) :
    P t := by
  induction h with
  | refl => exact hs
  | tail _ k ih => exact hP _ _ k ih

/-- No small step touches the caller, the strap, the parameters or the header decoder. -/
theorem Reach.caller {s t : State} (h : Reach s t) :
    t.caller = s.caller ∧ t.world.expDev = s.world.expDev ∧ t.world.params = s.world.params ∧
      t.world.decoder = s.world.decoder := by
  refine Reach.keeps (P := fun x => x.caller = s.caller ∧ x.world.expDev = s.world.expDev ∧
    x.world.params = s.world.params ∧ x.world.decoder = s.world.decoder) ?_ h ⟨rfl, rfl, rfl, rfl⟩
  intro a b hm hp
  cases hm with
  | strobe => simpa [State.strobeWrite, apply_ite State.caller, apply_ite State.world] using hp
  | inner _ _ hi => rw [hi]; exact hp
  | _ => exact hp

theorem Reach.bind {α β : Type} {s : State} {r : Res α} {f : α → State → Res β} (h : Reach s r.state)
    (k : ∀ v t, r = .ok v t → Reach t (f v t).state) : Reach s (r.bind f).state := by
  cases r with
  | ok v t => exact h.trans (k v t rfl)
  | err e t => exact h

/-! ## The operations -/

theorem xfer_reach (ctx : BusContext) (t0 t1 t2 : Byte) (s : State) : Reach s (xfer ctx t0 t1 t2 s).state := by
  rcases s.world.answer_cases with ⟨r0, r1, r2, h⟩ | h
  · rw [xfer_answered h]; exact .one (.answered t0 t1 t2 r0 r1 r2 s h)
  · rw [xfer_failed h]; exact .one (.failed ctx t0 t1 t2 s h)

theorem expWrite_reach (ctx : BusContext) (r v : Byte) (s : State) : Reach s (expWrite ctx r v s).state :=
  (xfer_reach _ _ _ _ _).bind fun _ _ _ => .refl

theorem expRead_reach (ctx : BusContext) (r : Byte) (s : State) : Reach s (expRead ctx r s).state :=
  (xfer_reach _ _ _ _ _).bind fun _ _ _ => .refl

theorem setDir_reach (ctx : BusContext) (d : DataDirection) (s : State) : Reach s (setDir ctx d s).state := by
  unfold setDir
  split
  · exact .refl
  · exact (expWrite_reach _ _ _ _).bind fun _ t _ => .one (.dir d t)

theorem drive_reach (ln : Line) (l : Level) (s : State) : Reach s (drive ln l s).2 := by
  unfold drive
  split
  · exact .refl
  · exact .one (.line ln l s)

theorem settle_reach (ln : Line) (l : Level) (t : Nat) (s : State) : Reach s (settle ln l t s) := by
  unfold settle
  split
  all_goals
    rename_i s' h
    have k := drive_reach ln l s
    rw [h] at k
  · exact k.tail (.wait t s')
  · exact k

theorem pulseWr_reach (s : State) : Reach s (pulseWr s) := by
  have low : ∀ (n : Nat) (u : State), Reach u (if 0 < n then u.emit (.wait n) else u) := fun n u => by
    split
    · exact .one (.wait _ _)
    · exact .refl
  have up := ((Reach.one (.wait Config.tWrPre s)).trans (drive_reach .wr .L _)).trans (low s.world.params.tWrLow _)
  exact ((up.trans (drive_reach .wr .H _)).tail (.strobe _)).tail (.wait _ _)

theorem forceIdle_reach (s : State) : Reach s (forceIdle s) :=
  .tail (.tail (.tail (Reach.one (.line .rd .H s)) (.line .wr .H _)) (.line .cs .H _)) (.line .rst .H _)

theorem initDriver_reach (s : State) : Reach s (initDriver s).state :=
  .bind ((forceIdle_reach s).trans (expWrite_reach _ _ _ _)) fun _ _ _ =>
    .bind (expWrite_reach _ _ _ _) fun _ t _ => .tail (Reach.one (.dir .input t)) (.inner _ _ rfl)

theorem teardown_reach (s : State) : Reach s (teardown s) := .tail (forceIdle_reach s) (.inner _ _ rfl)

theorem readByte_reach (ctx : BusContext) (s : State) : Reach s (readByte ctx s).state :=
  .bind (setDir_reach _ _ _) fun _ _ _ =>
    .bind (((settle_reach .rd .L _ _).trans (settle_reach .cs .L _ _)).trans (expRead_reach _ _ _)) fun _ _ _ =>
      (settle_reach .rd .H _ _).trans (settle_reach .cs .H _ _)

theorem writeByte_reach (ctx : BusContext) (v : Byte) (s : State) : Reach s (writeByte ctx v s).state :=
  .bind (setDir_reach _ _ _) fun _ _ _ =>
    .bind (((settle_reach .rd .H _ _).trans (settle_reach .cs .L _ _)).trans (expWrite_reach _ _ _ _)) fun _ _ _ =>
      (pulseWr_reach _).trans (settle_reach .cs .H _ _)

theorem busRead_reach (ctx : BusContext) (a : Addr) (s : State) : Reach s (busRead ctx a s).state :=
  (Reach.one (.addr a s)).trans (readByte_reach _ _)

theorem busWrite_reach (ctx : BusContext) (a : Addr) (v : Byte) (s : State) : Reach s (busWrite ctx a v s).state :=
  (Reach.one (.addr a s)).trans (writeByte_reach _ _ _)

theorem windowRead_reach (n : Nat) (s : State) : Reach s (windowRead n s).state := by
  induction n generalizing s with
  | zero => exact .refl
  | succ n ih =>
    rw [windowRead]
    split
    · exact .refl
    · exact .bind (busRead_reach _ _ _) fun _ t _ =>
        .bind ((Reach.one (.inner t _ rfl)).trans (ih _)) fun _ _ _ => .refl

theorem windowSeek_reach (whence : Whence) (off : Int) (s : State) : Reach s (windowSeek whence off s).state := by
  rcases windowSeek_cases whence off s with ⟨-, h⟩ | ⟨-, h⟩ <;> rw [h]
  · exact .one (.inner _ _ rfl)
  · exact .refl

theorem windowAct_reach (w : WindowAct) (s : State) : Reach s (windowAct w s).state := by
  cases w with
  | read n => exact .bind (windowRead_reach n s) fun _ _ _ => .refl
  | seek whence off =>
    have h := windowSeek_reach whence off s
    rcases windowSeek_cases whence off s with ⟨-, k⟩ | ⟨-, k⟩ <;> simpa [windowAct, k] using h

theorem runDecoder_reach (d : HeaderDecoder) (s : State) : Reach s (runDecoder d s).state := by
  induction d generalizing s with
  | answer a => exact .refl
  | act w k ih =>
    have h := windowAct_reach w s
    rw [runDecoder]
    split
    all_goals
      rename_i hw
      rw [hw] at h
    · exact h.trans (ih _ _)
    · exact h

theorem constructReader_reach (a : DecodeAnswer) (s : State) : Reach s (constructReader a s).state := by
  cases a with
  | header h =>
    rw [constructReader]
    split <;> exact .one (.inner _ _ rfl)
  | decodeError => exact .one (.inner _ _ rfl)
  | addressRange t => exact .one (.inner _ _ rfl)

theorem dispatchWith_reach (d : HeaderDecoder) (s : State) : Reach s (dispatchWith d s).state :=
  .bind ((Reach.one (.inner s _ rfl)).trans (runDecoder_reach d _)) fun _ _ _ => constructReader_reach _ _

theorem selectOf_reach (v : Variant) (b : BitVec 9) (s : State) : Reach s (selectOf v b s).state := by
  cases v with
  | romOnly => exact .refl
  | mbc1 | mbc5 => exact .bind (busWrite_reach _ _ _ _) fun _ _ _ => busWrite_reach _ _ _ _
  | mbc2 | mbc3 => exact busWrite_reach _ _ _ _

theorem switchBank_reach (r : Reader) (s : State) : Reach s (switchBank r s).state := by
  unfold switchBank
  split
  · exact (Reach.one (.inner s _ rfl)).trans (selectOf_reach _ _ _)
  · exact .refl

theorem streamByte_reach (r : Reader) (s : State) : Reach s (streamByte r s).state :=
  .bind (switchBank_reach r s) fun _ _ _ => .bind (busRead_reach _ _ _) fun _ t _ => .one (.inner t _ rfl)

theorem streamRead_reach (n : Nat) (s : State) : Reach s (streamRead n s).state := by
  induction n generalizing s with
  | zero => exact .refl
  | succ n ih =>
    rw [streamRead]
    split
    · exact .refl
    · split
      · exact .bind (streamByte_reach _ _) fun _ _ _ => .bind (ih _) fun _ _ _ => .refl
      · exact .refl

/-! ## Issuing -/

/-- How an operation ends: small steps, and then one outcome for the caller. -/
abbrev EndsBy (s : State) (o : Host.Outcome State Fault Refusal) : Prop :=
  ∃ u r, Reach s u ∧ o = .next (u.deliver r)

theorem issueIf_ends {α : Type} {admitted : Bool} {value : α → OpValue} {body : State → Res α} {s : State}
    (hb : Reach s (body s).state) : EndsBy s (issueIf admitted value body s) := by
  cases admitted
  · exact ⟨_, _, .refl, rfl⟩
  · exact ⟨_, _, hb, rfl⟩

theorem issue_ends {α : Type} {k : Admission} {value : α → OpValue} {body : State → Res α} {s : State}
    (hb : Reach s (body s).state) : EndsBy s (issue k value body s) :=
  issueIf_ends hb

theorem issue_always_ends {k : Admission} {f : State → State} {s : State} (hf : Reach s (f s)) :
    EndsBy s (issue k noValue (always f) s) :=
  issue_ends (body := always f) hf

theorem issueReader_ends {α : Type} {value : α → OpValue} {body : Reader → State → Res α} {s : State}
    (hb : ∀ r, Reach s (body r s).state) : EndsBy s (issueReader value body s) := by
  unfold issueReader
  split
  · split
    · exact ⟨_, _, hb _, rfl⟩
    · exact ⟨_, _, .refl, rfl⟩
  · exact ⟨_, _, .refl, rfl⟩

/-- Every instruction, in every state, is a sequence of small steps and then one outcome for the caller. -/
theorem exec_ends (i : Instr) (s : State) : EndsBy s (exec i s) := by
  cases i with
  | bdInit => exact issue_ends (initDriver_reach s)
  | bdSetAddress a => exact issue_always_ends (.one (.addr a s))
  | bdReadByte => exact issue_ends (readByte_reach _ s)
  | bdWriteByte v => exact issue_ends (writeByte_reach _ v s)
  | bdTeardown => exact issue_always_ends (teardown_reach s)
  | bdSetDir d => exact issue_ends (setDir_reach _ d s)
  | bdSetRd l => exact issue_always_ends (settle_reach .rd l _ s)
  | bdSetCs l => exact issue_always_ends (settle_reach .cs l _ s)
  | bdPulseWr => exact issue_always_ends (pulseWr_reach s)
  | expWrite r v => exact issue_ends (expWrite_reach _ r v s)
  | expRead r => exact issue_ends (expRead_reach _ r s)
  | busWrite a v => exact issue_ends (busWrite_reach _ a v s)
  | busRead a => exact issue_ends (busRead_reach _ a s)
  | hwRead n => exact issue_ends (windowRead_reach n s)
  | hwSeek w off => exact issue_ends (windowSeek_reach w off s)
  | dispatch => exact issue_ends (dispatchWith_reach _ s)
  | rdrRead n => exact issueReader_ends (fun _ => streamRead_reach n s)
  | rdrSize => exact issueReader_ends (fun _ => .refl)
  | rdrStatus => exact issueReader_ends (fun _ => .refl)
  | bankselMbc1 b =>
    exact issue_ends (.bind (busWrite_reach _ _ _ s) fun _ _ _ => busWrite_reach _ _ _ _)
  | bankselMbc2 b => exact issue_ends (busWrite_reach _ _ _ s)
  | bankselMbc3 b => exact issue_ends (busWrite_reach _ _ _ s)
  | bankselMbc5 b =>
    exact issue_ends (.bind (busWrite_reach _ _ _ s) fun _ _ _ => busWrite_reach _ _ _ _)
  | expWrIocon d v => exact issueIf_ends (expWrite_reach _ _ v s)
  | expWrIodir d v => exact issueIf_ends (expWrite_reach _ _ v s)
  | expWrGpio d v => exact issueIf_ends (expWrite_reach _ _ v s)
  | expRdGpio d x => exact issueIf_ends (expRead_reach _ _ s)
  | buswMbc1SelLo b => exact issue_ends (busWrite_reach _ _ _ s)
  | buswMbc1SelHi b => exact issue_ends (busWrite_reach _ _ _ s)
  | buswMbc2Sel b => exact issue_ends (busWrite_reach _ _ _ s)
  | buswMbc3Sel b => exact issue_ends (busWrite_reach _ _ _ s)
  | buswMbc5SelLo b => exact issue_ends (busWrite_reach _ _ _ s)
  | buswMbc5SelHi b => exact issue_ends (busWrite_reach _ _ _ s)
  | busr a => exact issue_ends (busRead_reach _ a s)

/-- A step that has a next state either leaves the state alone (no pending call), or is a sequence of small steps from
the state whose first pending call has been taken off, and then one outcome for the caller. -/
theorem step_ends (s t : State) (h : step s = .next t) :
    t = s ∨ ∃ rest u r, Reach { s with caller := { s.caller with calls := rest } } u ∧ t = u.deliver r := by
  unfold step at h
  split at h
  · cases h; exact .inl rfl
  · rename_i c rest hc
    split at h
    · rename_i i hi
      obtain ⟨u, r, hr, he⟩ := exec_ends i { s with caller := { s.caller with calls := rest } }
      rw [he] at h
      cases h
      exact .inr ⟨rest, u, r, hr, rfl⟩
    · cases h

end Sys2Proof.Machine
end

