-- ==== Sys2Proof/Tests/Slice0.lean ====
section
/-! SUPPORT. Tests. Expected values are from the spec's own examples and vectors, named in each comment; the last part
shows for each statement with hypotheses a state and operands that meet them all. -/

namespace Sys2Proof.Tests

open Sys2Proof.Machine

/-! ## States of the tests -/

/-- A driver that is ready, with idle lines. -/
def idleDriver (d : DataDirection) : Driver where
  addr := none
  lvl := { rd := some .H, wr := some .H, cs := some .H, rst := some .H }
  dir := some d
  phase := .ready

/-- The state after BD.INIT of an engine with EXP_DEV 0 and the given answers to come, and an empty trace. -/
def ready (d : DataDirection) (link : List XferAnswer) : State where
  drv := idleDriver d
  win := { pos := 0 }
  rdr := none
  ses := { phase := .headerPhase, fault := none }
  trace := []
  exp := { iodir := directionByte Config.params d, iocon := 0x20#8, gpio := 0x00#8 }
  cart := []
  world := { expDev := 0#3, params := Config.params, link := link, draws := 0, decoder := none }
  caller := { calls := [], returned := [] }

/-- Before BD.INIT. -/
def fresh (link : List XferAnswer) : State :=
  { State.powerOn with world := { expDev := 0#3, params := Config.params, link := link, draws := 0, decoder := none } }

/-- A header of the given tag and size. -/
def headerOf (tag : MbcTag) (size : Nat) : RomHeader := { title := [], mbcType := tag, romSize := size }

/-- A streaming session. -/
def streaming (tag : MbcTag) (v : Variant) (linear : Nat) (bank : BitVec 9) (declared : Nat) (link : List XferAnswer) :
    State :=
  { ready .input link with
    rdr := some { variant := v, linear := linear, bank := bank, declared := declared, header := headerOf tag declared }
    ses := { phase := .streaming, fault := none } }

/-- An MBC5 stream at its start, with the direction Output cached. -/
def writing (link : List XferAnswer) : State :=
  { streaming .mbc5 .mbc5 0 0#9 0x8000 link with
    drv := idleDriver .output
    exp := { iodir := 0x00#8, iocon := 0x20#8, gpio := 0x00#8 } }

/-- An answer that carries the data byte `b`. -/
def ans (b : Byte) : XferAnswer := .answered 0x00#8 0x00#8 b

/-- The state that an instruction leaves. -/
def after (i : Instr) (s : State) : State :=
  match exec i s with
  | .next t => t
  | _ => s

/-- The state that a step leaves. -/
def stepped (s : State) : State :=
  match step s with
  | .next t => t
  | _ => s

/-- A state in which the caller issues one call. -/
def calling (c : Call) (s : State) : State := { s with caller := { s.caller with calls := [c] } }

/-- A state with the window at a position. -/
def atPos (p : Nat) (s : State) : State := { s with win := { pos := p } }

/-- A state whose decoder is the given run. -/
def decoding (acts : List WindowAct) (a : DecodeAnswer) (s : State) : State :=
  { s with world := { s.world with decoder := some { acts := acts, answer := a } } }

/-! ## WellFormed: one ill-formed term for each check -/

theorem test_wf_refuses_a_negative_start_offset : (Instr.hwSeek .start (-1)).operandsOk = false := by decide
theorem test_wf_takes_a_negative_current_offset : (Instr.hwSeek .current (-1)).operandsOk = true := by decide
theorem test_wf_refuses_another_iocon_byte : (Instr.expWrIocon 2#3 0x21#8).wellFormed 2#3 Config.params = false := by decide
theorem test_wf_refuses_another_iodir_byte : (Instr.expWrIodir 2#3 0x0F#8).wellFormed 2#3 Config.params = false := by decide
theorem test_wf_refuses_a_foreign_iocon_frame : (Instr.expWrIocon 1#3 0x20#8).wellFormed 2#3 Config.params = false := by decide
theorem test_wf_refuses_a_foreign_iodir_frame : (Instr.expWrIodir 1#3 0xFF#8).wellFormed 2#3 Config.params = false := by decide
theorem test_wf_refuses_a_foreign_write_frame : (Instr.expWrGpio 1#3 0x00#8).wellFormed 2#3 Config.params = false := by decide
theorem test_wf_refuses_a_foreign_read_frame : (Instr.expRdGpio 1#3 0x00#8).wellFormed 2#3 Config.params = false := by decide

/-! ## Decode: every constructor from a word written out from R82, R72 and R75-R80 -/

theorem test_decode_driver :
    decode none (.op 0x01#8 []) = .ok .bdInit ∧
    decode none (.op 0x02#8 [0x4000]) = .ok (.bdSetAddress 0x4000#16) ∧
    decode none (.op 0x03#8 []) = .ok .bdReadByte ∧
    decode none (.op 0x04#8 [0xA5]) = .ok (.bdWriteByte 0xA5#8) ∧
    decode none (.op 0x05#8 []) = .ok .bdTeardown := by decide

theorem test_decode_micro :
    decode none (.op 0x10#8 [1]) = .ok (.bdSetDir .output) ∧
    decode none (.op 0x11#8 [0]) = .ok (.bdSetRd .L) ∧
    decode none (.op 0x12#8 [1]) = .ok (.bdSetCs .H) ∧
    decode none (.op 0x13#8 []) = .ok .bdPulseWr ∧
    decode none (.op 0x14#8 [0x05, 0x20]) = .ok (.expWrite 0x05#8 0x20#8) ∧
    decode none (.op 0x15#8 [0x09]) = .ok (.expRead 0x09#8) ∧
    decode none (.op 0x18#8 [0x2000, 0x01]) = .ok (.busWrite 0x2000#16 0x01#8) ∧
    decode none (.op 0x19#8 [0x0147]) = .ok (.busRead 0x0147#16) := by decide

theorem test_decode_window_and_reader :
    decode none (.op 0x20#8 [4]) = .ok (.hwRead 4) ∧
    decode none (.op 0x21#8 [2, -1]) = .ok (.hwSeek .fromEnd (-1)) ∧
    decode none (.op 0x30#8 []) = .ok .dispatch ∧
    decode none (.op 0x40#8 [0x20000]) = .ok (.rdrRead 0x20000) ∧
    decode none (.op 0x41#8 []) = .ok .rdrSize ∧
    decode none (.op 0x42#8 []) = .ok .rdrStatus ∧
    decode none (.op 0x50#8 [0x21]) = .ok (.bankselMbc1 0x21#8) ∧
    decode none (.op 0x51#8 [0x0A]) = .ok (.bankselMbc2 0x0A#8) ∧
    decode none (.op 0x52#8 [0x7F]) = .ok (.bankselMbc3 0x7F#8) ∧
    decode none (.op 0x53#8 [0x100]) = .ok (.bankselMbc5 0x100#9) := by decide

/-- R72 with d = 3: 0100 0110 is 46 and 0100 0111 is 47. -/
theorem test_decode_frames :
    decode none (.frame 0x460520#24) = .ok (.expWrIocon 3#3 0x20#8) ∧
    decode none (.frame 0x4600FF#24) = .ok (.expWrIodir 3#3 0xFF#8) ∧
    decode none (.frame 0x4609A5#24) = .ok (.expWrGpio 3#3 0xA5#8) ∧
    decode none (.frame 0x470900#24) = .ok (.expRdGpio 3#3 0x00#8) := by decide

theorem test_decode_bus_cycles :
    decode (some .mbc1) (.busWrite 0x20001F#24) = .ok (.buswMbc1SelLo 0x1F#5) ∧
    decode (some .mbc1) (.busWrite 0x400003#24) = .ok (.buswMbc1SelHi 3#2) ∧
    decode (some .mbc2) (.busWrite 0x21000A#24) = .ok (.buswMbc2Sel 0xA#4) ∧
    decode (some .mbc3) (.busWrite 0x20007F#24) = .ok (.buswMbc3Sel 0x7F#8) ∧
    decode (some .mbc5) (.busWrite 0x2000FF#24) = .ok (.buswMbc5SelLo 0xFF#8) ∧
    decode (some .mbc5) (.busWrite 0x300001#24) = .ok (.buswMbc5SelHi 1#1) ∧
    decode none (.busRead 0x6345#16) = .ok (.busr 0x6345#16) := by decide

/-- R82, R83, R84: what is refused, each by its own name. -/
theorem test_decode_refuses_by_name :
    decode none (.op 0x06#8 []) = .error .unknownCode ∧
    decode none (.op 0x01#8 [0]) = .error .operandCount ∧
    decode none (.op 0x53#8 [0x200]) = .error .operandRange ∧
    decode none (.op 0x21#8 [0, -1]) = .error .operandRange ∧
    decode none (.frame 0x420600#24) = .error .foreignFrame ∧
    decode none (.frame 0x410500#24) = .error .foreignFrame ∧
    decode (some .mbc2) (.busWrite 0x500000#24) = .error .notABankSelect ∧
    decode none (.other 32 0) = .error .noSuchFormat := by decide

theorem test_table_words :
    decodeTableWord 8 0x13 = some .bdPulseWr ∧ decodeTableWord 8 0x14 = some (.expWrite 0x00#8 0x00#8) ∧
    decodeTableWord 24 0x400520 = some (.expWrIocon 0#3 0x20#8) ∧
    decodeTableWord 24 0x300001 = some (.buswMbc5SelHi 1#1) ∧
    decodeTableWord 16 0x0147 = some (.busr 0x0147#16) ∧ decodeTableWord 8 0xFF = none := by decide

theorem test_fetch_word_runs_next :
    stepped ((ready .input []).withFetchWord 8 0x05) = after .bdTeardown (ready .input []) := by decide

/-! ## One step of each instruction -/

/-- R95, example. -/
theorem test_bdInit :
    (after .bdInit (fresh [ans 0, ans 0])).trace =
      [.line .rd .H, .line .wr .H, .line .cs .H, .line .rst .H,
       .spi 0x40#8 0x05#8 0x20#8 0 0 0, .spi 0x40#8 0x00#8 0xFF#8 0 0 0] ∧
    (after .bdInit (fresh [ans 0, ans 0])).ses.phase = .headerPhase := by decide

/-- V-E11: a failing frame inside BD.INIT gives ctx Init. -/
theorem test_bdInit_fails :
    (after .bdInit (fresh [ans 0, .failed])).ses = { phase := .ended, fault := some (.busCommunication .init) } ∧
    (after .bdInit (fresh [ans 0, .failed])).drv.phase = .unowned := by decide

/-- R96, example and corner case: emitted again for the same address. -/
theorem test_bdSetAddress :
    (after (.bdSetAddress 0x4000#16) (after (.bdSetAddress 0x4000#16) (ready .input []))).trace =
      [.addr 0x4000#16, .addr 0x4000#16] := by decide

/-- R97, example. -/
theorem test_bdReadByte :
    (after .bdReadByte (ready .input [ans 0x5A])).trace =
      [.line .rd .L, .wait 4, .line .cs .L, .wait 3, .spi 0x41#8 0x09#8 0x00#8 0 0 0x5A#8,
       .line .rd .H, .wait 4, .line .cs .H, .wait 3] ∧
    (after .bdReadByte (ready .input [ans 0x5A])).caller.returned = [.ok (.byte 0x5A#8)] := by decide

/-- R98, example: from direction Input. -/
theorem test_bdWriteByte :
    (after (.bdWriteByte 0x01#8) (ready .input [ans 0, ans 0])).trace =
      [.spi 0x40#8 0x00#8 0x00#8 0 0 0, .line .cs .L, .wait 3, .spi 0x40#8 0x09#8 0x01#8 0 0 0, .wait 1,
       .line .wr .L, .line .wr .H, .wait 5, .line .cs .H, .wait 3] := by decide

/-- R98, R159: failing at step (3), CS is left at L and WR is not pulsed. -/
theorem test_bdWriteByte_fails :
    (after (.bdWriteByte 0x01#8) (ready .output [.failed])).drv.lvl.cs = some .L ∧
    writePulses (after (.bdWriteByte 0x01#8) (ready .output [.failed])).trace = 0 := by decide

/-- R99, example: after a write that failed with CS at L. -/
theorem test_bdTeardown :
    let s := after (.bdWriteByte 0x01#8) (ready .output [.failed])
    (after .bdTeardown s).trace =
      s.trace ++ [.line .rd .H, .line .wr .H, .line .cs .H, .line .rst .H] ∧
    (after .bdTeardown s).ses.fault = s.ses.fault := ⟨rfl, rfl⟩

/-- V-E8: the second teardown is refused. -/
theorem test_bdTeardown_once :
    (after .bdTeardown (after .bdTeardown (ready .input []))).caller.returned = [.ok .unit, .refused .phase] := by
  decide

/-- R91, example. -/
theorem test_bdSetDir :
    (after (.bdSetDir .output) (ready .input [ans 0])).trace = [.spi 0x40#8 0x00#8 0x00#8 0 0 0] ∧
    (after (.bdSetDir .output) (ready .input [ans 0])).drv.dir = some .output := by decide

/-- R91, corner case: the cached direction emits nothing. -/
theorem test_bdSetDir_cached : (after (.bdSetDir .output) (ready .output [])).trace = [] := by decide

/-- R92, example and corner case. -/
theorem test_bdSetRd :
    (after (.bdSetRd .L) (ready .input [])).trace = [.line .rd .L, .wait 4] ∧
    (after (.bdSetRd .H) (ready .input [])).trace = [] := by decide

/-- R93, example. -/
theorem test_bdSetCs :
    (after (.bdSetCs .H) (after (.bdSetCs .L) (ready .input []))).trace =
      [.line .cs .L, .wait 3, .line .cs .H, .wait 3] := by decide

/-- R94, example. -/
theorem test_bdPulseWr :
    (after .bdPulseWr (ready .input [])).trace = [.wait 1, .line .wr .L, .line .wr .H, .wait 5] ∧
    (after .bdPulseWr (ready .input [])).cart = [] := by decide

/-- V-L5b: T_WR_LOW = 2. -/
theorem test_bdPulseWr_low_time :
    let s := ready .input []
    (after .bdPulseWr { s with world := { s.world with params := { s.world.params with tWrLow := 2 } } }).trace =
      [.wait 1, .line .wr .L, .wait 2, .line .wr .H, .wait 5] := by decide

/-- R89, example; R35: the register holds the byte. -/
theorem test_expWrite :
    (after (.expWrite 0x05#8 0x20#8) (ready .input [ans 0])).trace = [.spi 0x40#8 0x05#8 0x20#8 0 0 0] ∧
    (after (.expWrite 0x05#8 0x33#8) (ready .input [ans 0])).exp.iocon = 0x33#8 := by decide

/-- R90, example. -/
theorem test_expRead :
    (after (.expRead 0x09#8) (ready .input [ans 0x3C])).trace = [.spi 0x41#8 0x09#8 0x00#8 0 0 0x3C#8] ∧
    (after (.expRead 0x09#8) (ready .input [ans 0x3C])).caller.returned = [.ok (.byte 0x3C#8)] := by decide

/-- R109, example, and the write of a byte that the register did not hold. -/
theorem test_busWrite :
    addrsOf (after (.busWrite 0x2000#16 0x01#8) (writing [ans 0])).trace = [0x2000#16] ∧
    Memory.read (after (.busWrite 0x2000#16 0x01#8) (writing [ans 0])).cart 0x2000 = 0x01#8 ∧
    (after (.busWrite 0x2000#16 0x02#8) (writing [ans 0])).cart = [(0x2000, 0x02#8)] := by decide

/-- R108, example. -/
theorem test_busRead :
    (after (.busRead 0x0147#16) (ready .input [ans 0x01])).trace =
      .addr 0x0147#16 :: (after .bdReadByte (ready .input [ans 0x01])).trace := by decide

/-- V-H3: a short read at the window's end. -/
theorem test_hwRead :
    (after (.hwRead 4) (atPos 0x14F (ready .input [ans 0x77]))).caller.returned = [.ok (.bytes [0x77#8])] ∧
    (after (.hwRead 4) (atPos 0x14F (ready .input [ans 0x77]))).win.pos = 0x150 := by decide

/-- V-H14: the second frame fails; the first byte is not delivered. -/
theorem test_hwRead_fails :
    let t := after (.hwRead 2) (atPos 0x14E (ready .input [ans 0x77, .failed]))
    t.caller.returned = [.err (.busCommunication .headerDecode)] ∧ t.win.pos = 0x14F ∧ t.trace.length = 16 := by decide

/-- V-H2 and V-H8. -/
theorem test_hwSeek :
    (after (.hwSeek .start 0x14F) (ready .input [])).caller.returned = [.ok (.position 0x14F)] ∧
    (after (.hwSeek .fromEnd (-1)) (atPos 0x10 (ready .input []))).win.pos = 0x14F := by decide

/-- V-H10: rejected, the position stays and the session goes on. -/
theorem test_hwSeek_rejects :
    let t := after (.hwSeek .fromEnd (-0x151)) (atPos 0x10 (ready .input []))
    t.caller.returned = [.err (.addressRange (-1))] ∧ t.win.pos = 0x10 ∧ t.ses.phase = .headerPhase := by decide

/-- V-D2 and V-D11: the decoder's first read is at address 0, whatever the window's position was. -/
theorem test_dispatch :
    let t := after .dispatch (atPos 0x33 (decoding [.read 1] (.header (headerOf .mbc1Ram 0x20000)) (ready .input [ans 7])))
    t.rdr = some { variant := .mbc1, linear := 0, bank := 0#9, declared := 0x20000, header := headerOf .mbc1Ram 0x20000 } ∧
    t.ses.phase = .streaming ∧ addrsOf t.trace = [0x0000#16] := by decide

/-- V-D9: an address-range error passed up by the decoder. -/
theorem test_dispatch_fails :
    (after .dispatch (decoding [.seek .start 0x150] (.addressRange 0x150) (ready .input []))).ses =
      { phase := .ended, fault := some .headerDecode } := by decide

/-- V-R1, the example of R139. -/
theorem test_rdrRead :
    let t := after (.rdrRead 2) (streaming .mbc1 .mbc1 0x3FFF 0#9 0x20000
      [ans 0x11, ans 0, ans 0, ans 0, ans 0, ans 0x22])
    t.caller.returned = [.ok (.bytes [0x11#8, 0x22#8])] ∧
    t.rdr.map (fun r => (r.bank, r.linear)) = some (1#9, 0x4001) ∧
    addrsOf t.trace = [0x3FFF#16, 0x2000#16, 0x4000#16, 0x4000#16] := by decide

/-- V-R9: the second byte's frame fails. -/
theorem test_rdrRead_fails :
    let t := after (.rdrRead 3) (streaming .mbc1 .mbc1 0x10 0#9 0x20000 [ans 0x11, .failed])
    t.caller.returned = [.err (.busCommunication .dataTransfer)] ∧ t.rdr.map Reader.linear = some 0x11 := by decide

/-- V-R7. -/
theorem test_rdrSize :
    let s := decoding [] (.header (headerOf .romOnly 0x100000)) (ready .input [])
    (after .rdrSize (after .dispatch s)).caller.returned.getLast? = some (.ok (.size 0x8000)) := by decide

/-- V-R8. -/
theorem test_rdrStatus :
    (after .rdrStatus (streaming .mbc1 .mbc1 0x4001 1#9 0x20000 [])).caller.returned = [.ok (.status 1 0x4001)] ∧
    (after .rdrStatus (streaming .romOnly .romOnly 0x8000 0#9 0x8000 [])).caller.returned =
      [.ok (.status 0 0x8000)] := by decide

/-- R133, corner case: 0x21 writes 0x01 and 0x01. -/
theorem test_bankselMbc1 :
    (after (.bankselMbc1 0x21#8) (streaming .mbc1 .mbc1 0 0#9 0x20000 [ans 0, ans 0, ans 0])).cart =
      [(0x4000, 0x01#8)] := by decide

/-- V-N7. -/
theorem test_bankselMbc1_fails :
    (after (.bankselMbc1 0x21#8) (streaming .mbc1 .mbc1 0 0#9 0x20000 [ans 0, .failed])).trace =
      [.addr 0x2000#16, .spi 0x40#8 0x00#8 0x00#8 0 0 0, .line .cs .L, .wait 3, .spiFail 0x40#8 0x09#8 0x01#8] := by
  decide

/-- R134: counter 0x12 is written as 0x02. -/
theorem test_bankselMbc2 :
    (after (.bankselMbc2 0x12#8) (streaming .mbc2 .mbc2 0 0#9 0x40000 [ans 0, ans 0])).cart = [(0x2100, 0x02#8)] := by
  decide

/-- R135, example. -/
theorem test_bankselMbc3 :
    (after (.bankselMbc3 0x7F#8) (streaming (.mbc3Like 0) .mbc3 0 0#9 0x40000 [ans 0, ans 0])).cart =
      [(0x2000, 0x7F#8)] := by decide

/-- R136, example. -/
theorem test_bankselMbc5 :
    (after (.bankselMbc5 0x100#9) (streaming .mbc5 .mbc5 0 0#9 0x800000 [ans 0, ans 0, ans 0])).cart =
      [(0x2000, 0x00#8), (0x3000, 0x01#8)] := by decide

/-- R72: the frames of the emitted forms. -/
theorem test_frames :
    (after (.expWrIocon 0#3 0x20#8) (ready .input [ans 0])).trace = [.spi 0x40#8 0x05#8 0x20#8 0 0 0] ∧
    (after (.expWrIodir 0#3 0x00#8) (ready .input [ans 0])).exp.iodir = 0x00#8 ∧
    (after (.expWrGpio 0#3 0xA5#8) (ready .input [ans 0])).exp.gpio = 0xA5#8 ∧
    (after (.expRdGpio 0#3 0x00#8) (ready .input [ans 0x3C])).caller.returned = [.ok (.byte 0x3C#8)] := by decide

/-- R84, log 8: a word to another device, or with a byte the engine does not configure, is refused; of the read frame's
don't-care byte the engine sends DONT_CARE (R70). -/
theorem test_frames_of_no_form :
    after (.expWrGpio 5#3 0xA5#8) (ready .input [ans 0]) = refuse (ready .input [ans 0]) ∧
    after (.expWrIodir 0#3 0x0F#8) (ready .input [ans 0]) = refuse (ready .input [ans 0]) ∧
    after (.expWrIocon 0#3 0x21#8) (ready .input [ans 0]) = refuse (ready .input [ans 0]) ∧
    (after (.expRdGpio 0#3 0x7F#8) (ready .input [ans 0x3C])).trace = [.spi 0x41#8 0x09#8 0x00#8 0 0 0x3C#8] := by decide

/-- R37: the register that each bank-select write writes. -/
theorem test_bank_select_writes :
    (after (.buswMbc1SelLo 0x1F#5) (writing [ans 0])).cart = [(0x2000, 0x1F#8)] ∧
    (after (.buswMbc1SelHi 3#2) (writing [ans 0])).cart = [(0x4000, 0x03#8)] ∧
    (after (.buswMbc2Sel 0xA#4) (writing [ans 0])).cart = [(0x2100, 0x0A#8)] ∧
    (after (.buswMbc3Sel 0x7F#8) (writing [ans 0])).cart = [(0x2000, 0x7F#8)] ∧
    (after (.buswMbc5SelLo 0xFF#8) (writing [ans 0])).cart = [(0x2000, 0xFF#8)] ∧
    (after (.buswMbc5SelHi 1#1) (writing [ans 0])).cart = [(0x3000, 0x01#8)] := by decide

/-- R73. -/
theorem test_busr :
    addrsOf (after (.busr 0x6345#16) (ready .input [ans 0x42])).trace = [0x6345#16] ∧
    (after (.busr 0x6345#16) (ready .input [ans 0x42])).caller.returned = [.ok (.byte 0x42#8)] := by decide

/-! ## Admission (R34) -/

/-- V-E1, V-E3, V-E4, V-E5 and V-E6. -/
theorem test_admission :
    (after (.hwRead 1) (fresh [])).caller.returned = [.refused .phase] ∧
    (after .dispatch (fresh [])).caller.returned = [.refused .phase] ∧
    (after .rdrStatus (ready .input [])).caller.returned = [.refused .phase] ∧
    (after (.hwSeek .start 0) (streaming .mbc1 .mbc1 0 0#9 0x20000 [])).caller.returned = [.refused .phase] ∧
    (after .rdrSize ((streaming .mbc1 .mbc1 0 0#9 0x20000 []).faulted .headerDecode)).caller.returned =
      [.refused .sessionFaulted] := by decide

/-- V-E2, R20: before BD.INIT nothing but BD.INIT and BD.TEARDOWN runs; bus writes run in Streaming only. -/
theorem test_admission_of_writes :
    after (.expWrite 0x09#8 0xA5#8) (fresh [ans 0]) = refuse (fresh [ans 0]) ∧
    after (.expWrGpio 0#3 0xA5#8) (fresh [ans 0]) = refuse (fresh [ans 0]) ∧
    after (.busWrite 0x2000#16 1#8) (ready .output [ans 0]) = refuse (ready .output [ans 0]) ∧
    after (.buswMbc5SelHi 1#1) (ready .output [ans 0]) = refuse (ready .output [ans 0]) := by decide

/-! ## Memory (log 14) -/

theorem test_memory :
    Memory.write [(0x2000, 2#8), (0x4000, 2#8)] 0x3000 7#8 = [(0x2000, 2#8), (0x3000, 7#8), (0x4000, 2#8)] ∧
    Memory.write [(0x2000, 2#8), (0x4000, 2#8)] 0x2000 1#8 = [(0x4000, 2#8)] ∧
    Memory.read [(0x2100, 2#8)] 0x2100 = 2#8 ∧ Memory.read [(0x2100, 2#8)] 0x2000 = 1#8 ∧ Memory.read [] 0x2001 = 0#8 ∧
    Memory.wf [(0x4000, 1#8), (0x2000, 2#8)] = false ∧ Memory.wf [(0x10000, 1#8)] = false ∧
    Memory.wf [(0x2000, 1#8)] = false := by decide

/-- R102, log 14: at a strobe while RD and CS are at L the data lines carry no byte of the expander's. -/
theorem test_contention :
    let s := after (.bdSetCs .L) (after (.bdSetRd .L) (ready .output []))
    s.dataSeen = Config.undrivenData s.trace.length := rfl

/-! ## Witnesses: a state and operands that meet all hypotheses of each statement, clause by clause -/

theorem witness_DecodeOfEncodeIsTheInstruction :
    (Instr.hwSeek .start 0).operandsOk = true ∧ (Instr.bdInit).selectVariant = none ∧
    (Instr.buswMbc5SelHi 1#1).selectVariant = some .mbc5 := by decide

theorem witness_EncodeOfDecodeIsTheCall :
    decode none (.op 0x21#8 [0, 0]) = .ok (.hwSeek .start 0) ∧
    decode none (.frame 0x4000FF#24) = .ok (.expWrIodir 0#3 0xFF#8) ∧
    decode (some .mbc3) (.busWrite 0x200000#24) = .ok (.buswMbc3Sel 0x00#8) := by decide

theorem witness_StepRunsTheDecodedCall :
    let s := calling (.busWrite 0x200001#24) (streaming .mbc5 .mbc5 0 0#9 0x8000 [])
    s.caller.calls = [.busWrite 0x200001#24] ∧ decode s.variant (.busWrite 0x200001#24) = .ok (.buswMbc5SelLo 1#8) := by
  decide

theorem witness_StepIdlesWithoutACallAndRefusesWhatDoesNotDecode :
    (ready .input []).caller.calls = [] ∧
    (calling (.op 0x06#8 []) (ready .input [])).caller.calls = [.op 0x06#8 []] ∧
    decode (calling (.op 0x06#8 []) (ready .input [])).variant (.op 0x06#8 []) = .error .unknownCode := by decide

theorem witness_InitDrivesTheLinesAndConfiguresTheExpander :
    admits .init (fresh [ans 1, ans 2]) = true ∧ (fresh [ans 1, ans 2]).world.answer = .answered 0 0 1 ∧
    (fresh [ans 1, ans 2]).world.advance.answer = .answered 0 0 2 := by decide

theorem witness_InitStopsAtAFailedFrame :
    (admits .init (fresh [.failed]) = true ∧ (fresh [.failed]).world.answer = .failed) ∧
    admits .init (fresh [ans 1, .failed]) = true ∧ (fresh [ans 1, .failed]).world.answer = .answered 0 0 1 ∧
    (fresh [ans 1, .failed]).world.advance.answer = .failed := by decide

/-- The one hypothesis of BD.SET_ADDRESS, BD.SET_RD, BD.SET_CS and BD.PULSE_WR, in both phases that meet it. -/
theorem witness_transfer_admitted :
    admits .transfer (ready .input []) = true ∧ admits .transfer (streaming .mbc1 .mbc1 0 0#9 0x8000 []) = true := by
  decide

theorem witness_SetDirSendsAFrameOnlyOnATransition :
    (ready .input []).drv.dir = some .input ∧ (ready .input [ans 0]).drv.dir ≠ some .output ∧
    (ready .input [ans 0]).world.answer = .answered 0 0 0 := by decide

theorem witness_SetDirKeepsTheCacheWhenItsFrameFails :
    admits .transfer (ready .input [.failed]) = true ∧ (ready .input [.failed]).drv.dir ≠ some .output ∧
    (ready .input [.failed]).world.answer = .failed := by decide

theorem witness_WriteFramesAreExchangedOnce :
    writeFrameOf 0#3 (.expWrite 0x00#8 0xFF#8) = some (0#3, 0x00#8, 0xFF#8) ∧
    writeFrameOf 0#3 (.expWrIocon 0#3 0x20#8) = some (0#3, 0x05#8, 0x20#8) ∧
    admitted (.expWrite 0x00#8 0xFF#8) (ready .input [ans 0]) = true ∧
    admitted (.expWrIocon 0#3 0x20#8) (ready .input [ans 0]) = true ∧
    admitted (.expWrIodir 0#3 0x00#8) (writing [ans 0]) = true ∧
    admitted (.expWrGpio 0#3 0xFF#8) (writing [ans 0]) = true ∧
    (ready .input [ans 0]).world.answer = .answered 0 0 0 ∧ (writing [ans 0]).world.answer = .answered 0 0 0 := by decide

theorem witness_ReadFramesReturnTheThirdByte :
    readFrameOf 0#3 (.expRead 0xFF#8) = some (0#3, 0xFF#8, 0x00#8) ∧
    readFrameOf 0#3 (.expRdGpio 0#3 0x01#8) = some (0#3, 0x09#8, 0x00#8) ∧
    admitted (.expRead 0xFF#8) (ready .input [ans 9]) = true ∧
    admitted (.expRdGpio 0#3 0x01#8) (ready .input [ans 9]) = true ∧
    (ready .input [ans 9]).world.answer = .answered 0 0 9 := by decide

theorem witness_FailedFramesEndTheSession :
    let s := ready .input [.failed]
    s.world.answer = .failed ∧ writeFrameOf 0#3 (.expWrIodir 0#3 0xFF#8) = some (0#3, 0x00#8, 0xFF#8) ∧
    admitted (.expWrIodir 0#3 0xFF#8) s = true ∧ readFrameOf 0#3 (.expRdGpio 0#3 5#8) = some (0#3, 0x09#8, 0#8) ∧
    admitted (.expRdGpio 0#3 5#8) s = true := by decide

theorem witness_ReadCyclesReturnTheSampledByte :
    ReadCompletes (ready .input [ans 9]) 9#8 ((ready .input [ans 9]).readDone 0 0 9#8) ∧
    ReadCompletes ((ready .output [ans 1, ans 9]).addressed 0xFFFF#16) 9#8
      ((((ready .output [ans 1, ans 9]).addressed 0xFFFF#16).turned .input 0 0 1).readDone 0 0 9#8) ∧
    busReadOf (.busr 0xFFFF#16) = some 0xFFFF#16 :=
  ⟨.inl ⟨rfl, 0, 0, rfl, rfl⟩, .inr ⟨by decide, 0, 0, 1, 0, 0, rfl, rfl, rfl⟩, rfl⟩

theorem witness_WriteCyclesPulseWrOnce :
    let s := streaming .mbc5 .mbc5 0 0#9 0x8000 [ans 1, ans 9]
    admits .transfer (ready .output [ans 9]) = true ∧
    WriteCompletes (ready .output [ans 9]) 7#8 ((ready .output [ans 9]).writeDone 7#8 0 0 9) ∧
    admits .bankSelect s = true ∧ busWriteOf (.buswMbc5SelHi 1#1) = some (0x3000#16, 1#8) ∧
    WriteCompletes (s.addressed 0x3000#16) 1#8
      (((s.addressed 0x3000#16).turned .output 0 0 1).writeDone 1#8 0 0 9) :=
  ⟨rfl, .inl ⟨rfl, 0, 0, 9, rfl, rfl⟩, rfl, rfl, .inr ⟨by decide, 0, 0, 1, 0, 0, 9, rfl, rfl, rfl⟩⟩

theorem witness_SteadyStateSegmentsEventByEvent :
    StrobesIdle (ready .input [ans 1, ans 2]) ∧ StrobesIdle (ready .output [ans 1, ans 2]) ∧
    (ready .input [ans 1, ans 2]).drv.dir = some .input ∧ (ready .output [ans 1, ans 2]).drv.dir = some .output ∧
    (ready .input [ans 1, ans 2]).world.answer = .answered 0 0 1 ∧
    (ready .output [ans 1, ans 2]).world.advance.answer = .answered 0 0 2 := by decide

theorem witness_FailedReadLeavesTheStrobesLow :
    let i := ready .input [.failed]
    let o := ready .output [.failed]
    let a := ready .output [ans 1, .failed]
    admits .transfer i = true ∧ admits .transfer o = true ∧ admits .transfer a = true ∧
    ReadFails (directContext i) i (i.readFailed (directContext i)) ∧
    ReadFails (directContext o) (o.addressed 0#16) ((o.addressed 0#16).turnFailed (directContext o) .input) ∧
    ReadFails (directContext a) a ((a.turned .input 0 0 1).readFailed (directContext a)) ∧
    i.world.answer = .failed ∧ StrobesIdle i ∧ i.drv.dir = some .input ∧
    o.world.answer = .failed ∧ StrobesIdle o ∧ o.drv.dir ≠ some .input ∧
    a.world.answer = .answered 0 0 1 ∧ a.world.advance.answer = .failed ∧ StrobesIdle a :=
  ⟨rfl, rfl, rfl, .inl ⟨rfl, rfl, rfl⟩, .inr (.inl ⟨by decide, rfl, rfl⟩),
    .inr (.inr ⟨by decide, 0, 0, 1, rfl, rfl, rfl⟩), rfl, ⟨rfl, rfl, rfl⟩, rfl, rfl, ⟨rfl, rfl, rfl⟩, by decide, rfl, rfl,
    ⟨rfl, rfl, rfl⟩⟩

/-- With V-B11: the data frame fails after an answered direction frame. -/
theorem witness_FailedWriteLeavesChipSelectLowAndWrUnpulsed :
    let o := ready .output [.failed]
    let i := ready .input [.failed]
    let a := ready .input [ans 1, .failed]
    let b := streaming .mbc5 .mbc5 0 0#9 0x8000 [ans 1, .failed]
    admits .transfer o = true ∧ admits .transfer i = true ∧ admits .transfer a = true ∧ admits .bankSelect b = true ∧
    WriteFails (directContext o) o 7#8 (o.writeFailed (directContext o) 7#8) ∧
    WriteFails (directContext i) i 7#8 (i.turnFailed (directContext i) .output) ∧
    busWriteOf (.buswMbc1SelHi 3#2) = some (0x4000#16, 3#8) ∧
    WriteFails (directContext b) (b.addressed 0x4000#16) 3#8
      (((b.addressed 0x4000#16).turned .output 0 0 1).writeFailed (directContext b) 3#8) ∧
    o.world.answer = .failed ∧ StrobesIdle o ∧ o.drv.dir = some .output ∧
    i.world.answer = .failed ∧ StrobesIdle i ∧ i.drv.dir ≠ some .output ∧
    a.world.answer = .answered 0 0 1 ∧ a.world.advance.answer = .failed ∧ StrobesIdle a ∧ a.drv.dir ≠ some .output :=
  ⟨rfl, rfl, rfl, rfl, .inl ⟨rfl, rfl, rfl⟩, .inr (.inl ⟨by decide, rfl, rfl⟩), rfl,
    .inr (.inr ⟨by decide, 0, 0, 1, rfl, rfl, rfl⟩), rfl, ⟨rfl, rfl, rfl⟩, rfl, rfl, ⟨rfl, rfl, rfl⟩, by decide, rfl, rfl,
    ⟨rfl, rfl, rfl⟩, by decide⟩

theorem witness_TeardownReturnsEveryLineToIdle :
    (fresh []).drv.phase ≠ .tornDown ∧ (ready .input []).drv.phase ≠ .tornDown := by decide

theorem witness_BusWritesStoreAtTheirAddressOnly :
    let s := streaming .mbc5 .mbc5 0 0#9 0x8000 [ans 0, ans 0]
    let b := (ready .output [ans 0]).addressed 0x2000#16
    busWriteOf (.busWrite 0xFFFF#16 7#8) = some (0xFFFF#16, 7#8) ∧
    exec (.busWrite 0xFFFF#16 7#8) s = .next (after (.busWrite 0xFFFF#16 7#8) s) ∧
    admitted (.busWrite 0xFFFF#16 7#8) s = true ∧ s.ses.fault = none ∧
    (after (.busWrite 0xFFFF#16 7#8) s).ses.fault = none ∧ Memory.wf s.cart = true ∧ s.drv.dir ≠ some .output ∧
    b.drv.addr = some 0x2000#16 ∧ exec (.bdWriteByte 1#8) b = .next (after (.bdWriteByte 1#8) b) ∧
    admitted (.bdWriteByte 1#8) b = true ∧ b.ses.fault = none ∧ (after (.bdWriteByte 1#8) b).ses.fault = none ∧
    b.exp.iodir = b.world.params.dirOut ∧ Memory.wf b.cart = true :=
  ⟨rfl, rfl, rfl, rfl, rfl, rfl, by decide, rfl, rfl, rfl, rfl, rfl, rfl, rfl⟩

theorem witness_HwReadReturnsTheWindowsBytes :
    let s := atPos 0x14F (ready .input [ans 9])
    s.ses.phase = .headerPhase ∧ StrobesIdle s ∧ s.drv.dir = some .input ∧
    [((0x00#8 : Byte), (0x00#8 : Byte), (9#8 : Byte))].length = min 4 (0x150 - s.win.pos) ∧
    s.world.answerAt 0 = .answered 0 0 9 ∧
    ([] : List (Byte × Byte × Byte)).length = min 4 (0x150 - (atPos 0x150 s).win.pos) := by decide

theorem witness_HwReadIsShortOnlyAtTheWindowsEnd :
    let s := atPos 0x14E (ready .input [ans 9, .failed])
    s.ses.phase = .headerPhase ∧ exec (.hwRead 1) s = .next (after (.hwRead 1) s) ∧
    exec (.hwRead 2) s = .next (after (.hwRead 2) s) := ⟨rfl, rfl, rfl⟩

theorem witness_HwSeekMovesWithinTheWindowOnly :
    (ready .input []).ses.phase = .headerPhase ∧ ((0 : Int) ≤ 0x14F ∧ (0x14F : Int) < 0x150) ∧
    (0 ≤ (0x150 : Int) + -0x150 ∧ (0x150 : Int) + -0x150 < 0x150) ∧
    ¬(0 ≤ (0x150 : Int) ∧ (0x150 : Int) < 0x150) ∧
    ¬(0 ≤ ((ready .input []).win.pos : Int) + -1 ∧ ((ready .input []).win.pos : Int) + -1 < 0x150) := by decide

theorem witness_DispatchConstructsTheReaderOfTheTag :
    let s := decoding [.seek .start 0x14F] (.header (headerOf .romOnly 5)) (ready .input [])
    s.ses.phase = .headerPhase ∧
    runDecoder s.world.headerDecoder (atPos 0 s) = .ok (.header (headerOf .romOnly 5)) (atPos 0x14F s) ∧
    variantOf (headerOf .romOnly 5).mbcType = some .romOnly := ⟨rfl, rfl, rfl⟩

theorem witness_DispatchFailuresEndTheSession :
    let s := fun a => decoding [] a (ready .input [])
    let f := decoding [.read 1] .decodeError (ready .input [.failed])
    (runDecoder (s (.header (headerOf (.other 0xFC) 0))).world.headerDecoder (s (.header (headerOf (.other 0xFC) 0))) =
      .ok (.header (headerOf (.other 0xFC) 0)) (s (.header (headerOf (.other 0xFC) 0)))) ∧
    variantOf (headerOf (.other 0xFC) 0).mbcType = none ∧
    runDecoder (s .decodeError).world.headerDecoder (s .decodeError) = .ok .decodeError (s .decodeError) ∧
    (runDecoder (s (.addressRange 0x150)).world.headerDecoder (s (.addressRange 0x150)) =
      .ok (.addressRange 0x150) (s (.addressRange 0x150))) ∧
    runDecoder f.world.headerDecoder f = .err (.busCommunication .headerDecode) (runDecoder f.world.headerDecoder f).state :=
  ⟨rfl, rfl, rfl, rfl, rfl⟩

theorem witness_HeaderDecoderOnlyReadsTheWindow :
    (atPos 0x150 (ready .input [])).win.pos ≤ 0x150 ∧
    runDecoder (.answer .decodeError) (ready .input []) = .ok .decodeError (ready .input []) := by decide

/-- V-T: the translation at the boundaries of its clauses. -/
theorem witness_TranslateMapsIntoTheTwoWindows :
    Machine.translate 0x3FFF = 0x3FFF#16 ∧ Machine.translate 0x4000 = 0x4000#16 ∧ Machine.translate 0x7FFF = 0x7FFF#16 ∧
    Machine.translate 0x8000 = 0x4000#16 ∧ Machine.translate 0x12345 = 0x6345#16 ∧ Machine.translate 0x7FFFFF = 0x7FFF#16 := by decide

/-- V-N1, V-N3, V-N4 and V-N5: the next-bank functions at the ends of their ranges. -/
theorem witness_NextBankOfEachVariant :
    nextBank .mbc1 0xFF#9 = 0x00#9 ∧ nextBank .mbc1 0x1F#9 = 0x21#9 ∧ nextBank .mbc1 0x1E#9 = 0x1F#9 ∧
    nextBank .mbc2 0xFF#9 = 0x00#9 ∧ nextBank .mbc3 0xFF#9 = 0x00#9 ∧ nextBank .mbc5 0xFF#9 = 0x100#9 ∧
    nextBank .mbc5 0x1FF#9 = 0x000#9 := by decide

/-- V-N2: the ends of the four ranges of k. -/
theorem witness_Mbc1BankAfterSwitchesSkipsThree :
    bankAfter .mbc1 31 = 0x1F#9 ∧ bankAfter .mbc1 32 = 0x21#9 ∧ bankAfter .mbc1 62 = 0x3F#9 ∧
    bankAfter .mbc1 63 = 0x41#9 ∧ bankAfter .mbc1 93 = 0x5F#9 ∧ bankAfter .mbc1 94 = 0x61#9 := by decide +kernel

theorem witness_BankSelectSequencesWriteTheirRegisters :
    let s := streaming .mbc1 .mbc1 0 0#9 0x20000 [ans 0, ans 0, ans 0]
    let t := ((s.addressed 0x2000#16).turned .output 0 0 0).writeDone 0x01#8 0 0 0
    admits .bankSelect s = true ∧
    WriteCompletes (s.addressed 0x2000#16) (((0x21#8 : BitVec 8).extractLsb' 0 5).setWidth 8) t ∧
    WriteCompletes (t.addressed 0x4000#16) (((0x21#8 : BitVec 8).extractLsb' 5 2).setWidth 8)
      ((t.addressed 0x4000#16).writeDone 0x01#8 0 0 0) :=
  ⟨rfl, .inr ⟨by decide, 0, 0, 0, 0, 0, 0, rfl, rfl, rfl⟩, .inl ⟨rfl, 0, 0, 0, rfl, rfl⟩⟩

/-- MBC3: the data frame fails after an answered direction frame; MBC5: so it does at the first write, and the second
write fails after the first has completed. -/
theorem witness_BankSelectStopsAtItsFirstFailedWrite_mbc3_mbc5 :
    let m := streaming (.mbc3Like 0) .mbc3 0 0#9 0x20000 [ans 0, .failed]
    let f := streaming .mbc5 .mbc5 0 0#9 0x20000 [ans 0, .failed]
    let g := streaming .mbc5 .mbc5 0 0#9 0x20000 [ans 0, ans 0, .failed]
    let t := ((g.addressed 0x2000#16).turned .output 0 0 0).writeDone ((0x1FF#9 : BitVec 9).extractLsb' 0 8) 0 0 0
    admits .bankSelect m = true ∧ admits .bankSelect f = true ∧ admits .bankSelect g = true ∧
    WriteFails .bankSelect (m.addressed 0x2000#16) 0xFF#8
      (((m.addressed 0x2000#16).turned .output 0 0 0).writeFailed .bankSelect 0xFF#8) ∧
    WriteFails .bankSelect (f.addressed 0x2000#16) ((0x1FF#9 : BitVec 9).extractLsb' 0 8)
      (((f.addressed 0x2000#16).turned .output 0 0 0).writeFailed .bankSelect ((0x1FF#9 : BitVec 9).extractLsb' 0 8)) ∧
    WriteCompletes (g.addressed 0x2000#16) ((0x1FF#9 : BitVec 9).extractLsb' 0 8) t ∧
    WriteFails .bankSelect (t.addressed 0x3000#16) (((0x1FF#9 : BitVec 9).extractLsb' 8 1).setWidth 8)
      ((t.addressed 0x3000#16).writeFailed .bankSelect (((0x1FF#9 : BitVec 9).extractLsb' 8 1).setWidth 8)) :=
  ⟨rfl, rfl, rfl, .inr (.inr ⟨by decide, 0, 0, 0, rfl, rfl, rfl⟩), .inr (.inr ⟨by decide, 0, 0, 0, rfl, rfl, rfl⟩),
    .inr ⟨by decide, 0, 0, 0, 0, 0, 0, rfl, rfl, rfl⟩, .inl ⟨rfl, rfl, rfl⟩⟩

/-- V-N7 (MBC1), a second write that fails after the first has completed, and MBC2. -/
theorem witness_BankSelectStopsAtItsFirstFailedWrite :
    let s := fun (tag : MbcTag) (v : Variant) link => streaming tag v 0 0#9 0x20000 link
    let f := s .mbc1 .mbc1 [ans 0, .failed]
    let g := s .mbc1 .mbc1 [ans 0, ans 0, .failed]
    let t := ((g.addressed 0x2000#16).turned .output 0 0 0).writeDone 0x01#8 0 0 0
    let m := s .mbc2 .mbc2 [.failed]
    admits .bankSelect f = true ∧ admits .bankSelect g = true ∧ admits .bankSelect m = true ∧
    WriteFails .bankSelect (f.addressed 0x2000#16) 0x01#8
      (((f.addressed 0x2000#16).turned .output 0 0 0).writeFailed .bankSelect 0x01#8) ∧
    WriteCompletes (g.addressed 0x2000#16) 0x01#8 t ∧
    WriteFails .bankSelect (t.addressed 0x4000#16) 0x01#8 ((t.addressed 0x4000#16).writeFailed .bankSelect 0x01#8) ∧
    WriteFails .bankSelect (m.addressed 0x2100#16) 0x02#8 ((m.addressed 0x2100#16).turnFailed .bankSelect .output) ∧
    m.world.answer = .failed :=
  ⟨rfl, rfl, rfl, .inr (.inr ⟨by decide, 0, 0, 0, rfl, rfl, rfl⟩), .inr ⟨by decide, 0, 0, 0, 0, 0, 0, rfl, rfl, rfl⟩,
    .inl ⟨rfl, rfl, rfl⟩, .inr (.inl ⟨by decide, rfl, rfl⟩), rfl⟩

theorem witness_RdrReadDeliversTheNextBytes :
    let s := streaming .mbc1 .mbc1 0x3FFF 0#9 0x20000 (List.replicate 10 (ans 9))
    s.ses.phase = .streaming ∧ s.rdr.isSome = true ∧ OutputDriven s ∧ Memory.wf s.cart = true ∧
    0 < switches .mbc1 0x3FFF 2 ∧ ∀ k, k < 5 * 2 → s.world.answerAt k = .answered 0 0 9 := by decide

theorem witness_RdrReadFailsWhereItStands :
    let s := streaming .mbc1 .mbc1 0x10 0#9 0x20000 [ans 9, .failed]
    let b := streaming .mbc1 .mbc1 0x4000 0#9 0x20000 [.failed]
    exec (.rdrRead 3) s = .next (after (.rdrRead 3) s) ∧
    (after (.rdrRead 3) s).caller.returned = s.caller.returned ++ [.err (.busCommunication .dataTransfer)] ∧
    exec (.rdrRead 1) b = .next (after (.rdrRead 1) b) ∧
    (after (.rdrRead 1) b).caller.returned = b.caller.returned ++ [.err (.busCommunication .bankSelect)] :=
  ⟨rfl, rfl, rfl, rfl⟩

/-- V-E10: the end of the stream at a multiple of 0x4000. -/
theorem witness_RdrReadAtTheEndOfTheStreamTouchesNothing :
    (streaming .mbc1 .mbc1 0x8000 1#9 0x8000 []).ses.phase = .streaming ∧
    (streaming .mbc1 .mbc1 0x8000 1#9 0x8000 []).rdr.map (fun r => decide (r.declared ≤ r.linear)) = some true := by
  decide

theorem witness_RdrReadPulsesWrOnlyAtBoundaries :
    let s := streaming .mbc1 .mbc1 0x3FFF 0#9 0x20000 (List.replicate 6 (ans 9))
    s.drv.lvl.wr = some .H ∧ exec (.rdrRead 2) s = .next (after (.rdrRead 2) s) ∧
    (after (.rdrRead 2) s).caller.returned = s.caller.returned ++ [.ok (.bytes [9#8, 9#8])] := ⟨rfl, rfl, rfl⟩

/-- V-S6. -/
theorem witness_WholeStreamSwitchCount :
    switches .mbc1 0x3FFF 2 = 1 ∧ switches .romOnly 0x3FFF 2 = 0 ∧ switches .mbc3 0 2 = 0 := by decide

theorem witness_RdrSizeAndStatusOnlyReport :
    (streaming .mbc5 .mbc5 0 0#9 0 []).ses.phase = .streaming ∧ (streaming .mbc5 .mbc5 0 0#9 0 []).rdr.isSome = true := by
  decide

theorem witness_RefusedInstructionsChangeNothing :
    admitted .bdReadByte (fresh []) = false ∧ admitted .bdInit (ready .input []) = false ∧
    admitted (.bankselMbc1 0#8) (ready .input []) = false ∧ admitted (.expWrite 0x09#8 0#8) (fresh []) = false ∧
    admitted (.busWrite 0x2000#16 0#8) (ready .input []) = false ∧
    admitted (.expWrGpio 5#3 0#8) (ready .input []) = false ∧
    (fresh []).ses.phase = .preInit ∧ (ready .input []).ses.phase = .headerPhase ∧
    busWriteOf (.buswMbc5SelHi 1#1) = some (0x3000#16, 1#8) ∧ (writing []).ses.phase = .streaming ∧
    ((writing []).faulted .headerDecode).ses.phase = .ended ∧ (after .bdTeardown (writing [])).drv.phase = .tornDown ∧
    admits .init (fresh []) = true ∧ admits .teardown (fresh []) = true ∧ admits .transfer (ready .input []) = true ∧
    admits .bankSelect (writing []) = true := by decide

theorem witness_EndedSessionAdmitsOneTeardownOnly :
    ((ready .input []).faulted .headerDecode).ses.phase = .ended ∧ (after .bdTeardown (ready .input [])).ses.phase = .ended ∧
    (after .bdTeardown (ready .input [])).drv.phase = .tornDown := by decide

/-! ### States that meet the premises of the invariants -/

/-- After a BD.INIT with both frames answered. -/
def started : State := after .bdInit (fresh [ans 0, ans 0])

/-- A stream at its second bank. -/
def second : State := streaming .mbc1 .mbc1 0x4001 1#9 0x20000 []

theorem started_consistent : Consistent started where
  pre_init := by decide
  header_phase := by decide
  streaming := by decide
  torn_down := by decide
  window := by decide
  reader := by intro r h; cases h
  rst_high := by decide

theorem second_consistent : Consistent second where
  pre_init := by decide
  header_phase := by decide
  streaming := by decide
  torn_down := by decide
  window := by decide
  reader := by
    intro r h
    cases h
    exact ⟨rfl, rfl, by decide, by decide, by decide⟩
  rst_high := by decide

theorem faulted_consistent : Consistent (started.faulted .headerDecode) where
  pre_init := by decide
  header_phase := by decide
  streaming := by decide
  torn_down := by decide
  window := by decide
  reader := by intro r h; cases h
  rst_high := by decide

theorem started_honest : TraceHonest started where
  levels := by intro ln; cases ln <;> decide
  address := by decide
  iodir := by intro v h; cases h; rfl
  iocon := by intro v h; cases h; rfl
  gpio := by intro v h; cases h

theorem started_safe : SessionSafe started where
  honest := started_honest
  idle := by decide
  direction := fun _ => ⟨.input, by decide, by decide⟩
  no_contention := by
    intro p hp
    have h : ∀ q ∈ started.trace.inits, lastLine q .rd = some .L →
        lastWritten q started.world.expDev Config.regIodir = some started.world.params.dirIn := by decide
    exact h p ((List.mem_inits _ _).2 hp)

theorem witness_FaultIsStickyAndPhasesGoForward :
    Consistent (calling (.op 0x41#8 []) started) ∧
    step (calling (.op 0x41#8 []) started) = .next (stepped (calling (.op 0x41#8 []) started)) ∧
    Consistent (started.faulted .headerDecode) ∧ (started.faulted .headerDecode).ses.fault = some .headerDecode :=
  ⟨⟨started_consistent.1, started_consistent.2, started_consistent.3, started_consistent.4, started_consistent.5,
    started_consistent.6, started_consistent.7⟩, rfl, faulted_consistent, rfl⟩

theorem witness_ReaderOnlyMovesForward :
    Consistent second ∧ step second = .next (stepped second) ∧ second.rdr.isSome = true :=
  ⟨second_consistent, rfl, rfl⟩

theorem witness_TraceAndOutcomesOnlyGrow :
    step (calling (.op 0x05#8 []) started) = .next (stepped (calling (.op 0x05#8 []) started)) := rfl

theorem witness_InstructionsLeaveTheOtherPartsAlone :
    exec .rdrStatus second = .next (after .rdrStatus second) ∧ movesWindow .rdrStatus = false ∧
    changesReader .rdrStatus = false ∧ pulsesWr .rdrStatus = false ∧ offBus .rdrStatus = true := ⟨rfl, rfl, rfl, rfl, rfl⟩

theorem witness_StepKeepsTheStateConsistent :
    Consistent started ∧ step started = .next (stepped started) := ⟨started_consistent, rfl⟩

theorem witness_StepKeepsTheMemoryCanonical :
    let s := calling (.op 0x18#8 [0xFFFF, 7]) (streaming .mbc5 .mbc5 0 0#9 0x8000 [ans 0, ans 0])
    Memory.wf s.cart = true ∧ step s = .next (stepped s) := ⟨rfl, rfl⟩

theorem witness_StepKeepsTheCachesHonest :
    TraceHonest started ∧ step started = .next (stepped started) := ⟨started_honest, rfl⟩

theorem witness_StepKeepsTheBankOnTheStream : BankTracksStream second ∧ step second = .next (stepped second) :=
  ⟨by intro _ r h; cases h; decide, rfl⟩

theorem witness_SessionOperationsNeverCauseContention :
    isTransferStep (.hwSeek .start 0) = false ∧ isTransferStep (.bdReadByte) = false ∧
    isTransferStep (.buswMbc5SelHi 1#1) = false ∧ Consistent started ∧ SessionSafe started ∧
    exec (.hwSeek .start 0) started = .next (after (.hwSeek .start 0) started) ∧
    exec (.bdWriteByte 1#8) started = .next (after (.bdWriteByte 1#8) started) :=
  ⟨rfl, rfl, rfl, started_consistent, started_safe, rfl, rfl⟩

theorem witness_SessionOperationsStayConfined :
    Confined (fresh [ans 0, ans 0]) ∧ exec .bdInit (fresh [ans 0, ans 0]) = .next started :=
  ⟨⟨(by intro a h; cases h), (by intro _ _ _ _ _ _ h; cases h), (by intro _ _ _ h; cases h),
    (by intro q h; exact absurd (List.prefix_nil.1 h) (by simp)), (by intro c h; cases h)⟩, rfl⟩

/-- R100: three transfers from Input, of which the second turns the direction. -/
theorem witness_DirectionFramesAreCoalesced :
    let s := streaming .mbc5 .mbc5 0 0#9 0x8000 [ans 0, ans 0, ans 0, ans 0]
    let ops := [Instr.busRead 0x0147#16, .busWrite 0x2000#16 1#8, .bdWriteByte 2#8]
    ops.map transferDirection = [DataDirection.input, .output, .output].map some ∧ (∀ i ∈ ops, admitted i s = true) ∧
    s.ses.fault = none ∧ s.drv.dir = some .input ∧
    execAll ops s = .next (ops.foldl (fun x i => after i x) s) ∧
    (ops.foldl (fun x i => after i x) s).ses.fault = none ∧
    directionFrames (ops.foldl (fun x i => after i x) s).trace s.world.expDev = 1 :=
  ⟨rfl, by decide, rfl, rfl, rfl, rfl, rfl⟩

end Sys2Proof.Tests
end

section
/-! PROOFS of the statements of 00_scope.md: what a refused instruction does (R13, R34), what a failed frame does
(R152, R158), how far each instruction reaches into the state, and that the trace and the outcomes only grow. -/

namespace Sys2Proof.Machine

/-! ## Admission (R34, R84) -/

theorem admitted_iff (i : Instr) (s : State) :
    admitted i s = true ↔
      admits (admissionOf i) s = true ∧ i.engineFrame s.world.expDev s.world.params = true := by
  simp [admitted]

/-- Only the frame words have a second condition beside their row of the table. -/
theorem admits_of_not_admitted {i : Instr} {s : State} (hf : i.engineFrame s.world.expDev s.world.params = true)
    (h : admitted i s = false) : admits (admissionOf i) s = false := by
  simpa [admitted, hf] using h

theorem not_admitted_of_row {i : Instr} {s : State} (h : admits (admissionOf i) s = false) : admitted i s = false := by
  simp [admitted, h]

theorem admits_preInit {s : State} {k : Admission} (h : s.ses.phase = .preInit) (hi : k ≠ .init)
    (ht : k ≠ .teardown) : admits k s = false := by
  cases k <;> simp_all [admits, State.transferring]

theorem admits_headerPhase {s : State} {k : Admission} (h : s.ses.phase = .headerPhase)
    (hk : k = .init ∨ k = .reader ∨ k = .bankSelect) : admits k s = false := by
  rcases hk with rfl | rfl | rfl <;> simp [admits, h]

theorem admits_streaming {s : State} {k : Admission} (h : s.ses.phase = .streaming) (hk : k = .init ∨ k = .window) :
    admits k s = false := by
  rcases hk with rfl | rfl <;> simp [admits, h]

theorem admits_ended {s : State} {k : Admission} (h : s.ses.phase = .ended) (ht : k ≠ .teardown) :
    admits k s = false := by
  cases k <;> simp_all [admits, State.transferring]

theorem admits_init_iff (s : State) : admits .init s = true ↔ s.ses.phase = .preInit ∧ s.drv.phase = .unowned := by
  simp [admits]

theorem admits_teardown_iff (s : State) : admits .teardown s = true ↔ s.drv.phase ≠ .tornDown := by
  simp [admits]

theorem admits_transfer_iff (s : State) :
    admits .transfer s = true ↔ s.drv.phase = .ready ∧ (s.ses.phase = .headerPhase ∨ s.ses.phase = .streaming) := by
  simp [admits, State.transferring]

theorem admits_bankSelect_iff (s : State) :
    admits .bankSelect s = true ↔ s.drv.phase = .ready ∧ s.ses.phase = .streaming := by
  simp [admits]

/-! BD.INIT and BD.TEARDOWN have a row of their own, and every bus write cycle has the row of BUS.WRITE. -/

theorem admissionOf_ne_init {i : Instr} (h : i ≠ .bdInit) : admissionOf i ≠ .init := by
  cases i <;> simp_all [admissionOf]

theorem admissionOf_ne_teardown {i : Instr} (h : i ≠ .bdTeardown) : admissionOf i ≠ .teardown := by
  cases i <;> simp_all [admissionOf]

theorem admissionOf_busWrite {i : Instr} {w : Addr × Byte} (h : busWriteOf i = some w) :
    admissionOf i = .bankSelect := by
  cases i <;> simp_all [busWriteOf, admissionOf]

/-! ## Refusals (R13) -/

theorem issueIf_refused {α : Type} {b : Bool} {value : α → OpValue} {body : State → Res α} {s : State}
    (h : b = false) : issueIf b value body s = .next (s.returning (.refused (refusedWhy s))) := by
  rw [h, issueIf_false]

theorem issueReader_refused {α : Type} {value : α → OpValue} {body : Reader → State → Res α} {s : State}
    (h : admits .reader s = false) : issueReader value body s = .next (s.returning (.refused (refusedWhy s))) := by
  simp only [issueReader, h]
  rfl

/-- R13, R161: admission comes first, so an instruction that is not admitted only tells the caller so. -/
theorem exec_refused {i : Instr} {s : State} (h : admitted i s = false) :
    exec i s = .next (s.returning (.refused (refusedWhy s))) := by
  cases i with
  | expWrIocon d v | expWrIodir d v | expWrGpio d v | expRdGpio d x => exact issueIf_refused h
  | rdrRead n | rdrSize | rdrStatus => exact issueReader_refused (admits_of_not_admitted rfl h)
  | _ => exact issue_refused (admits_of_not_admitted rfl h)

/-- An instruction whose row of the table is closed is refused. -/
theorem exec_refused_of_row {i : Instr} {s : State} (h : admits (admissionOf i) s = false) :
    exec i s = .next (s.returning (.refused (refusedWhy s))) :=
  exec_refused (not_admitted_of_row h)

/-! ## Frames (R89, R90, R152) -/

/-- An admitted write frame is EXP.WRITE of its register and byte, in whichever format the caller issued it. -/
theorem exec_writeFrame {i : Instr} {s : State} {d : BitVec 3} {r v : Byte}
    (hf : writeFrameOf s.world.expDev i = some (d, r, v)) (ha : admitted i s = true) :
    exec i s = .next (finish noValue (expWrite (directContext s) r v s)) := by
  obtain ⟨hrow, hown⟩ := (admitted_iff i s).1 ha
  cases i with
  | expWrite r' v' => cases hf; exact issue_admitted hrow
  | expWrIocon d' v' | expWrIodir d' v' | expWrGpio d' v' => cases hf; exact issueFrame_admitted hrow hown
  | _ => cases hf

/-- An admitted read frame is EXP.READ of its register, which sends DONT_CARE. -/
theorem exec_readFrame {i : Instr} {s : State} {d : BitVec 3} {r x : Byte}
    (hf : readFrameOf s.world.expDev i = some (d, r, x)) (ha : admitted i s = true) :
    x = Config.dontCare ∧ exec i s = .next (finish .byte (expRead (directContext s) r s)) := by
  obtain ⟨hrow, hown⟩ := (admitted_iff i s).1 ha
  cases i with
  | expRead r' => cases hf; exact ⟨rfl, issue_admitted hrow⟩
  | expRdGpio d' x' => cases hf; exact ⟨rfl, issueFrame_admitted hrow hown⟩
  | _ => cases hf

theorem expWrite_failed {ctx : BusContext} {r v : Byte} {s : State} (h : s.world.answer = .failed) :
    expWrite ctx r v s = .err (.busCommunication ctx)
      ({ s with
        world := s.world.advance
        trace := s.trace ++ [Event.spiFail (writeCommand s.world.expDev) r v] }.faulted (.busCommunication ctx)) := by
  rw [expWrite, xfer_failed h, Res.bind_err]

theorem expRead_failed {ctx : BusContext} {r : Byte} {s : State} (h : s.world.answer = .failed) :
    expRead ctx r s = .err (.busCommunication ctx)
      ({ s with
        world := s.world.advance
        trace := s.trace ++ [Event.spiFail (readCommand s.world.expDev) r Config.dontCare] }.faulted
          (.busCommunication ctx)) := by
  rw [expRead, xfer_failed h, Res.bind_err]

/-! ## Footprints: which parts of the state an operation may change -/

/-- The parts of the state that an operation may change: the window, the reader, the cartridge's bytes, and the bus with
all that stands on it (driver, trace, expander, oracle). -/
structure Footprint where
  window : Bool
  reader : Bool
  cart : Bool
  bus : Bool

/-- The footprint that the predicates of Safety.lean give an instruction. -/
def footprintOf (i : Instr) : Footprint :=
  { window := movesWindow i, reader := changesReader i, cart := pulsesWr i, bus := !offBus i }

/-- From `s` to `t` nothing outside the footprint has changed. -/
structure Within (f : Footprint) (s t : State) : Prop where
  window : f.window = false → t.win = s.win
  reader : f.reader = false → t.rdr = s.rdr
  cart : f.cart = false → t.cart = s.cart
  bus : f.bus = false → t.drv = s.drv ∧ t.trace = s.trace ∧ t.exp = s.exp ∧ t.world = s.world

namespace Within

variable {f : Footprint} {s t u : State}

theorem refl (f : Footprint) (s : State) : Within f s s :=
  ⟨fun _ => rfl, fun _ => rfl, fun _ => rfl, fun _ => ⟨rfl, rfl, rfl, rfl⟩⟩

theorem trans (h : Within f s t) (k : Within f t u) : Within f s u where
  window hw := (k.window hw).trans (h.window hw)
  reader hr := (k.reader hr).trans (h.reader hr)
  cart hc := (k.cart hc).trans (h.cart hc)
  bus hb := by
    obtain ⟨hd, ht, he, hw⟩ := h.bus hb
    obtain ⟨kd, kt, ke, kw⟩ := k.bus hb
    exact ⟨kd.trans hd, kt.trans ht, ke.trans he, kw.trans hw⟩

theorem bind {α β : Type} {r : Res α} {g : α → State → Res β} (h : Within f s r.state)
    (k : ∀ v t, Within f t (g v t).state) : Within f s (r.bind g).state :=
  Res.bind_keeps (Within f s) r g h fun v t _ ht => ht.trans (k v t)

/-- A change of the bus that stores nothing in the cartridge. -/
theorem of_bus (hb : f.bus = true) (hw : t.win = s.win) (hr : t.rdr = s.rdr) (hc : t.cart = s.cart) :
    Within f s t :=
  ⟨fun _ => hw, fun _ => hr, fun _ => hc, fun h => absurd h (by simp [hb])⟩

/-- A change of the bus that may store a byte in the cartridge. -/
theorem of_bus_store (hb : f.bus = true) (hc : f.cart = true) (hw : t.win = s.win) (hr : t.rdr = s.rdr) :
    Within f s t :=
  ⟨fun _ => hw, fun _ => hr, fun h => absurd h (by simp [hc]), fun h => absurd h (by simp [hb])⟩

theorem withPos (hw : f.window = true) (s : State) (p : Nat) : Within f s (s.withPos p) :=
  ⟨fun h => absurd h (by simp [hw]), fun _ => rfl, fun _ => rfl, fun _ => ⟨rfl, rfl, rfl, rfl⟩⟩

/-- The session's phase and fault are in no footprint. -/
theorem withPhase (f : Footprint) (s : State) (p : SessionPhase) : Within f s (s.withPhase p) :=
  ⟨fun _ => rfl, fun _ => rfl, fun _ => rfl, fun _ => ⟨rfl, rfl, rfl, rfl⟩⟩

theorem takeError (f : Footprint) (s : State) (e : EngineError) : Within f s (s.takeError e) := by
  constructor <;> simp

/-- A change of the reader alone: R24, R25, R26. -/
theorem of_reader (hr : f.reader = true) {x : Option Reader} (h : t = { s with rdr := x }) : Within f s t := by
  subst h
  exact ⟨fun _ => rfl, fun h => absurd h (by simp [hr]), fun _ => rfl, fun _ => ⟨rfl, rfl, rfl, rfl⟩⟩

end Within

/-! ## The footprint of each operation -/

section
variable {f : Footprint}

theorem xfer_within (hb : f.bus = true) (ctx : BusContext) (t0 t1 t2 : Byte) (s : State) :
    Within f s (xfer ctx t0 t1 t2 s).state := by
  rcases s.world.answer_cases with ⟨r0, r1, r2, h⟩ | h
  · rw [xfer_answered h]; exact .of_bus hb rfl rfl rfl
  · rw [xfer_failed h]; exact .of_bus hb rfl rfl rfl

theorem expWrite_within (hb : f.bus = true) (ctx : BusContext) (r v : Byte) (s : State) :
    Within f s (expWrite ctx r v s).state :=
  (xfer_within hb _ _ _ _ _).bind fun _ _ => .refl _ _

theorem expRead_within (hb : f.bus = true) (ctx : BusContext) (r : Byte) (s : State) :
    Within f s (expRead ctx r s).state :=
  (xfer_within hb _ _ _ _ _).bind fun _ _ => .refl _ _

theorem setDir_within (hb : f.bus = true) (ctx : BusContext) (d : DataDirection) (s : State) :
    Within f s (setDir ctx d s).state := by
  rcases setDir_cases ctx d s with ⟨-, h⟩ | ⟨-, r0, r1, r2, -, h⟩ | ⟨-, -, h⟩ <;> rw [h]
  · exact .refl f s
  · exact .of_bus hb rfl rfl rfl
  · exact .of_bus hb rfl rfl rfl

theorem settle_within (hb : f.bus = true) (ln : Line) (l : Level) (t : Nat) (s : State) :
    Within f s (settle ln l t s) := by
  rw [settle_eq]
  exact .of_bus hb rfl rfl rfl

theorem pulseWr_within (hb : f.bus = true) (hc : f.cart = true) (s : State) : Within f s (pulseWr s) := by
  rw [pulseWr_eq]
  exact .of_bus_store hb hc rfl rfl

theorem forceIdle_within (hb : f.bus = true) (s : State) : Within f s (forceIdle s) := .of_bus hb rfl rfl rfl

theorem initDriver_within (hb : f.bus = true) (hw : f.window = true) (s : State) :
    Within f s (initDriver s).state :=
  .bind ((forceIdle_within hb s).trans (expWrite_within hb _ _ _ _)) fun _ _ =>
    .bind (expWrite_within hb _ _ _ _) fun _ t => by
      have ready : Within f t (((t.withDir .input).withDriverPhase .ready).withPhase .headerPhase) :=
        .of_bus hb rfl rfl rfl
      exact ready.trans (.withPos hw _ 0)

theorem teardown_within (hb : f.bus = true) (s : State) : Within f s (teardown s) := .of_bus hb rfl rfl rfl

theorem setAddress_within (hb : f.bus = true) (a : Addr) (s : State) : Within f s (setAddress a s) :=
  .of_bus hb rfl rfl rfl

theorem readByte_within (hb : f.bus = true) (ctx : BusContext) (s : State) : Within f s (readByte ctx s).state := by
  cases h : readByte ctx s with
  | ok b t =>
    have k := readByte_ok h
    exact .of_bus hb k.same.win k.same.rdr k.cart
  | err e t =>
    obtain ⟨-, k⟩ := readByte_err h
    exact .of_bus hb k.same.win k.same.rdr k.cart

theorem writeByte_within (hb : f.bus = true) (hc : f.cart = true) (ctx : BusContext) (v : Byte) (s : State) :
    Within f s (writeByte ctx v s).state := by
  cases h : writeByte ctx v s with
  | ok u t =>
    have k := writeByte_ok h
    exact .of_bus_store hb hc k.same.win k.same.rdr
  | err e t =>
    obtain ⟨-, k⟩ := writeByte_err h
    exact .of_bus_store hb hc k.same.win k.same.rdr

theorem busRead_within (hb : f.bus = true) (ctx : BusContext) (a : Addr) (s : State) :
    Within f s (busRead ctx a s).state :=
  (setAddress_within hb a s).trans (readByte_within hb ctx _)

theorem busWrite_within (hb : f.bus = true) (hc : f.cart = true) (ctx : BusContext) (a : Addr) (v : Byte)
    (s : State) : Within f s (busWrite ctx a v s).state :=
  (setAddress_within hb a s).trans (writeByte_within hb hc ctx v _)

theorem windowRead_within (hb : f.bus = true) (hw : f.window = true) (n : Nat) (s : State) :
    Within f s (windowRead n s).state := by
  induction n generalizing s with
  | zero => exact .refl f s
  | succ n ih =>
    rw [windowRead]
    split
    · exact .refl f s
    · exact .bind (busRead_within hb _ _ _) fun _ t =>
        .bind ((Within.withPos hw t _).trans (ih _)) fun _ u => .refl f u

/-- R116: a seek moves the position or is rejected; it does not touch the bus. -/
theorem windowSeek_within (hw : f.window = true) (whence : Whence) (off : Int) (s : State) :
    Within f s (windowSeek whence off s).state := by
  rcases windowSeek_cases whence off s with ⟨-, h⟩ | ⟨-, h⟩ <;> rw [h]
  · exact .withPos hw s _
  · exact .refl f s

theorem windowAct_within (hb : f.bus = true) (hw : f.window = true) (w : WindowAct) (s : State) :
    Within f s (windowAct w s).state := by
  cases w with
  | read n => exact .bind (windowRead_within hb hw n s) fun _ t => .refl f t
  | seek whence off =>
    have h := windowSeek_within hw whence off s
    rcases windowSeek_cases whence off s with ⟨-, k⟩ | ⟨-, k⟩ <;> simpa [windowAct, k] using h

theorem runDecoder_within (hb : f.bus = true) (hw : f.window = true) (d : HeaderDecoder) (s : State) :
    Within f s (runDecoder d s).state := by
  induction d generalizing s with
  | answer a => exact .refl f s
  | act w k ih =>
    have h := windowAct_within hb hw w s
    rw [runDecoder]
    cases hr : windowAct w s with
    | ok a t => rw [hr] at h; exact h.trans (ih a t)
    | err e t => rw [hr] at h; exact h

theorem constructReader_within (hr : f.reader = true) (a : DecodeAnswer) (s : State) :
    Within f s (constructReader a s).state := by
  cases a with
  | header h =>
    rw [constructReader]
    split
    · exact (Within.of_reader hr rfl).trans (.withPhase f _ .streaming)
    · exact .takeError f s _
  | decodeError => exact .takeError f s _
  | addressRange x => exact .takeError f s _

theorem dispatchWith_within (hb : f.bus = true) (hw : f.window = true) (hr : f.reader = true) (d : HeaderDecoder)
    (s : State) : Within f s (dispatchWith d s).state :=
  .bind ((Within.withPos hw s 0).trans (runDecoder_within hb hw d _)) fun a t => constructReader_within hr a t

theorem selectOf_within (hb : f.bus = true) (hc : f.cart = true) (v : Variant) (b : BitVec 9) (s : State) :
    Within f s (selectOf v b s).state := by
  cases v with
  | romOnly => exact .refl f s
  | mbc1 | mbc5 => exact .bind (busWrite_within hb hc _ _ _ s) fun _ t => busWrite_within hb hc _ _ _ t
  | mbc2 | mbc3 => exact busWrite_within hb hc _ _ _ s

theorem switchBank_within (hb : f.bus = true) (hc : f.cart = true) (hr : f.reader = true) (r : Reader) (s : State) :
    Within f s (switchBank r s).state := by
  unfold switchBank
  split
  · exact (Within.of_reader hr rfl).trans (selectOf_within hb hc _ _ _)
  · exact .refl f s

theorem streamByte_within (hb : f.bus = true) (hc : f.cart = true) (hr : f.reader = true) (r : Reader) (s : State) :
    Within f s (streamByte r s).state :=
  .bind (switchBank_within hb hc hr r s) fun _ _ =>
    .bind (busRead_within hb _ _ _) fun _ _ => .of_reader hr rfl

theorem streamRead_within (hb : f.bus = true) (hc : f.cart = true) (hr : f.reader = true) (n : Nat) (s : State) :
    Within f s (streamRead n s).state := by
  induction n generalizing s with
  | zero => exact .refl f s
  | succ n ih =>
    rw [streamRead]
    split
    · exact .refl f s
    · split
      · exact .bind (streamByte_within hb hc hr _ s) fun _ t => .bind (ih t) fun _ u => .refl f u
      · exact .refl f s

/-! ## The footprint of each instruction -/

/-- How an operation of footprint `f` ends: a state within the footprint, and one outcome for the caller. -/
abbrev EndsWithin (f : Footprint) (s : State) (o : Host.Outcome State Fault Refusal) : Prop :=
  ∃ u r, Within f s u ∧ o = .next (u.deliver r)

theorem issueIf_within {α : Type} {admitted : Bool} {value : α → OpValue} {body : State → Res α} {s : State}
    (h : Within f s (body s).state) : EndsWithin f s (issueIf admitted value body s) := by
  cases admitted
  · exact ⟨s, _, .refl f s, rfl⟩
  · exact ⟨_, _, h, rfl⟩

theorem issue_within {α : Type} {k : Admission} {value : α → OpValue} {body : State → Res α} {s : State}
    (h : Within f s (body s).state) : EndsWithin f s (issue k value body s) :=
  issueIf_within h

theorem issue_always_within {k : Admission} {g : State → State} {s : State} (h : Within f s (g s)) :
    EndsWithin f s (issue k noValue (always g) s) :=
  issue_within (body := always g) h

theorem issueReader_within {α : Type} {value : α → OpValue} {body : Reader → State → Res α} {s : State}
    (h : ∀ r, Within f s (body r s).state) : EndsWithin f s (issueReader value body s) := by
  unfold issueReader
  split
  · split
    · exact ⟨_, _, h _, rfl⟩
    · exact ⟨s, _, .refl f s, rfl⟩
  · exact ⟨s, _, .refl f s, rfl⟩

end

/-- Every instruction ends within its footprint. -/
theorem exec_endsWithin (i : Instr) (s : State) : EndsWithin (footprintOf i) s (exec i s) := by
  cases i with
  | bdInit => exact issue_within (initDriver_within rfl rfl s)
  | bdSetAddress a => exact issue_always_within (setAddress_within rfl a s)
  | bdReadByte => exact issue_within (readByte_within rfl _ s)
  | bdWriteByte v => exact issue_within (writeByte_within rfl rfl _ v s)
  | bdTeardown => exact issue_always_within (teardown_within rfl s)
  | bdSetDir d => exact issue_within (setDir_within rfl _ d s)
  | bdSetRd l => exact issue_always_within (settle_within rfl .rd l _ s)
  | bdSetCs l => exact issue_always_within (settle_within rfl .cs l _ s)
  | bdPulseWr => exact issue_always_within (pulseWr_within rfl rfl s)
  | expWrite r v => exact issue_within (expWrite_within rfl _ r v s)
  | expRead r => exact issue_within (expRead_within rfl _ r s)
  | busRead a | busr a => exact issue_within (busRead_within rfl _ a s)
  | hwRead n => exact issue_within (windowRead_within rfl rfl n s)
  | hwSeek w off => exact issue_within (windowSeek_within rfl w off s)
  | dispatch => exact issue_within (dispatchWith_within rfl rfl rfl _ s)
  | rdrRead n => exact issueReader_within fun _ => streamRead_within rfl rfl rfl n s
  | rdrSize | rdrStatus => exact issueReader_within fun _ => .refl _ s
  | bankselMbc1 b | bankselMbc5 b =>
    exact issue_within (.bind (busWrite_within rfl rfl _ _ _ s) fun _ t => busWrite_within rfl rfl _ _ _ t)
  | expWrIocon d v | expWrIodir d v | expWrGpio d v => exact issueIf_within (expWrite_within rfl _ _ v s)
  | expRdGpio d x => exact issueIf_within (expRead_within rfl _ _ s)
  | busWrite a v => exact issue_within (busWrite_within rfl rfl _ a v s)
  | bankselMbc2 b | bankselMbc3 b | buswMbc1SelLo b | buswMbc1SelHi b | buswMbc2Sel b | buswMbc3Sel b
  | buswMbc5SelLo b | buswMbc5SelHi b => exact issue_within (busWrite_within rfl rfl _ _ _ s)

theorem exec_within {i : Instr} {s t : State} (h : exec i s = .next t) : Within (footprintOf i) s t := by
  obtain ⟨u, r, hw, hu⟩ := exec_endsWithin i s
  obtain rfl : u.deliver r = t := Host.Outcome.next.inj (hu.symm.trans h)
  exact ⟨hw.window, hw.reader, hw.cart, hw.bus⟩

/-- R7: no instruction changes the parameters of the step, nor takes a call off the caller's list. -/
theorem exec_keeps_parameters {i : Instr} {s t : State} (h : exec i s = .next t) :
    t.world.expDev = s.world.expDev ∧ t.world.params = s.world.params ∧ t.world.decoder = s.world.decoder ∧
      t.caller.calls = s.caller.calls := by
  obtain ⟨u, r, hreach, hu⟩ := exec_ends i s
  obtain rfl : u.deliver r = t := Host.Outcome.next.inj (hu.symm.trans h)
  obtain ⟨hcaller, hdev, hparams, hdecoder⟩ := hreach.caller
  exact ⟨hdev, hparams, hdecoder, by rw [State.deliver_caller_calls, hcaller]⟩

/-! ## The trace (R11, R12) -/

/-- R12: a small step appends to the trace or leaves it. -/
theorem Micro.trace_grows {s t : State} (h : Micro s t) : s.trace <+: t.trace := by
  cases h with
  | line | wait | addr | answered | failed => exact List.prefix_append _ _
  | strobe =>
    unfold State.strobeWrite
    split <;> exact List.prefix_rfl
  | dir => exact List.prefix_rfl
  | inner _ _ hi => rw [hi]

theorem Reach.trace_grows {s t : State} (h : Reach s t) : s.trace <+: t.trace :=
  h.keeps (P := fun x => s.trace <+: x.trace) (fun _ _ hm hp => hp.trans hm.trace_grows) List.prefix_rfl

/-! ## The statements -/

/-- Settles O5. -/
theorem stepRunsTheDecodedCall : Obligations.StepRunsTheDecodedCall := by
  intro s c rest i hcalls hdecode
  simp only [step, hcalls, hdecode]

/-- Settles O7: an instruction is small steps, which leave the caller alone, and then one outcome (`exec_ends`). -/
theorem everyInstructionEndsInANextState : Obligations.EveryInstructionEndsInANextState := by
  intro i s
  obtain ⟨u, r, hreach, hexec⟩ := exec_ends i s
  obtain ⟨hcaller, -⟩ := hreach.caller
  exact ⟨u.deliver r, r, hexec, by rw [State.deliver_caller_returned, hcaller]⟩

/-- Settles O19: every frame form is one EXP.WRITE or EXP.READ, and that is one exchange. -/
theorem failedFramesEndTheSession : Obligations.FailedFramesEndTheSession := by
  intro i s d r v hfail
  refine ⟨fun hf ha => ⟨directContext s, ?_⟩, fun hf ha => ⟨directContext s, ?_⟩⟩
  · rw [exec_writeFrame hf ha, expWrite_failed hfail, finish_err]
  · obtain ⟨rfl, hexec⟩ := exec_readFrame hf ha
    rw [hexec, expRead_failed hfail, finish_err]

/-- Settles O46: an instruction that is not admitted is refused (`exec_refused`), and in each phase the rows of R34's
table that are closed there are the ones named. -/
theorem refusedInstructionsChangeNothing : Obligations.RefusedInstructionsChangeNothing := by
  refine ⟨fun i s h => exec_refused h, ?preInit, ?headerPhase, ?streaming, ?ended, ?tornDown, ?rows⟩
  case preInit =>
    intro s hp i hi ht
    exact exec_refused_of_row (admits_preInit hp (admissionOf_ne_init hi) (admissionOf_ne_teardown ht))
  case headerPhase =>
    intro s hp
    have closed : ∀ i, admissionOf i = .init ∨ admissionOf i = .reader ∨ admissionOf i = .bankSelect →
        exec i s = .next (s.returning (.refused (refusedWhy s))) :=
      fun i hk => exec_refused_of_row (admits_headerPhase hp hk)
    exact ⟨closed _ (.inl rfl), fun _ => closed _ (.inr (.inl rfl)), closed _ (.inr (.inl rfl)),
      closed _ (.inr (.inl rfl)), fun _ => closed _ (.inr (.inr rfl)), fun _ => closed _ (.inr (.inr rfl)),
      fun _ => closed _ (.inr (.inr rfl)), fun _ => closed _ (.inr (.inr rfl)),
      fun i _ _ hw => closed i (.inr (.inr (admissionOf_busWrite hw)))⟩
  case streaming =>
    intro s hp
    have closed : ∀ i, admissionOf i = .init ∨ admissionOf i = .window →
        exec i s = .next (s.returning (.refused (refusedWhy s))) :=
      fun i hk => exec_refused_of_row (admits_streaming hp hk)
    exact ⟨closed _ (.inl rfl), fun _ => closed _ (.inr rfl), fun _ _ => closed _ (.inr rfl), closed _ (.inr rfl)⟩
  case ended =>
    intro s hp i ht
    exact exec_refused_of_row (admits_ended hp (admissionOf_ne_teardown ht))
  case tornDown =>
    intro s hp
    exact exec_refused_of_row (i := .bdTeardown) (by simp [admissionOf, admits, hp])
  case rows =>
    exact fun s => ⟨admits_init_iff s, admits_teardown_iff s, admits_transfer_iff s, admits_bankSelect_iff s⟩

/-- Settles O51: a step is small steps, which only append to the trace, and then one more outcome (`step_ends`). -/
theorem traceAndOutcomesOnlyGrow : Obligations.TraceAndOutcomesOnlyGrow := by
  intro s t h
  rcases step_ends s t h with rfl | ⟨rest, u, r, hreach, rfl⟩
  · exact ⟨List.prefix_rfl, List.prefix_rfl⟩
  · obtain ⟨hcaller, -⟩ := hreach.caller
    refine ⟨hreach.trace_grows, ?_⟩
    rw [State.deliver_caller_returned, hcaller]
    exact List.prefix_append _ _

/-- Settles O52: an instruction stays within its footprint (`exec_within`) and keeps the parameters of the step
(`exec_keeps_parameters`). -/
theorem instructionsLeaveTheOtherPartsAlone : Obligations.InstructionsLeaveTheOtherPartsAlone := by
  intro i s t h
  have hw := exec_within h
  exact ⟨hw.window, hw.reader, hw.cart, fun hoff => hw.bus (by simp [footprintOf, hoff]), exec_keeps_parameters h⟩

end Sys2Proof.Machine
end

section
/-! PROOFS of the statements of 10_state.md, first part: what the header decoder and RDR.READ do over their whole run
(R120, R121, R139, R148, R149). -/

namespace Sys2Proof.Machine

/-! ## The header decoder (R120) -/

/-- What the window operations of a decoder do, whether they complete or fail: they move the position inside the
window and drive addresses below its end, and leave the reader, the caller, the cartridge, the driver's phase, WR and
RST alone. -/
structure WindowOnly (s t : State) : Prop where
  pos : s.win.pos ≤ Config.hdrEnd → t.win.pos ≤ Config.hdrEnd
  rdr : t.rdr = s.rdr
  caller : t.caller = s.caller
  cart : t.cart = s.cart
  phase : t.drv.phase = s.drv.phase
  wr : t.drv.lvl.wr = s.drv.lvl.wr
  rst : t.drv.lvl.rst = s.drv.lvl.rst
  addrs : ∃ as : List Addr, addrsOf t.trace = addrsOf s.trace ++ as ∧ ∀ a ∈ as, a.toNat < Config.hdrEnd

theorem WindowOnly.refl (s : State) : WindowOnly s s :=
  ⟨id, rfl, rfl, rfl, rfl, rfl, rfl, [], by simp, by simp⟩

theorem WindowOnly.trans {s t u : State} (h : WindowOnly s t) (k : WindowOnly t u) : WindowOnly s u := by
  obtain ⟨as, has, hlt⟩ := h.addrs
  obtain ⟨bs, hbs, klt⟩ := k.addrs
  refine ⟨k.pos ∘ h.pos, k.rdr.trans h.rdr, k.caller.trans h.caller, k.cart.trans h.cart, k.phase.trans h.phase,
    k.wr.trans h.wr, k.rst.trans h.rst, as ++ bs, by rw [hbs, has, List.append_assoc], fun a ha => ?_⟩
  exact (List.mem_append.1 ha).elim (hlt a) (klt a)

/-- Consecutive window addresses up to the window's end lie below it. -/
theorem window_addresses_lt {p m : Nat} (h : m ≠ 0 → p + m ≤ Config.hdrEnd) :
    ∀ a ∈ (List.range' p m).map (BitVec.ofNat 16), a.toNat < Config.hdrEnd := by
  intro a ha
  obtain ⟨k, hk, rfl⟩ := List.mem_map.1 ha
  have hbound := h (by rintro rfl; simp at hk)
  simp only [List.mem_range'_1, BitVec.toNat_ofNat, Config.hdrEnd] at *
  omega

theorem WindowOk.windowOnly {n : Nat} {s t : State} {bs : List Byte} (h : WindowOk n s bs t) : WindowOnly s t := by
  have hlen := h.length
  have hpos := h.pos
  refine ⟨fun _ => by omega, h.rdr, h.caller, h.cart, h.phase, h.wr, h.rst, _, h.addrs, ?_⟩
  exact window_addresses_lt (by omega)

theorem WindowErr.windowOnly {n : Nat} {s t : State} (h : WindowErr n s t) : WindowOnly s t := by
  have hge := h.pos_ge
  obtain ⟨hlt, -⟩ := h.pos_lt
  refine ⟨fun _ => hlt.le, h.rdr, h.caller, h.cart, h.phase, h.wr, h.rst, _, h.addrs, ?_⟩
  exact window_addresses_lt (by omega)

theorem WindowOnly.withPos {s : State} {p : Nat} (h : p ≤ Config.hdrEnd) : WindowOnly s (s.withPos p) :=
  ⟨fun _ => h, rfl, rfl, rfl, rfl, rfl, rfl, [], by simp, by simp⟩

/-- R120: a window operation of the decoder that answers it. -/
theorem windowAct_ok {w : WindowAct} {a : WindowAnswer} {s t : State} (h : windowAct w s = .ok a t) :
    WindowOnly s t ∧ t.ses = s.ses := by
  cases w with
  | read n =>
    obtain ⟨bs, u, hr, hu⟩ := (Res.bind_eq_ok _ _ _ _).1 h
    cases hu
    have k := windowRead_ok _ _ _ _ hr
    exact ⟨k.windowOnly, k.ses⟩
  | seek whence off =>
    rcases windowSeek_cases whence off s with ⟨hl, k⟩ | ⟨-, k⟩ <;> simp only [windowAct, k] at h <;> cases h
    · exact ⟨.withPos (seekLegal_lt hl).le, rfl⟩
    · exact ⟨.refl _, rfl⟩

/-- R120, R160: a window operation of the decoder that ends it: only a read does, and only at a failed exchange. -/
theorem windowAct_err {w : WindowAct} {e : EngineError} {s t : State} (h : windowAct w s = .err e t) :
    e = .busCommunication .headerDecode ∧ WindowOnly s t ∧ t.ses = busFault .headerDecode := by
  cases w with
  | read n =>
    rcases (Res.bind_eq_err _ _ _ _).1 h with hr | ⟨bs, u, -, hu⟩
    · obtain ⟨rfl, k⟩ := windowRead_err _ _ _ _ hr
      exact ⟨rfl, k.windowOnly, k.ses⟩
    · cases hu
  | seek whence off =>
    rcases windowSeek_cases whence off s with ⟨-, k⟩ | ⟨-, k⟩ <;> simp only [windowAct, k] at h <;> cases h

/-- R120: a decoder that answers has only read the window, and the session is as it was. -/
theorem runDecoder_ok {d : HeaderDecoder} {a : DecodeAnswer} {s t : State} (h : runDecoder d s = .ok a t) :
    WindowOnly s t ∧ t.ses = s.ses := by
  induction d generalizing s with
  | answer b => cases h; exact ⟨.refl _, rfl⟩
  | act w k ih =>
    rw [runDecoder] at h
    cases hw : windowAct w s with
    | err e u => simp [hw] at h
    | ok b u =>
      rw [hw] at h
      obtain ⟨h1, hs1⟩ := windowAct_ok hw
      obtain ⟨h2, hs2⟩ := ih b h
      exact ⟨h1.trans h2, hs2.trans hs1⟩

/-- R120, R160: a decoder that does not answer has been ended by a failed exchange of a window read. -/
theorem runDecoder_err {d : HeaderDecoder} {e : EngineError} {s t : State} (h : runDecoder d s = .err e t) :
    e = .busCommunication .headerDecode ∧ WindowOnly s t ∧ t.ses = busFault .headerDecode := by
  induction d generalizing s with
  | answer b => cases h
  | act w k ih =>
    rw [runDecoder] at h
    cases hw : windowAct w s with
    | err e' u =>
      rw [hw] at h
      cases h
      exact windowAct_err hw
    | ok b u =>
      rw [hw] at h
      obtain ⟨h1, -⟩ := windowAct_ok hw
      obtain ⟨he, h2, hs⟩ := ih b h
      exact ⟨he, h1.trans h2, hs⟩

theorem runDecoder_windowOnly (d : HeaderDecoder) (s : State) : WindowOnly s (runDecoder d s).state := by
  cases h : runDecoder d s with
  | ok a t => exact (runDecoder_ok h).1
  | err e t => exact (runDecoder_err h).2.1

/-- Settles O32: every run of a decoder is window operations (`runDecoder_windowOnly`), and one that answers keeps the
session (`runDecoder_ok`). -/
theorem headerDecoderOnlyReadsTheWindow : Obligations.HeaderDecoderOnlyReadsTheWindow := by
  intro d s hpos
  have h := runDecoder_windowOnly d s
  exact ⟨h.pos hpos, h.rdr, h.caller, h.cart, h.phase, h.wr, h.rst, fun a u hu => (runDecoder_ok hu).2, h.addrs⟩

/-- Settles O30: a header with a reader's tag makes the second branch of `constructReader`, which raises nothing. -/
theorem dispatchConstructsTheReaderOfTheTag : Obligations.DispatchConstructsTheReaderOfTheTag := by
  intro s s1 h v hphase hrun hv
  have hbody : dispatchWith s.world.headerDecoder s =
      .ok (Reader.fresh v h) ((s1.withReader (Reader.fresh v h)).withPhase .streaming) := by
    rw [dispatchWith, State.withPos, hrun, Res.bind_ok, constructReader, hv]
  have hadmits : admits .window s = true := by simp [admits, hphase]
  show issue .window .reader _ s = _
  rw [issue_admitted hadmits, hbody, finish_ok]
  rfl

/-! ## RDR.READ (R139, R148, R149) -/

/-- R139: the reader after `m` bytes: the position moved past them and the counter stepped at each boundary. -/
def Reader.advanced (r : Reader) (m : Nat) : Reader :=
  { r with linear := r.linear + m, bank := (nextBank r.variant)^[switches r.variant r.linear m] r.bank }

/-- R139: the reader after one byte. -/
def Reader.next (r : Reader) : Reader := { r with linear := r.linear + 1, bank := r.bankAt }

/-- The switches of a stretch are that of its first byte, if it stands at a boundary, and those of the rest. -/
theorem switches_succ (v : Variant) (lin m : Nat) :
    switches v lin (m + 1) = switches v (lin + 1) m + if trigger v lin then 1 else 0 := by
  simp [switches, List.range'_succ, List.countP_cons]

/-- The switches of a stretch are those before its last byte and that of its last byte. -/
theorem switches_succ_last (v : Variant) (lin m : Nat) :
    switches v lin (m + 1) = switches v lin m + if trigger v (lin + m) then 1 else 0 := by
  simp [switches, List.range'_1_concat, List.countP_append, List.countP_cons]

theorem Reader.next_advanced (r : Reader) (m : Nat) : r.next.advanced m = r.advanced (m + 1) := by
  have hlin : r.linear + 1 + m = r.linear + (m + 1) := by omega
  by_cases h : trigger r.variant r.linear
  · simp [Reader.advanced, Reader.next, Reader.bankAt, switches_succ, hlin, h]
  · simp [Reader.advanced, Reader.next, Reader.bankAt, switches_succ, hlin, h]

/-- R149: the counter at byte `m` has taken the steps of every boundary up to and including that byte. -/
theorem Reader.bankAt_advanced (r : Reader) (m : Nat) :
    (r.advanced m).bankAt = (nextBank r.variant)^[switches r.variant r.linear (m + 1)] r.bank := by
  by_cases h : trigger r.variant (r.linear + m)
  · simp [Reader.advanced, Reader.bankAt, switches_succ_last, h, Function.iterate_succ_apply']
  · simp [Reader.advanced, Reader.bankAt, switches_succ_last, h]

theorem streamAddrs_succ (v : Variant) (lin m : Nat) :
    streamAddrs v lin (m + 1) = byteAddrs v lin ++ streamAddrs v (lin + 1) m := by
  simp [streamAddrs, List.range'_succ]

theorem streamRead_succ {s : State} {r : Reader} (n : Nat) (hr : s.rdr = some r) :
    streamRead (n + 1) s =
      if r.linear < r.declared then
        (streamByte r s).bind fun b s1 => (streamRead n s1).bind fun bs s2 => .ok (b :: bs) s2
      else .ok [] s := by
  simp [streamRead, hr]

/-- What a completed RDR.READ n leaves. -/
structure StreamReadOk (r : Reader) (n : Nat) (s : State) (bs : List Byte) (t : State) : Prop where
  length : bs.length = min n (r.declared - r.linear)
  rdr : t.rdr = some (r.advanced bs.length)
  win : t.win = s.win
  ses : t.ses = s.ses
  caller : t.caller = s.caller
  phase : t.drv.phase = s.drv.phase
  rst : t.drv.lvl.rst = s.drv.lvl.rst
  data : dataRead t.trace s.world.expDev = dataRead s.trace s.world.expDev ++ bs
  addrs : addrsOf t.trace = addrsOf s.trace ++ streamAddrs r.variant r.linear bs.length
  written : dataWritten t.trace s.world.expDev = dataWritten s.trace s.world.expDev ++
    (streamWrites r.variant r.bank r.linear bs.length).map Prod.snd
  stored : OutputDriven s → t.cart = Memory.writeAll s.cart (streamWrites r.variant r.bank r.linear bs.length)

theorem Memory.writeAll_append (m : Memory) (ws ws' : List (Addr × Byte)) :
    Memory.writeAll m (ws ++ ws') = Memory.writeAll (Memory.writeAll m ws) ws' :=
  List.foldl_append

theorem StreamReadOk.nothing {r : Reader} {n : Nat} {s : State} (hr : s.rdr = some r)
    (h : n = 0 ∨ ¬r.linear < r.declared) : StreamReadOk r n s [] s :=
  ⟨by simp only [List.length_nil]; omega, hr, rfl, rfl, rfl, rfl, rfl, by simp, by simp [streamAddrs],
   by simp [streamWrites], fun _ => rfl⟩

/-- One byte of the stream and then a completed read of `n`. -/
theorem StreamReadOk.cons {r : Reader} {n : Nat} {s t u : State} {b : Byte} {bs : List Byte}
    (hlt : r.linear < r.declared) (h : StreamOk r s b t) (k : StreamReadOk r.next n t bs u) :
    StreamReadOk r (n + 1) s (b :: bs) u := by
  have hdata := k.data
  have hwritten := k.written
  rw [h.expDev] at hdata hwritten
  refine ⟨?_, ?_, k.win.trans h.win, k.ses.trans h.ses, k.caller.trans h.caller, k.phase.trans h.phase,
    k.rst.trans h.rst, ?_, ?_, ?_, fun ho => ?_⟩
  · have hlen := k.length
    simp only [Reader.next, List.length_cons] at hlen ⊢
    omega
  · rw [k.rdr, Reader.next_advanced, List.length_cons]
  · rw [hdata, h.data, List.append_assoc, List.singleton_append]
  · rw [k.addrs, h.addrs, List.append_assoc, List.length_cons, streamAddrs_succ]
    rfl
  · rw [hwritten, h.written, List.append_assoc, List.length_cons, streamWrites_succ, List.map_append]
    rfl
  · obtain ⟨hdriven, hcart⟩ := h.stored ho
    rw [k.stored hdriven, hcart, List.length_cons, streamWrites_succ, Memory.writeAll_append]
    rfl

theorem streamRead_ok {n : Nat} {r : Reader} {s t : State} {bs : List Byte} (hr : s.rdr = some r)
    (h : streamRead n s = .ok bs t) : StreamReadOk r n s bs t := by
  induction n generalizing r s bs with
  | zero => cases h; exact .nothing hr (.inl rfl)
  | succ n ih =>
    rw [streamRead_succ n hr] at h
    split at h
    next hlt =>
      obtain ⟨b, s1, h1, h2⟩ := (Res.bind_eq_ok _ _ _ _).1 h
      obtain ⟨bs', s2, h3, h4⟩ := (Res.bind_eq_ok _ _ _ _).1 h2
      cases h4
      have k := streamByte_ok hr h1
      exact .cons hlt k (ih k.rdr h3)
    next hlt => cases h; exact .nothing hr (.inr hlt)

/-- What an RDR.READ n leaves that fails at its byte `m`. -/
structure StreamReadErr (r : Reader) (n m : Nat) (s : State) (e : EngineError) (t : State) : Prop where
  lt : m < n
  inside : r.linear + m < r.declared
  rdr : t.rdr = some { r.advanced m with bank := (r.advanced m).bankAt }
  context :
    (e = .busCommunication .bankSelect ∧ trigger r.variant (r.linear + m) = true ∧
      ∃ p, p ≠ [] ∧ p <+: selectAddrs r.variant ∧
        addrsOf t.trace = addrsOf s.trace ++ streamAddrs r.variant r.linear m ++ p) ∨
    (e = .busCommunication .dataTransfer ∧
      addrsOf t.trace = addrsOf s.trace ++ streamAddrs r.variant r.linear m ++ byteAddrs r.variant (r.linear + m))
  data : ∃ bs, bs.length = m ∧ dataRead t.trace s.world.expDev = dataRead s.trace s.world.expDev ++ bs
  ses : t.ses = { phase := .ended, fault := some e }
  win : t.win = s.win
  caller : t.caller = s.caller
  phase : t.drv.phase = s.drv.phase
  rst : t.drv.lvl.rst = s.drv.lvl.rst

/-- A read that fails at its first byte. -/
theorem StreamErr.readErr {r : Reader} {s t : State} {e : EngineError} (n : Nat) (hlt : r.linear < r.declared)
    (h : StreamErr r s e t) : StreamReadErr r (n + 1) 0 s e t :=
  ⟨n.succ_pos, hlt, h.rdr, by simpa [streamAddrs] using h.context, ⟨[], rfl, by simpa using h.data⟩, h.ses, h.win,
   h.caller, h.phase, h.rst⟩

/-- One byte of the stream and then a read that fails. -/
theorem StreamReadErr.cons {r : Reader} {n m : Nat} {s t u : State} {b : Byte} {e : EngineError}
    (h : StreamOk r s b t) (k : StreamReadErr r.next n m t e u) : StreamReadErr r (n + 1) (m + 1) s e u := by
  have hlin : r.next.linear + m = r.linear + (m + 1) := by simp only [Reader.next]; omega
  have haddrs : addrsOf t.trace ++ streamAddrs r.next.variant r.next.linear m =
      addrsOf s.trace ++ streamAddrs r.variant r.linear (m + 1) := by
    rw [h.addrs, streamAddrs_succ, List.append_assoc]; rfl
  refine ⟨by have := k.lt; omega, hlin ▸ k.inside, ?_, ?_, ?_, k.ses, k.win.trans h.win,
    k.caller.trans h.caller, k.phase.trans h.phase, k.rst.trans h.rst⟩
  · rw [k.rdr, Reader.next_advanced]
  · have hc := k.context
    rwa [haddrs, hlin] at hc
  · obtain ⟨bs, hlen, hdata⟩ := k.data
    rw [h.expDev] at hdata
    exact ⟨b :: bs, by simp [hlen], by rw [hdata, h.data, List.append_assoc, List.singleton_append]⟩

theorem streamRead_err {n : Nat} {r : Reader} {s t : State} {e : EngineError} (hr : s.rdr = some r)
    (h : streamRead n s = .err e t) : ∃ m, StreamReadErr r n m s e t := by
  induction n generalizing r s with
  | zero => cases h
  | succ n ih =>
    rw [streamRead_succ n hr] at h
    split at h
    next hlt =>
      rcases (Res.bind_eq_err _ _ _ _).1 h with h1 | ⟨b, s1, h1, h2⟩
      · exact ⟨0, (streamByte_err hr h1).readErr n hlt⟩
      · have k := streamByte_ok hr h1
        rcases (Res.bind_eq_err _ _ _ _).1 h2 with h3 | ⟨bs, s2, -, h4⟩
        · obtain ⟨m, km⟩ := ih k.rdr h3
          exact ⟨m + 1, .cons k km⟩
        · cases h4
    next => cases h

/-- A read of `n` bytes whose next `5 n` exchanges are answered completes. -/
theorem streamRead_progress {n : Nat} {r : Reader} {s : State} (hr : s.rdr = some r)
    (h : ∀ k, k < 5 * n → ∃ r0 r1 r2, s.world.answerAt k = .answered r0 r1 r2) :
    ∃ bs t, streamRead n s = .ok bs t := by
  induction n generalizing r s with
  | zero => exact ⟨[], s, rfl⟩
  | succ n ih =>
    rw [streamRead_succ n hr]
    split
    · obtain ⟨b, s1, m, hm, h1, hworld⟩ := streamByte_progress (r := r) fun k hk => h k (by omega)
      obtain ⟨bs, t, h2⟩ := ih (streamByte_ok hr h1).rdr fun k hk => by
        rw [hworld, World.answerAt_add]
        exact h (k + m) (by omega)
      exact ⟨b :: bs, t, by rw [h1, Res.bind_ok, h2, Res.bind_ok]⟩
    · exact ⟨[], s, rfl⟩

/-! ## The bank-select registers after a boundary (R37, R130) -/

/-- The writes of a stretch are those before its last byte and, at a boundary, those of its last byte. -/
theorem streamWrites_succ_last (v : Variant) (b : BitVec 9) (lin m : Nat) :
    streamWrites v b lin (m + 1) = streamWrites v b lin m ++
      if trigger v (lin + m) then selectWrites v ((nextBank v)^[switches v lin (m + 1)] b) else [] := by
  simp [streamWrites, List.range_succ]

theorem Memory.wf_writeAll (m : Memory) (ws : List (Addr × Byte)) (h : Memory.wf m = true) :
    Memory.wf (Memory.writeAll m ws) = true := by
  induction ws generalizing m with
  | nil => exact h
  | cons w ws ih => exact ih _ (Memory.wf_write m w.1 w.2 h)

/-- The registers of one bank switch are different addresses, so each holds the byte that the switch wrote to it. -/
theorem read_selectWrites {m : Memory} (v : Variant) (b : BitVec 9) (h : Memory.wf m = true) :
    ∀ w ∈ selectWrites v b, Memory.read (Memory.writeAll m (selectWrites v b)) w.1.toNat = w.2 := by
  have one : ∀ (a : Addr) (x : Byte), Memory.read (Memory.writeAll m [(a, x)]) a.toNat = x :=
    fun a x => Memory.read_write_self a.toNat x h
  have two : ∀ (a a' : Addr) (x x' : Byte), a.toNat ≠ a'.toNat → ∀ w ∈ [(a, x), (a', x')],
      Memory.read (Memory.writeAll m [(a, x), (a', x')]) w.1.toNat = w.2 := by
    intro a a' x x' hne w hw
    simp only [List.mem_cons, List.not_mem_nil, or_false] at hw
    rcases hw with rfl | rfl
    · exact (Memory.read_write_other _ _ _ _ hne).trans (one a x)
    · exact Memory.read_write_self _ _ (Memory.wf_write m a x h)
  cases v with
  | romOnly => simp [selectWrites]
  | mbc1 => exact two _ _ _ _ (by decide)
  | mbc5 => exact two _ _ _ _ (by decide)
  | mbc2 | mbc3 => simpa [selectWrites] using one _ _

/-- R37, R130: once a stretch of the stream has crossed a boundary, the bank-select registers hold the fields of the
counter that it leaves. -/
theorem read_streamWrites {mem : Memory} {v : Variant} {b : BitVec 9} {lin m : Nat} (hwf : Memory.wf mem = true)
    (h : 0 < switches v lin m) :
    ∀ w ∈ selectWrites v ((nextBank v)^[switches v lin m] b),
      Memory.read (Memory.writeAll mem (streamWrites v b lin m)) w.1.toNat = w.2 := by
  induction m with
  | zero => simp [switches] at h
  | succ m ih =>
    rw [streamWrites_succ_last]
    by_cases ht : trigger v (lin + m)
    · rw [if_pos ht, Memory.writeAll_append]
      exact read_selectWrites v _ (Memory.wf_writeAll mem _ hwf)
    · simp only [switches_succ_last, ht, Bool.false_eq_true, if_false, Nat.add_zero, List.append_nil] at h ⊢
      exact ih h

theorem exec_rdrRead {s : State} {r : Reader} (n : Nat) (hphase : s.ses.phase = .streaming) (hr : s.rdr = some r) :
    exec (.rdrRead n) s = .next (finish .bytes (streamRead n s)) := by
  have hadmits : admits .reader s = true := by simp [admits, hphase]
  show issueReader _ _ s = _
  simp only [issueReader, hadmits, hr, if_true]

/-- Settles O40: the read completes (`streamRead_progress`), byte by byte (`streamRead_ok`), and the registers hold the
fields of the last counter written (`read_streamWrites`). -/
theorem rdrReadDeliversTheNextBytes : Obligations.RdrReadDeliversTheNextBytes := by
  intro s r n hphase hr hanswers
  obtain ⟨bs, t, hread⟩ := streamRead_progress hr hanswers
  have k := streamRead_ok hr hread
  refine ⟨t.returning (.ok (.bytes bs)), bs, ?_, ?_, k.length, k.data, k.rdr, k.addrs, k.written, k.stored, ?_, k.win,
    k.ses, k.phase, k.rst, ?_⟩
  · rw [exec_rdrRead n hphase hr, hread, finish_ok]
  · simp [State.returning, k.caller]
  · intro ho hwf hcrossed r' hr' w hw
    obtain rfl : r.advanced bs.length = r' := Option.some.inj (k.rdr.symm.trans hr')
    show Memory.read t.cart _ = _
    rw [k.stored ho]
    exact read_streamWrites hwf hcrossed w hw
  · simp [State.returning, k.caller]

/-- Settles O41: an error in the caller's list is that of the streaming read, which stops at one byte
(`streamRead_err`). -/
theorem rdrReadFailsWhereItStands : Obligations.RdrReadFailsWhereItStands := by
  intro s t r n e hphase hr hexec hret
  rw [exec_rdrRead n hphase hr] at hexec
  cases hread : streamRead n s with
  | ok bs u =>
    have k := streamRead_ok hr hread
    rw [hread] at hexec
    cases hexec
    simp [State.returning, k.caller] at hret
  | err e' u =>
    obtain ⟨m, k⟩ := streamRead_err hr hread
    rw [hread] at hexec
    cases hexec
    obtain rfl : e' = e := by simpa [State.returning, k.caller] using hret
    refine ⟨k.ses, m, k.lt, k.inside, k.data, k.context, ?_⟩
    rw [← Reader.bankAt_advanced]
    exact k.rdr

end Sys2Proof.Machine
end

section
/-! PROOFS of the statements of 10_state.md, second part: what a step does to the session, the window and the reader
(R20-R32, R131, R158, R183). -/

namespace Sys2Proof.Machine

/-! ## The counter of a reader (R26, R131) -/

/-- R26, R131: a counter in its variant's width and, for MBC1, at no skipped value. -/
structure BankInRange (v : Variant) (b : BitVec 9) : Prop where
  lt : b.toNat < 2 ^ bankWidth v
  skips : v = .mbc1 → b ≠ 0x20#9 ∧ b ≠ 0x40#9 ∧ b ≠ 0x60#9

/-- R131: MBC1's next bank is none of the skipped ones: where the successor would be, it takes two steps. -/
theorem nextBank1_skips (b : BitVec 8) :
    (nextBank1 b).setWidth 9 ≠ 0x20#9 ∧ (nextBank1 b).setWidth 9 ≠ 0x40#9 ∧ (nextBank1 b).setWidth 9 ≠ 0x60#9 := by
  unfold nextBank1
  split <;> bv_omega

theorem nextBank_inRange {v : Variant} {b : BitVec 9} (h : BankInRange v b) : BankInRange v (nextBank v b) := by
  have narrow : ∀ x : BitVec 8, (x.setWidth 9).toNat < 2 ^ 8 := fun x => by simp; omega
  cases v with
  | romOnly => exact h
  | mbc1 => exact ⟨narrow _, fun _ => nextBank1_skips _⟩
  | mbc2 => exact ⟨narrow _, nofun⟩
  | mbc3 => exact ⟨narrow _, nofun⟩
  | mbc5 => exact ⟨BitVec.isLt _, nofun⟩

theorem iterate_nextBank_inRange {v : Variant} {b : BitVec 9} (k : Nat) (h : BankInRange v b) :
    BankInRange v ((nextBank v)^[k] b) := by
  induction k with
  | zero => exact h
  | succ k ih =>
    rw [Function.iterate_succ_apply']
    exact nextBank_inRange ih

/-- A reader moved inside its stream, its counter stepped any number of times, is consistent where it was. -/
theorem Reader.Consistent.moved {r : Reader} {lin : Nat} (k : Nat) (h : r.Consistent) (hlin : lin ≤ r.declared) :
    Reader.Consistent { r with linear := lin, bank := (nextBank r.variant)^[k] r.bank } := by
  have hb := iterate_nextBank_inRange k ⟨h.bank_lt, h.mbc1_skips⟩
  exact ⟨h.variant_of_tag, h.declared_of_header, hlin, hb.lt, hb.skips⟩

theorem Reader.fresh_consistent {v : Variant} {h : RomHeader} (hv : variantOf h.mbcType = some v) :
    (Reader.fresh v h).Consistent :=
  ⟨hv, rfl, Nat.zero_le _, Nat.two_pow_pos _, fun _ => by simp [Reader.fresh]⟩

/-! ## What an operation within a phase does -/

/-- R24, R25, R28, R29: what an operation may do to a reader. -/
structure ReaderMoves (r r' : Reader) : Prop where
  variant : r'.variant = r.variant
  declared : r'.declared = r.declared
  header : r'.header = r.header
  linear : r.linear ≤ r'.linear
  consistent : r.Consistent → r'.Consistent

theorem ReaderMoves.refl (r : Reader) : ReaderMoves r r := ⟨rfl, rfl, rfl, le_rfl, id⟩

theorem ReaderMoves.trans {r r' r'' : Reader} (h : ReaderMoves r r') (k : ReaderMoves r' r'') : ReaderMoves r r'' :=
  ⟨k.variant.trans h.variant, k.declared.trans h.declared, k.header.trans h.header, h.linear.trans k.linear,
   k.consistent ∘ h.consistent⟩

/-- What every operation but BD.INIT, BD.TEARDOWN and DISPATCH does to the session: it leaves the driver's phase, RST
and the session's phase alone, or ends the session in an error. -/
structure Continues (s t : State) : Prop where
  phase : t.drv.phase = s.drv.phase
  rst : t.drv.lvl.rst = s.drv.lvl.rst
  window : s.win.pos ≤ Config.hdrEnd → t.win.pos ≤ Config.hdrEnd
  no_reader : s.rdr = none → t.rdr = none
  reader : ∀ r, s.rdr = some r → ∃ r', t.rdr = some r' ∧ ReaderMoves r r'
  ses : t.ses = s.ses ∨ ∃ e, t.ses = { phase := .ended, fault := some e }

/-- An operation that leaves the window and the reader alone as well. -/
theorem Continues.of_same {s t : State} (hphase : t.drv.phase = s.drv.phase) (hrst : t.drv.lvl.rst = s.drv.lvl.rst)
    (hwin : t.win = s.win) (hrdr : t.rdr = s.rdr)
    (hses : t.ses = s.ses ∨ ∃ e, t.ses = { phase := .ended, fault := some e }) : Continues s t :=
  ⟨hphase, hrst, fun h => hwin ▸ h, fun h => hrdr.trans h, fun r h => ⟨r, hrdr.trans h, .refl r⟩, hses⟩

theorem Continues.refl (s : State) : Continues s s := .of_same rfl rfl rfl rfl (.inl rfl)

theorem Continues.trans {s t u : State} (h : Continues s t) (k : Continues t u) : Continues s u where
  phase := k.phase.trans h.phase
  rst := k.rst.trans h.rst
  window := k.window ∘ h.window
  no_reader := k.no_reader ∘ h.no_reader
  reader r hr := by
    obtain ⟨r', hr', hm⟩ := h.reader r hr
    obtain ⟨r'', hr'', km⟩ := k.reader r' hr'
    exact ⟨r'', hr'', hm.trans km⟩
  ses := by
    rcases k.ses with hk | hk
    · rw [hk]; exact h.ses
    · exact .inr hk

theorem Continues.bind {α β : Type} {s : State} {r : Res α} {f : α → State → Res β} (h : Continues s r.state)
    (k : ∀ v t, Continues t (f v t).state) : Continues s (r.bind f).state :=
  Res.bind_keeps (Continues s) r f h fun v t _ ht => ht.trans (k v t)

theorem Continues.of_offBusSame {s t : State} (h : OffBusSame s t)
    (hses : t.ses = s.ses ∨ ∃ e, t.ses = { phase := .ended, fault := some e }) : Continues s t :=
  .of_same h.phase h.rst h.win h.rdr hses

theorem xfer_continues (ctx : BusContext) (t0 t1 t2 : Byte) (s : State) : Continues s (xfer ctx t0 t1 t2 s).state := by
  rcases s.world.answer_cases with ⟨r0, r1, r2, h⟩ | h
  · rw [xfer_answered h]; exact .of_same rfl rfl rfl rfl (.inl rfl)
  · rw [xfer_failed h]; exact .of_same rfl rfl rfl rfl (.inr ⟨_, rfl⟩)

theorem expWrite_continues (ctx : BusContext) (r v : Byte) (s : State) : Continues s (expWrite ctx r v s).state :=
  (xfer_continues _ _ _ _ _).bind fun _ _ => .refl _

theorem expRead_continues (ctx : BusContext) (r : Byte) (s : State) : Continues s (expRead ctx r s).state :=
  (xfer_continues _ _ _ _ _).bind fun _ _ => .refl _

theorem setDir_continues (ctx : BusContext) (d : DataDirection) (s : State) :
    Continues s (setDir ctx d s).state := by
  rcases setDir_cases ctx d s with ⟨-, h⟩ | ⟨-, r0, r1, r2, -, h⟩ | ⟨-, -, h⟩ <;> rw [h]
  · exact .refl s
  · exact .of_offBusSame (.turned s d r0 r1 r2) (.inl rfl)
  · exact .of_same rfl rfl rfl rfl (.inr ⟨_, rfl⟩)

theorem setRd_continues (l : Level) (s : State) : Continues s (setRd l s) := by
  rw [setRd_eq]
  exact .of_same rfl rfl rfl rfl (.inl rfl)

theorem setCs_continues (l : Level) (s : State) : Continues s (setCs l s) := by
  rw [setCs_eq]
  exact .of_same rfl rfl rfl rfl (.inl rfl)

theorem pulseWr_continues (s : State) : Continues s (pulseWr s) := by
  rw [pulseWr_eq]
  exact .of_same rfl rfl rfl rfl (.inl rfl)

theorem readByte_continues (ctx : BusContext) (s : State) : Continues s (readByte ctx s).state := by
  cases h : readByte ctx s with
  | ok b t => exact .of_offBusSame (readByte_ok h).same (.inl (readByte_ok h).ses)
  | err e t =>
    obtain ⟨-, k⟩ := readByte_err h
    exact .of_offBusSame k.same (.inr ⟨_, k.ses⟩)

theorem writeByte_continues (ctx : BusContext) (v : Byte) (s : State) : Continues s (writeByte ctx v s).state := by
  cases h : writeByte ctx v s with
  | ok u t => exact .of_offBusSame (writeByte_ok h).same (.inl (writeByte_ok h).ses)
  | err e t =>
    obtain ⟨-, k⟩ := writeByte_err h
    exact .of_offBusSame k.same (.inr ⟨_, k.ses⟩)

theorem setAddress_continues (a : Addr) (s : State) : Continues s (setAddress a s) :=
  .of_offBusSame (.addressed s a) (.inl rfl)

theorem busRead_continues (ctx : BusContext) (a : Addr) (s : State) : Continues s (busRead ctx a s).state :=
  (setAddress_continues a s).trans (readByte_continues ctx _)

theorem busWrite_continues (ctx : BusContext) (a : Addr) (v : Byte) (s : State) :
    Continues s (busWrite ctx a v s).state :=
  (setAddress_continues a s).trans (writeByte_continues ctx v _)

theorem WindowOnly.continues {s t : State} (h : WindowOnly s t)
    (hses : t.ses = s.ses ∨ ∃ e, t.ses = { phase := .ended, fault := some e }) : Continues s t :=
  ⟨h.phase, h.rst, h.pos, fun hr => h.rdr.trans hr, fun r hr => ⟨r, h.rdr.trans hr, .refl r⟩, hses⟩

theorem windowRead_continues (n : Nat) (s : State) : Continues s (windowRead n s).state := by
  cases h : windowRead n s with
  | ok bs t =>
    have k := windowRead_ok _ _ _ _ h
    exact k.windowOnly.continues (.inl k.ses)
  | err e t =>
    obtain ⟨-, k⟩ := windowRead_err _ _ _ _ h
    exact k.windowOnly.continues (.inr ⟨_, k.ses⟩)

theorem windowSeek_continues (whence : Whence) (off : Int) (s : State) :
    Continues s (windowSeek whence off s).state := by
  rcases windowSeek_cases whence off s with ⟨hl, h⟩ | ⟨-, h⟩ <;> rw [h]
  · exact (WindowOnly.withPos (seekLegal_lt hl).le).continues (.inl rfl)
  · exact .refl s

theorem runDecoder_continues (d : HeaderDecoder) (s : State) : Continues s (runDecoder d s).state := by
  refine (runDecoder_windowOnly d s).continues ?_
  cases h : runDecoder d s with
  | ok a t => exact .inl (runDecoder_ok h).2
  | err e t => exact .inr ⟨_, (runDecoder_err h).2.2⟩

/-- R139, R149: how far a streaming read can get keeps its reader inside the stream. -/
theorem Reader.moves_within {r : Reader} {m : Nat} (k : Nat) (h : r.linear + m ≤ r.declared ∨ m = 0) :
    ReaderMoves r { r with linear := r.linear + m, bank := (nextBank r.variant)^[k] r.bank } := by
  refine ⟨rfl, rfl, rfl, Nat.le_add_right _ _, fun hc => hc.moved k ?_⟩
  have := hc.linear_le
  omega

theorem streamRead_continues {r : Reader} {s : State} (n : Nat) (hr : s.rdr = some r) :
    Continues s (streamRead n s).state := by
  have moves : ∀ {t : State} {r' : Reader}, ReaderMoves r r' → t.rdr = some r' →
      ∀ x, s.rdr = some x → ∃ x', t.rdr = some x' ∧ ReaderMoves x x' := by
    intro t r' hm ht x hx
    obtain rfl : r = x := Option.some.inj (hr.symm.trans hx)
    exact ⟨r', ht, hm⟩
  have some_reader : ∀ t : State, s.rdr = none → t.rdr = none := fun t h => by simp [hr] at h
  cases h : streamRead n s with
  | ok bs t =>
    have k := streamRead_ok hr h
    have hlen := k.length
    exact ⟨k.phase, k.rst, fun hw => k.win ▸ hw, some_reader t,
      moves (Reader.moves_within _ (by omega)) k.rdr, .inl k.ses⟩
  | err e t =>
    obtain ⟨m, k⟩ := streamRead_err hr h
    have hrdr := k.rdr
    rw [Reader.bankAt_advanced] at hrdr
    exact ⟨k.phase, k.rst, fun hw => k.win ▸ hw, some_reader t,
      moves (Reader.moves_within _ (.inl k.inside.le)) hrdr, .inr ⟨e, k.ses⟩⟩

/-! ## What a step does -/

/-- R31: the order of the phases. -/
def SessionPhase.rank : SessionPhase → Nat
  | .preInit => 0
  | .headerPhase => 1
  | .streaming => 2
  | .ended => 3

theorem SessionPhase.rank_le_ended (p : SessionPhase) : p.rank ≤ SessionPhase.rank .ended := by
  cases p <;> decide

/-- What a step from a consistent state does to the session and the reader. -/
structure Advances (s t : State) : Prop where
  consistent : Consistent t
  phase : s.ses.phase.rank ≤ t.ses.phase.rank
  fault : ∀ e, s.ses.fault = some e → t.ses.fault = some e
  reader : ∀ r, s.rdr = some r → ∃ r', t.rdr = some r' ∧ ReaderMoves r r'

theorem Advances.refl {s : State} (h : Consistent s) : Advances s s :=
  ⟨h, le_rfl, fun _ => id, fun r hr => ⟨r, hr, .refl r⟩⟩

theorem Advances.trans {s t u : State} (h : Advances s t) (k : Advances t u) : Advances s u where
  consistent := k.consistent
  phase := h.phase.trans k.phase
  fault e := k.fault e ∘ h.fault e
  reader r hr := by
    obtain ⟨r', hr', hm⟩ := h.reader r hr
    obtain ⟨r'', hr'', km⟩ := k.reader r' hr'
    exact ⟨r'', hr'', hm.trans km⟩

/-- The caller's list is not part of what is consistent. -/
theorem Consistent.of_caller {s t : State} (h : Consistent s) (ht : t = { s with caller := t.caller }) :
    Consistent t := by
  rw [ht]
  exact ⟨h.pre_init, h.header_phase, h.streaming, h.torn_down, h.window, h.reader, h.rst_high⟩

/-- A consistent state in which the session has ended. -/
theorem Consistent.of_ended {s : State} (hses : s.ses.phase = .ended) (hwin : s.win.pos ≤ Config.hdrEnd)
    (hrdr : ∀ r, s.rdr = some r → r.Consistent) (hrst : s.drv.phase ≠ .unowned → s.drv.lvl.rst = some .H) :
    Consistent s :=
  ⟨by simp [hses], by simp [hses], by simp [hses], fun _ => hses, hwin, hrdr, hrst⟩

/-- R31, R32: while the session has not ended, no fault is recorded. -/
theorem Consistent.fault_none {s : State} (h : Consistent s) (hlive : s.ses.phase ≠ .ended) : s.ses.fault = none := by
  cases hp : s.ses.phase with
  | preInit => exact (h.pre_init hp).2.2
  | headerPhase => exact (h.header_phase hp).2.2
  | streaming => exact (h.streaming hp).2.2
  | ended => exact absurd hp hlive

theorem Continues.consistent {s t : State} (h : Continues s t) (hc : Consistent s) : Consistent t := by
  have hrst : t.drv.phase ≠ .unowned → t.drv.lvl.rst = some .H := by
    rw [h.phase, h.rst]; exact hc.rst_high
  have hrdr : ∀ r, t.rdr = some r → r.Consistent := by
    intro r' hr'
    cases hs : s.rdr with
    | none => simp [h.no_reader hs] at hr'
    | some r =>
      obtain ⟨x, hx, hm⟩ := h.reader r hs
      obtain rfl : x = r' := Option.some.inj (hx.symm.trans hr')
      exact hm.consistent (hc.reader r hs)
  rcases h.ses with hses | ⟨e, hses⟩
  · refine ⟨?_, ?_, ?_, ?_, h.window hc.window, hrdr, hrst⟩
    · rw [hses, h.phase]
      exact fun hp => (hc.pre_init hp).imp_right (And.imp_left h.no_reader)
    · rw [hses, h.phase]
      exact fun hp => (hc.header_phase hp).imp_right (And.imp_left h.no_reader)
    · rw [hses, h.phase]
      refine fun hp => (hc.streaming hp).imp_right (And.imp_left fun hsome => ?_)
      obtain ⟨r, hr⟩ := Option.isSome_iff_exists.1 hsome
      obtain ⟨r', hr', -⟩ := h.reader r hr
      simp [hr']
    · rw [hses, h.phase]
      exact hc.torn_down
  · exact .of_ended (by rw [hses]) (h.window hc.window) hrdr hrst

theorem Continues.advances {s t : State} (h : Continues s t) (hc : Consistent s) (hlive : s.ses.phase ≠ .ended) :
    Advances s t := by
  refine ⟨h.consistent hc, ?_, fun e he => ?_, h.reader⟩
  · rcases h.ses with hses | ⟨e, hses⟩ <;> rw [hses]
    exact SessionPhase.rank_le_ended _
  · simp [hc.fault_none hlive] at he

/-- R158: an error that ends a session in which none was recorded. -/
theorem takeError_advances {s : State} (hc : Consistent s) (hlive : s.ses.phase ≠ .ended) (e : EngineError) :
    Advances s (s.takeError e) := by
  refine Continues.advances (.of_same (by simp) (by simp) (by simp) (by simp) ?_) hc hlive
  rw [State.takeError_ses]
  split
  · exact .inr ⟨e, rfl⟩
  · exact .inl rfl

/-- R121, R122: the end of DISPATCH starts the stream with a fresh reader or raises an error. -/
theorem constructReader_advances (a : DecodeAnswer) {s : State} (hc : Consistent s) (hp : s.ses.phase = .headerPhase) :
    Advances s (constructReader a s).state := by
  obtain ⟨hphase, hrdr, hfault⟩ := hc.header_phase hp
  have hlive : s.ses.phase ≠ .ended := by simp [hp]
  cases a with
  | header h =>
    rw [constructReader]
    cases hv : variantOf h.mbcType with
    | none => exact takeError_advances hc hlive _
    | some v =>
      refine ⟨⟨nofun, nofun, fun _ => ⟨hphase, rfl, hfault⟩, fun ht => ?_, hc.window, fun r hr => ?_, hc.rst_high⟩,
        ?_, fun _ => id, by simp [hrdr]⟩
      · exact absurd (hphase.symm.trans ht) (by simp)
      · obtain rfl := Option.some.inj hr
        exact Reader.fresh_consistent hv
      · rw [hp]; simp [SessionPhase.rank]
  | decodeError => exact takeError_advances hc hlive _
  | addressRange x => exact takeError_advances hc hlive _

theorem dispatchWith_advances (d : HeaderDecoder) {s : State} (hc : Consistent s) (hp : s.ses.phase = .headerPhase) :
    Advances s (dispatchWith d s).state := by
  have hlive : s.ses.phase ≠ .ended := by simp [hp]
  have hstart : Continues s (s.withPos 0) := (WindowOnly.withPos (Nat.zero_le _)).continues (.inl rfl)
  have hrun := (hstart.trans (runDecoder_continues d (s.withPos 0))).advances hc hlive
  rw [dispatchWith]
  cases h : runDecoder d (s.withPos 0) with
  | err e t => rw [h] at hrun; exact hrun
  | ok a t =>
    rw [h] at hrun
    have hses : t.ses.phase = .headerPhase := by rw [(runDecoder_ok h).2]; exact hp
    exact hrun.trans (constructReader_advances a hrun.consistent hses)

/-- R95: BD.INIT makes the driver ready and enters HeaderPhase, or ends the session at one of its frames. -/
theorem initDriver_advances {s : State} (hc : Consistent s) (hp : s.ses.phase = .preInit) :
    Advances s (initDriver s).state := by
  obtain ⟨hphase, hrdr, hfault⟩ := hc.pre_init hp
  have failed : ∀ t : State, t.ses.phase = .ended → t.drv.phase = s.drv.phase → t.win = s.win → t.rdr = s.rdr →
      Advances s t := fun t hses hdrv hwin hr =>
    ⟨.of_ended hses (hwin ▸ hc.window) (by rw [hr]; exact hc.reader) (fun h => absurd (hdrv.trans hphase) h),
      hses ▸ SessionPhase.rank_le_ended _, by simp [hfault], by simp [hrdr]⟩
  rcases s.world.answer_cases with ⟨q0, q1, q2, h1⟩ | h1
  · rcases s.world.advance.answer_cases with ⟨r0, r1, r2, h2⟩ | h2
    · rw [initDriver_answered h1 h2]
      exact ⟨⟨nofun, fun _ => ⟨rfl, hrdr, hfault⟩, nofun, nofun, Nat.zero_le _, hc.reader, fun _ => rfl⟩,
        by simp [hp, SessionPhase.rank], fun _ => id, by simp [hrdr]⟩
    · rw [initDriver_failed_second h1 h2]
      exact failed _ rfl rfl rfl rfl
  · rw [initDriver_failed_first h1]
    exact failed _ rfl rfl rfl rfl

/-- R99: BD.TEARDOWN ends the session and keeps its fault. -/
theorem teardown_advances {s : State} (hc : Consistent s) : Advances s (teardown s) := by
  rw [teardown, forceIdle_eq]
  exact ⟨.of_ended rfl hc.window hc.reader fun _ => rfl, SessionPhase.rank_le_ended _, fun _ => id,
    fun r hr => ⟨r, hr, .refl r⟩⟩

/-! ## What an instruction does -/

/-- An operation ends in a state with `P`, and with one outcome for the caller. -/
abbrev EndsIn (P : State → Prop) (o : Host.Outcome State Fault Refusal) : Prop :=
  ∃ u r, P u ∧ o = .next (u.deliver r)

section
variable {P : State → Prop} {s : State}

/-- R13, R161: a refused operation ends where it began, an admitted one where its body does. -/
theorem issueIf_endsIn {α : Type} {admitted : Bool} {value : α → OpValue} {body : State → Res α} (hs : P s)
    (hb : admitted = true → P (body s).state) : EndsIn P (issueIf admitted value body s) := by
  cases admitted
  · exact ⟨s, _, hs, rfl⟩
  · exact ⟨_, _, hb rfl, rfl⟩

theorem issue_endsIn {α : Type} {k : Admission} {value : α → OpValue} {body : State → Res α} (hs : P s)
    (hb : admits k s = true → P (body s).state) : EndsIn P (issue k value body s) :=
  issueIf_endsIn hs hb

theorem issue_always_endsIn {k : Admission} {f : State → State} (hs : P s) (hf : admits k s = true → P (f s)) :
    EndsIn P (issue k noValue (always f) s) :=
  issue_endsIn (body := always f) hs hf

/-- R72, R84: a frame is a transfer operation. -/
theorem issueFrame_endsIn {α : Type} {own : Bool} {value : α → OpValue} {body : State → Res α} (hs : P s)
    (hb : own = true → P (body s).state) : EndsIn P (issueFrame own value body s) :=
  issueIf_endsIn hs fun h => hb (Bool.and_eq_true_iff.1 h).2

theorem issueReader_endsIn {α : Type} {value : α → OpValue} {body : Reader → State → Res α} (hs : P s)
    (hb : ∀ r, s.ses.phase = .streaming → s.rdr = some r → P (body r s).state) :
    EndsIn P (issueReader value body s) := by
  unfold issueReader
  split
  next hadm =>
    split
    next r hr => exact ⟨_, _, hb r (by simpa [admits] using hadm) hr, rfl⟩
    next => exact ⟨s, _, hs, rfl⟩
  next => exact ⟨s, _, hs, rfl⟩

end

/-- Every instruction but BD.INIT, BD.TEARDOWN and DISPATCH leaves the session's phase alone or ends the session. -/
theorem exec_continues {i : Instr} (s : State) (hi : i ≠ .bdInit) (ht : i ≠ .bdTeardown) (hd : i ≠ .dispatch) :
    EndsIn (Continues s) (exec i s) := by
  have hs := Continues.refl s
  cases i with
  | bdInit => exact absurd rfl hi
  | bdTeardown => exact absurd rfl ht
  | dispatch => exact absurd rfl hd
  | bdSetAddress a => exact issue_always_endsIn hs fun _ => setAddress_continues a s
  | bdReadByte => exact issue_endsIn hs fun _ => readByte_continues _ s
  | bdWriteByte v => exact issue_endsIn hs fun _ => writeByte_continues _ v s
  | bdSetDir d => exact issue_endsIn hs fun _ => setDir_continues _ d s
  | bdSetRd l => exact issue_always_endsIn hs fun _ => setRd_continues l s
  | bdSetCs l => exact issue_always_endsIn hs fun _ => setCs_continues l s
  | bdPulseWr => exact issue_always_endsIn hs fun _ => pulseWr_continues s
  | expWrite r v => exact issue_endsIn hs fun _ => expWrite_continues _ r v s
  | expRead r => exact issue_endsIn hs fun _ => expRead_continues _ r s
  | busRead a | busr a => exact issue_endsIn hs fun _ => busRead_continues _ a s
  | hwRead n => exact issue_endsIn hs fun _ => windowRead_continues n s
  | hwSeek w off => exact issue_endsIn hs fun _ => windowSeek_continues w off s
  | rdrRead n => exact issueReader_endsIn hs fun r _ hr => streamRead_continues n hr
  | rdrSize | rdrStatus => exact issueReader_endsIn hs fun _ _ _ => hs
  | bankselMbc1 b | bankselMbc5 b =>
    exact issue_endsIn hs fun _ => .bind (busWrite_continues _ _ _ s) fun _ t => busWrite_continues _ _ _ t
  | expWrIocon d v | expWrIodir d v | expWrGpio d v => exact issueFrame_endsIn hs fun _ => expWrite_continues _ _ v s
  | expRdGpio d x => exact issueFrame_endsIn hs fun _ => expRead_continues _ _ s
  | busWrite a v => exact issue_endsIn hs fun _ => busWrite_continues _ a v s
  | bankselMbc2 b | bankselMbc3 b | buswMbc1SelLo b | buswMbc1SelHi b | buswMbc2Sel b | buswMbc3Sel b
  | buswMbc5SelLo b | buswMbc5SelHi b => exact issue_endsIn hs fun _ => busWrite_continues _ _ _ s

theorem exec_endsIn_advances (i : Instr) {s : State} (hc : Consistent s) : EndsIn (Advances s) (exec i s) := by
  have hs := Advances.refl hc
  by_cases hi : i = .bdInit
  · subst hi
    refine issue_endsIn hs fun ha => initDriver_advances hc ((admits_init_iff s).1 ha).1
  by_cases ht : i = .bdTeardown
  · subst ht
    exact issue_always_endsIn hs fun _ => teardown_advances hc
  by_cases hd : i = .dispatch
  · subst hd
    exact issue_endsIn hs fun ha => dispatchWith_advances _ hc (by simpa [admits] using ha)
  by_cases hended : s.ses.phase = .ended
  · exact ⟨s, _, hs, exec_refused_of_row (admits_ended hended (admissionOf_ne_teardown ht))⟩
  · obtain ⟨u, r, hu, hexec⟩ := exec_continues s hi ht hd
    exact ⟨u, r, hu.advances hc hended, hexec⟩

theorem Advances.deliver {s t : State} (h : Advances s t) (r : OpResult) : Advances s (t.deliver r) :=
  ⟨h.consistent.of_caller rfl, h.phase, h.fault, h.reader⟩

/-- A step from a consistent state: nothing, or an instruction in the state without its call. -/
theorem step_advances {s t : State} (hc : Consistent s) (h : step s = .next t) : Advances s t := by
  unfold step at h
  split at h
  · cases h
    exact .refl hc
  next c rest _ =>
    split at h
    next i _ =>
      have hc' : Consistent { s with caller := { s.caller with calls := rest } } := hc.of_caller rfl
      obtain ⟨u, r, hu, hexec⟩ := exec_endsIn_advances i hc'
      obtain rfl : u.deliver r = t := Host.Outcome.next.inj (hexec.symm.trans h)
      exact ⟨(hu.deliver r).consistent, hu.phase, hu.fault, hu.reader⟩
    next => cases h

/-- Settles O54, by `step_advances`. -/
theorem stepKeepsTheStateConsistent : Obligations.StepKeepsTheStateConsistent :=
  fun _ _ hc h => (step_advances hc h).consistent

/-- Settles O49, by `step_advances`. -/
theorem faultIsStickyAndPhasesGoForward : Obligations.FaultIsStickyAndPhasesGoForward := by
  unfold Obligations.FaultIsStickyAndPhasesGoForward
  intro rank s t hc h
  have k := step_advances hc h
  have hrank : rank = SessionPhase.rank := funext fun p => by cases p <;> rfl
  exact ⟨hrank ▸ k.phase, k.fault⟩

/-- Settles O50, by `step_advances`. -/
theorem readerOnlyMovesForward : Obligations.ReaderOnlyMovesForward := by
  intro s t r hc h hr
  obtain ⟨r', hr', hm⟩ := (step_advances hc h).reader r hr
  exact ⟨r', hr', hm.variant, hm.declared, hm.header, hm.linear⟩

/-- Settles O47: in Ended every row of R34's table but BD.TEARDOWN's is closed (`admits_ended`), and that one is closed
once the driver is torn down. -/
theorem endedSessionAdmitsOneTeardownOnly : Obligations.EndedSessionAdmitsOneTeardownOnly := by
  intro i s hended htorn
  refine ⟨refusedWhy s, exec_refused_of_row ?_⟩
  by_cases ht : i = .bdTeardown
  · subst ht
    simp [admissionOf, admits, htorn rfl]
  · exact admits_ended hended (admissionOf_ne_teardown ht)

end Sys2Proof.Machine
end

section
/-! PROOFS of the statements of 10_state.md, third part: what the state says of the trace (R11, R16, R17, R35), and that
RD is never low while the expander drives the data bus (R103). -/

namespace Sys2Proof.Machine

/-! ## The last event of a kind in a trace that has grown -/

theorem lastLine_append (tr es : List Event) (ln : Line) :
    lastLine (tr ++ es) ln = (lastLine es ln).or (lastLine tr ln) := by
  induction es using List.reverseRecOn with
  | nil => simp [lastLine]
  | append_singleton es e ih =>
    rw [← List.append_assoc, lastLine_snoc, lastLine_snoc]
    cases e with
    | line s l => by_cases h : s = ln <;> simp [h, ih]
    | _ => exact ih

theorem lastAddr_append (tr es : List Event) : lastAddr (tr ++ es) = (lastAddr es).or (lastAddr tr) := by
  induction es using List.reverseRecOn with
  | nil => simp [lastAddr]
  | append_singleton es e ih =>
    rw [← List.append_assoc, lastAddr_snoc, lastAddr_snoc]
    cases e with
    | addr a => simp
    | _ => exact ih

theorem lastWritten_append (tr es : List Event) (d : BitVec 3) (r : Byte) :
    lastWritten (tr ++ es) d r = (lastWritten es d r).or (lastWritten tr d r) := by
  induction es using List.reverseRecOn with
  | nil => simp [lastWritten]
  | append_singleton es e ih =>
    rw [← List.append_assoc, lastWritten_snoc, lastWritten_snoc]
    cases e with
    | spi t0 t1 t2 r0 r1 r2 => by_cases h : t0 = writeCommand d ∧ t1 = r <;> simp [h, ih]
    | _ => exact ih

/-- A level to which no event drives a line is not the line's last one. -/
theorem lastLine_ne_of_not_mem {es : List Event} {ln : Line} {l : Level} (h : Event.line ln l ∉ es) :
    lastLine es ln ≠ some l := by
  induction es using List.reverseRecOn with
  | nil => simp [lastLine]
  | append_singleton es e ih =>
    simp only [List.mem_append, List.mem_singleton, not_or] at h
    rw [lastLine_snoc]
    cases e with
    | line s l' =>
      by_cases hs : s = ln
      · have hl : l ≠ l' := fun hl => h.2 (by rw [hs, hl])
        simp [hs, hl.symm]
      · simpa [hs] using ih h.1
    | _ => exact ih h.1

theorem lastAddr_eq_none {es : List Event} (h : addrsOf es = []) : lastAddr es = none := by
  induction es using List.reverseRecOn with
  | nil => rfl
  | append_singleton es e ih =>
    rw [addrsOf_append, List.append_eq_nil_iff] at h
    rw [lastAddr_snoc]
    cases e with
    | addr a => simp at h
    | _ => exact ih h.1

theorem lastWritten_iodir_eq_none {es : List Event} {d : BitVec 3} (h : directionFrames es d = 0) :
    lastWritten es d Config.regIodir = none := by
  induction es using List.reverseRecOn with
  | nil => rfl
  | append_singleton es e ih =>
    rw [directionFrames_append, Nat.add_eq_zero_iff] at h
    rw [lastWritten_snoc]
    cases e with
    | spi t0 t1 t2 r0 r1 r2 =>
      have hno : ¬(t0 = writeCommand d ∧ t1 = Config.regIodir) := by simpa [directionFrames] using h.2
      simpa [hno] using ih h.1
    | _ => exact ih h.1

/-- A direction that no later frame changes is still the last one sent. -/
theorem lastWritten_iodir_append {tr es : List Event} {d : BitVec 3} (h : directionFrames es d = 0) :
    lastWritten (tr ++ es) d Config.regIodir = lastWritten tr d Config.regIodir := by
  rw [lastWritten_append, lastWritten_iodir_eq_none h, Option.none_or]

theorem prefix_append_cases {q tr es : List Event} (h : q <+: tr ++ es) :
    q <+: tr ∨ ∃ es', es' <+: es ∧ q = tr ++ es' := by
  rcases List.prefix_or_prefix_of_prefix h (List.prefix_append tr es) with hq | ⟨es', rfl⟩
  · exact .inl hq
  · exact .inr ⟨es', (List.prefix_append_right_inj tr).1 h, rfl⟩

/-! ## The caches (R16, R17, R35) -/

/-- The other two registers are at other addresses than the one written (R71). -/
theorem ExpanderRegs.receive_fields (x : ExpanderRegs) (d : BitVec 3) (t0 t1 t2 : Byte) :
    (x.receive d t0 t1 t2).iodir = (if t0 = writeCommand d ∧ t1 = Config.regIodir then t2 else x.iodir) ∧
    (x.receive d t0 t1 t2).iocon = (if t0 = writeCommand d ∧ t1 = Config.regIocon then t2 else x.iocon) ∧
    (x.receive d t0 t1 t2).gpio = (if t0 = writeCommand d ∧ t1 = Config.regGpio then t2 else x.gpio) := by
  have h1 : Config.regIodir ≠ Config.regIocon := by decide
  have h2 : Config.regIodir ≠ Config.regGpio := by decide
  have h3 : Config.regIocon ≠ Config.regGpio := by decide
  unfold ExpanderRegs.receive
  split_ifs <;> simp_all

/-- An event that drives no line and no address and completes no frame leaves what the caches say true. -/
theorem TraceHonest.silent {s t : State} (h : TraceHonest s) (e : Event) (he : lastLine [e] = fun _ => none)
    (ha : lastAddr [e] = none) (hw : ∀ d r, lastWritten [e] d r = none)
    (ht : t.trace = s.trace ++ [e]) (hd : t.drv = s.drv) (hx : t.exp = s.exp)
    (hdev : t.world.expDev = s.world.expDev) : TraceHonest t := by
  have hwritten : ∀ d r, lastWritten t.trace d r = lastWritten s.trace d r := fun d r => by
    rw [ht, lastWritten_append, hw, Option.none_or]
  refine ⟨fun ln => ?_, ?_, ?_, ?_, ?_⟩
  · rw [ht, lastLine_append, he, Option.none_or, hd, h.levels]
  · rw [ht, lastAddr_append, ha, Option.none_or, hd, h.address]
  · rw [hwritten, hdev, hx]; exact h.iodir
  · rw [hwritten, hdev, hx]; exact h.iocon
  · rw [hwritten, hdev, hx]; exact h.gpio

/-- A completed frame sets the register it names, and the trace says so. -/
theorem TraceHonest.answered {s : State} (h : TraceHonest s) (t0 t1 t2 r0 r1 r2 : Byte) :
    TraceHonest
      { s with
        world := s.world.advance
        exp := s.exp.receive s.world.expDev t0 t1 t2
        trace := s.trace ++ [.spi t0 t1 t2 r0 r1 r2] } := by
  obtain ⟨hiodir, hiocon, hgpio⟩ := s.exp.receive_fields s.world.expDev t0 t1 t2
  have keeps : ∀ (r x : Byte), (∀ v, lastWritten s.trace s.world.expDev r = some v → x = v) →
      ∀ v, lastWritten (s.trace ++ [.spi t0 t1 t2 r0 r1 r2]) s.world.expDev r = some v →
        (if t0 = writeCommand s.world.expDev ∧ t1 = r then t2 else x) = v := by
    intro r x hx v hv
    rw [lastWritten_snoc] at hv
    by_cases hr : t0 = writeCommand s.world.expDev ∧ t1 = r
    · simpa [hr] using hv
    · rw [if_neg hr]
      exact hx v (by simpa [hr] using hv)
  refine ⟨fun ln => ?_, ?_, ?_, ?_, ?_⟩
  · rw [lastLine_snoc]; exact h.levels ln
  · rw [lastAddr_snoc]; exact h.address
  · rw [hiodir]; exact keeps _ _ h.iodir
  · rw [hiocon]; exact keeps _ _ h.iocon
  · rw [hgpio]; exact keeps _ _ h.gpio

/-- A driven line is cached, and the trace says so. -/
theorem TraceHonest.force {s : State} (h : TraceHonest s) (ln : Line) (l : Level) :
    TraceHonest (Machine.force ln l s) := by
  rw [force_eq]
  refine ⟨fun ln' => ?_, ?_, ?_, ?_, ?_⟩
  · rw [lastLine_snoc, Levels.get_set, h.levels]
  · rw [lastAddr_snoc]; exact h.address
  all_goals rw [lastWritten_snoc]
  · exact h.iodir
  · exact h.iocon
  · exact h.gpio

/-- A driven address is cached, and the trace says so. -/
theorem TraceHonest.addressed {s : State} (h : TraceHonest s) (a : Addr) : TraceHonest (s.addressed a) := by
  unfold State.addressed
  refine ⟨fun ln => ?_, ?_, ?_, ?_, ?_⟩
  · rw [lastLine_snoc]; exact h.levels ln
  · rw [lastAddr_snoc]
  all_goals rw [lastWritten_snoc]
  · exact h.iodir
  · exact h.iocon
  · exact h.gpio

/-- Every small step keeps the caches honest. -/
theorem Micro.honest {s t : State} (hm : Micro s t) (h : TraceHonest s) : TraceHonest t := by
  cases hm with
  | line ln l => exact h.force ln l
  | wait n => exact h.silent (.wait n) rfl rfl (fun _ _ => rfl) rfl rfl rfl rfl
  | addr a => exact h.addressed a
  | strobe =>
    unfold State.strobeWrite
    split
    · exact ⟨h.levels, h.address, h.iodir, h.iocon, h.gpio⟩
    · exact h
  | answered t0 t1 t2 r0 r1 r2 => exact h.answered t0 t1 t2 r0 r1 r2
  | failed ctx t0 t1 t2 => exact h.silent (.spiFail t0 t1 t2) rfl rfl (fun _ _ => rfl) rfl rfl rfl rfl
  | dir d => exact ⟨h.levels, h.address, h.iodir, h.iocon, h.gpio⟩
  | inner _ _ hi =>
    rw [hi]
    exact ⟨h.levels, h.address, h.iodir, h.iocon, h.gpio⟩

theorem Reach.honest {s t : State} (hr : Reach s t) (h : TraceHonest s) : TraceHonest t :=
  hr.keeps (fun _ _ => Micro.honest) h

/-- The caller's list, the window, the reader and the session are nothing the trace speaks of. -/
theorem TraceHonest.of_inner {s t : State} (h : TraceHonest s)
    (ht : t = { s with win := t.win, rdr := t.rdr, ses := t.ses, caller := t.caller }) : TraceHonest t := by
  rw [ht]
  exact ⟨h.levels, h.address, h.iodir, h.iocon, h.gpio⟩

/-- Settles O56: a step is small steps (`step_ends`), each of which keeps the caches honest (`Micro.honest`). -/
theorem stepKeepsTheCachesHonest : Obligations.StepKeepsTheCachesHonest := by
  intro s t h hstep
  rcases step_ends s t hstep with rfl | ⟨rest, u, r, hreach, rfl⟩
  · exact h
  · exact (hreach.honest (h.of_inner rfl)).of_inner rfl

/-! ## Invariants of the bus cycles -/

/-- An operation leaves `P` where it completes, and `Q` however it ends. -/
structure Res.Leaves {α : Type} (P Q : State → Prop) (r : Res α) : Prop where
  ok : ∀ v t, r = .ok v t → P t
  ends : Q r.state

/-- A property `P` of the states between bus cycles, and a weaker one `Q` of the states that an operation leaves, which
the bus cycles of the window and the readers keep: reads below 0x8000 and writes to the bank-select registers. -/
structure BusInvariant (P Q : State → Prop) : Prop where
  weaken : ∀ s, P s → Q s
  inner : ∀ s t : State, P s → t = { s with win := t.win, rdr := t.rdr, ses := t.ses } → P t
  read : ∀ (ctx : BusContext) (a : Addr) (s : State), a.toNat < 0x8000 → P s → (busRead ctx a s).Leaves P Q
  write : ∀ (ctx : BusContext) (a : Addr) (v : Byte) (s : State), a ∈ bankSelects → P s →
    (busWrite ctx a v s).Leaves P Q

theorem Res.Leaves.err {α : Type} {P Q : State → Prop} {s : State} (e : EngineError) (h : Q s) :
    (Res.err e s : Res α).Leaves P Q :=
  ⟨fun _ _ he => (by cases he), h⟩

theorem Res.Leaves.bind {α β : Type} {P Q : State → Prop} {r : Res α} {f : α → State → Res β} (h : r.Leaves P Q)
    (k : ∀ v t, P t → (f v t).Leaves P Q) : (r.bind f).Leaves P Q := by
  cases r with
  | ok v t => exact k v t (h.ok v t rfl)
  | err e t => exact .err e h.ends

/-- R127: a translated address lies below 0x8000. -/
theorem translate_lt (lin : Nat) : (Machine.translate lin).toNat < 0x8000 := by
  unfold Machine.translate
  split <;> simp only [BitVec.toNat_ofNat, Config.bankSize] at * <;> omega

section
variable {P Q : State → Prop}

theorem BusInvariant.done (H : BusInvariant P Q) {α : Type} (v : α) {s : State} (h : P s) :
    (Res.ok v s).Leaves P Q :=
  ⟨fun _ _ he => by cases he; exact h, H.weaken s h⟩

/-- An error that no exchange has raised finds the bus as a completed cycle left it. -/
theorem BusInvariant.raised (H : BusInvariant P Q) {α : Type} (e : EngineError) {s : State} (h : P s) :
    (raise e s : Res α).Leaves P Q := by
  refine .err e (H.weaken _ (H.inner s _ h ?_))
  rw [State.takeError]
  split <;> rfl

theorem BusInvariant.windowRead (H : BusInvariant P Q) (n : Nat) {s : State} (h : P s) :
    (windowRead n s).Leaves P Q := by
  induction n generalizing s with
  | zero => exact H.done _ h
  | succ n ih =>
    rw [Machine.windowRead]
    split
    · exact H.done _ h
    next hpos =>
      have ha : (BitVec.ofNat 16 s.win.pos).toNat < 0x8000 := by
        simp only [BitVec.toNat_ofNat, Config.hdrEnd] at *; omega
      exact (H.read _ _ _ ha h).bind fun b t ht =>
        (ih (H.inner t _ ht rfl)).bind fun bs u hu => H.done _ hu

theorem BusInvariant.windowSeek (H : BusInvariant P Q) (whence : Whence) (off : Int) {s : State} (h : P s) :
    (windowSeek whence off s).Leaves P Q := by
  unfold Machine.windowSeek
  dsimp only
  split
  · exact H.done _ (H.inner s _ h rfl)
  · exact H.raised _ h

theorem BusInvariant.windowAct (H : BusInvariant P Q) (w : WindowAct) {s : State} (h : P s) :
    (windowAct w s).Leaves P Q := by
  cases w with
  | read n => exact (H.windowRead n h).bind fun bs t ht => H.done _ ht
  | seek whence off =>
    rcases windowSeek_cases whence off s with ⟨-, k⟩ | ⟨-, k⟩ <;> simp only [Machine.windowAct, k]
    · exact H.done _ (H.inner s _ h rfl)
    · exact H.done _ h

theorem BusInvariant.runDecoder (H : BusInvariant P Q) (d : HeaderDecoder) {s : State} (h : P s) :
    (runDecoder d s).Leaves P Q := by
  induction d generalizing s with
  | answer a => exact H.done _ h
  | act w k ih =>
    have hw := H.windowAct w h
    rw [Machine.runDecoder]
    cases hr : Machine.windowAct w s with
    | ok a t => exact ih a (hw.ok a t hr)
    | err e t =>
      rw [hr] at hw
      exact .err e hw.ends

theorem BusInvariant.constructReader (H : BusInvariant P Q) (a : DecodeAnswer) {s : State} (h : P s) :
    (constructReader a s).Leaves P Q := by
  cases a with
  | header x =>
    rw [Machine.constructReader]
    split
    · exact H.done _ (H.inner s _ h rfl)
    · exact H.raised _ h
  | decodeError => exact H.raised _ h
  | addressRange x => exact H.raised _ h

theorem BusInvariant.dispatchWith (H : BusInvariant P Q) (d : HeaderDecoder) {s : State} (h : P s) :
    (dispatchWith d s).Leaves P Q :=
  (H.runDecoder d (H.inner s _ h rfl)).bind fun a _ ht => H.constructReader a ht

theorem BusInvariant.selectOf (H : BusInvariant P Q) (v : Variant) (b : BitVec 9) {s : State} (h : P s) :
    (selectOf v b s).Leaves P Q := by
  have low : Config.selLow ∈ bankSelects := by decide
  cases v with
  | romOnly => exact H.done _ h
  | mbc1 => exact (H.write _ _ _ _ low h).bind fun _ t ht => H.write _ _ _ t (by decide) ht
  | mbc2 => exact H.write _ _ _ _ (by decide) h
  | mbc3 => exact H.write _ _ _ _ low h
  | mbc5 => exact (H.write _ _ _ _ low h).bind fun _ t ht => H.write _ _ _ t (by decide) ht

theorem BusInvariant.streamByte (H : BusInvariant P Q) (r : Reader) {s : State} (h : P s) :
    (streamByte r s).Leaves P Q := by
  have switched : (switchBank r s).Leaves P Q := by
    unfold switchBank
    split
    · exact H.selectOf _ _ (H.inner s _ h rfl)
    · exact H.done _ h
  exact switched.bind fun _ t ht => (H.read _ _ _ (translate_lt _) ht).bind fun b u hu =>
    H.done _ (H.inner u _ hu rfl)

theorem BusInvariant.streamRead (H : BusInvariant P Q) (n : Nat) {s : State} (h : P s) :
    (streamRead n s).Leaves P Q := by
  induction n generalizing s with
  | zero => exact H.done _ h
  | succ n ih =>
    cases hr : s.rdr with
    | none =>
      simp only [Machine.streamRead, hr]
      exact H.done _ h
    | some r =>
      rw [streamRead_succ n hr]
      split
      · exact (H.streamByte r h).bind fun b t ht => (ih ht).bind fun bs u hu => H.done _ hu
      · exact H.done _ h

end

/-! ## No contention (R103) -/

/-- A trace without contention that has grown is checked at its new points only. -/
theorem NoContention.append {d : BitVec 3} {p : Params} {tr es : List Event} (h : NoContention d p tr)
    (hes : ∀ q, q <+: es → lastLine (tr ++ q) .rd = some .L →
      lastWritten (tr ++ q) d Config.regIodir = some p.dirIn) : NoContention d p (tr ++ es) := by
  intro q hq hl
  rcases prefix_append_cases hq with hold | ⟨es', hes', rfl⟩
  · exact h q hold hl
  · exact hes es' hes' hl

/-- While RD stays off L, any frame may be sent. -/
theorem NoContention.append_rd_high {d : BitVec 3} {p : Params} {tr es : List Event} (h : NoContention d p tr)
    (hrd : lastLine tr .rd = some .H) (hes : Event.line .rd .L ∉ es) : NoContention d p (tr ++ es) := by
  refine h.append fun q hq hl => absurd hl ?_
  have hnot := lastLine_ne_of_not_mem fun hm => hes (hq.subset hm)
  rw [lastLine_append, hrd]
  cases hlast : lastLine q .rd with
  | none => simp
  | some l => simpa [hlast] using hnot

/-- While the direction stays Input, RD may be driven. -/
theorem NoContention.append_input {d : BitVec 3} {p : Params} {tr es : List Event} (h : NoContention d p tr)
    (hdir : lastWritten tr d Config.regIodir = some p.dirIn) (hes : directionFrames es d = 0) :
    NoContention d p (tr ++ es) := by
  refine h.append fun q hq _ => ?_
  have hq0 : directionFrames q d ≤ directionFrames es d := hq.sublist.countP_le
  rw [lastWritten_iodir_append (by omega), hdir]

/-- Once RD is driven to H, any frame may be sent. -/
theorem NoContention.append_idle {d : BitVec 3} {p : Params} {tr es : List Event} (h : NoContention d p tr)
    (hes : Event.line .rd .L ∉ es) : NoContention d p (tr ++ Event.line .rd .H :: es) := by
  have hrd : lastLine (tr ++ [Event.line .rd .H]) .rd = some .H := by simp [lastLine_snoc]
  have hfirst : NoContention d p (tr ++ [Event.line .rd .H]) := by
    intro q hq hl
    rcases List.prefix_concat_iff.1 hq with rfl | hold
    · simp [hrd] at hl
    · exact h q hold hl
  rw [List.append_cons]
  exact hfirst.append_rd_high hrd hes

/-- What holds between two bus cycles of such a session. -/
structure BusSafe (s : State) : Prop where
  honest : TraceHonest s
  idle : StrobesIdle s
  direction : ∃ d, s.drv.dir = some d ∧
    lastWritten s.trace s.world.expDev Config.regIodir = some (directionByte s.world.params d)
  no_contention : NoContention s.world.expDev s.world.params s.trace

theorem BusSafe.sessionSafe {s : State} (h : BusSafe s) : SessionSafe s :=
  ⟨h.honest, fun _ => h.idle, fun _ => h.direction, h.no_contention⟩

theorem SessionSafe.busSafe {s : State} (h : SessionSafe s) (ht : s.transferring = true) : BusSafe s :=
  ⟨h.honest, h.idle ht, h.direction ht, h.no_contention⟩

theorem BusSafe.of_inner {s t : State} (h : BusSafe s)
    (ht : t = { s with win := t.win, rdr := t.rdr, ses := t.ses, caller := t.caller }) : BusSafe t := by
  have hh := h.honest.of_inner ht
  rw [ht] at hh ⊢
  exact ⟨hh, h.idle, h.direction, h.no_contention⟩

theorem SessionSafe.deliver {s : State} (h : SessionSafe s) (r : OpResult) : SessionSafe (s.deliver r) :=
  ⟨h.honest.of_inner rfl, h.idle, h.direction, h.no_contention⟩

/-- Once the session has ended, no strobe and no direction is claimed. -/
theorem SessionSafe.of_ended {s : State} (hended : s.ses.phase = .ended) (hh : TraceHonest s)
    (hn : NoContention s.world.expDev s.world.params s.trace) : SessionSafe s := by
  have hno : s.transferring ≠ true := by simp [State.transferring, hended]
  exact ⟨hh, fun h => absurd h hno, fun h => absurd h hno, hn⟩

theorem BusSafe.rd_high {s : State} (h : BusSafe s) : lastLine s.trace .rd = some .H :=
  (h.honest.levels .rd).symm.trans h.idle.1

/-- R19: the cached direction is the one last sent. -/
theorem BusSafe.sent {s : State} (h : BusSafe s) {d : DataDirection} (hd : s.drv.dir = some d) :
    lastWritten s.trace s.world.expDev Config.regIodir = some (directionByte s.world.params d) := by
  obtain ⟨d', hd', hsent⟩ := h.direction
  obtain rfl : d = d' := Option.some.inj (hd.symm.trans hd')
  exact hsent

theorem BusSafe.addressed {s : State} (h : BusSafe s) (a : Addr) : BusSafe (s.addressed a) where
  honest := h.honest.addressed a
  idle := h.idle
  direction := by
    obtain ⟨d, hd, hsent⟩ := h.direction
    exact ⟨d, hd, (lastWritten_iodir_append rfl).trans hsent⟩
  no_contention := h.no_contention.append_rd_high h.rd_high (by simp)

/-- R91: turning the direction with the strobes idle. -/
theorem BusSafe.turned {s : State} (h : BusSafe s) {d : DataDirection} {r0 r1 r2 : Byte} (hd : s.drv.dir ≠ some d)
    (ha : s.world.answer = .answered r0 r1 r2) : BusSafe (s.turned d r0 r1 r2) where
  honest := by
    have hreach := setDir_reach .init d s
    rw [setDir_answered hd ha] at hreach
    exact hreach.honest h.honest
  idle := h.idle
  direction := ⟨d, rfl, by simp [State.turned, lastWritten_snoc]⟩
  no_contention := h.no_contention.append_rd_high h.rd_high (by simp)

theorem BusSafe.turnFailed {s : State} (h : BusSafe s) {ctx : BusContext} {d : DataDirection}
    (hd : s.drv.dir ≠ some d) (ha : s.world.answer = .failed) : SessionSafe (s.turnFailed ctx d) := by
  have hreach := setDir_reach ctx d s
  rw [setDir_failed hd ha] at hreach
  exact .of_ended rfl (hreach.honest h.honest) (h.no_contention.append_rd_high h.rd_high (by simp))

/-! ### A read cycle keeps the direction Input while RD is at L -/

theorem BusSafe.readDone {s : State} (h : BusSafe s) {r0 r1 b : Byte} (hd : s.drv.dir = some .input)
    (ha : s.world.answer = .answered r0 r1 b) : BusSafe (s.readDone r0 r1 b) where
  honest := by
    have hreach := readByte_reach .init s
    rw [readByte_input_answered hd ha] at hreach
    exact hreach.honest h.honest
  idle := ⟨rfl, h.idle.2.1, rfl⟩
  direction := ⟨.input, hd, (lastWritten_iodir_append (directionFrames_readEvents ..)).trans (h.sent hd)⟩
  no_contention := h.no_contention.append_input (h.sent hd) (directionFrames_readEvents ..)

theorem BusSafe.readFailed {s : State} (h : BusSafe s) {ctx : BusContext} (hd : s.drv.dir = some .input)
    (ha : s.world.answer = .failed) : SessionSafe (s.readFailed ctx) := by
  have hreach := readByte_reach ctx s
  rw [readByte_input_failed hd ha] at hreach
  refine .of_ended rfl (hreach.honest h.honest) ?_
  show NoContention _ _ (s.trace ++ _ ++ _ ++ _)
  rw [List.append_assoc, List.append_assoc]
  refine h.no_contention.append_input (h.sent hd) ?_
  simp only [directionFrames_append, directionFrames_settleEvents]
  rfl

theorem BusSafe.readByte {s : State} (h : BusSafe s) (ctx : BusContext) :
    (readByte ctx s).Leaves BusSafe SessionSafe := by
  rcases readByte_cases ctx s with ⟨s1, h1, hend⟩ | ⟨hd, ha, he⟩
  · have hs1 : BusSafe s1 ∧ s1.drv.dir = some .input := by
      rcases h1 with ⟨hd, rfl⟩ | ⟨hd, x0, x1, x2, ha, rfl⟩
      · exact ⟨h, hd⟩
      · exact ⟨h.turned hd ha, rfl⟩
    obtain ⟨hsafe, hd⟩ := hs1
    rcases hend with ⟨r0, r1, b, ha, he⟩ | ⟨ha, he⟩ <;> rw [he]
    · have hdone := hsafe.readDone hd ha
      exact ⟨fun _ _ heq => by cases heq; exact hdone, hdone.sessionSafe⟩
    · exact .err _ (hsafe.readFailed hd ha)
  · rw [he]
    exact .err _ (h.turnFailed hd ha)

/-! ### A write cycle never drives RD to L -/

theorem rd_low_not_mem_settleEvents {c : Option Level} {ln : Line} {l : Level} {t : Nat} (h : ln ≠ .rd ∨ l ≠ .L) :
    Event.line .rd .L ∉ settleEvents c ln l t := by
  unfold settleEvents
  split
  · simp
  · rcases h with h | h <;> simp [h.symm]

theorem rd_low_not_mem_writeEventsToStrobe {c : Levels} {d : BitVec 3} {tLow : Nat} {v r0 r1 r2 : Byte} :
    Event.line .rd .L ∉ writeEventsToStrobe c d tLow v r0 r1 r2 := by
  have hedge : Event.line .rd .L ∉ edgeEvents c.wr .wr .L := by unfold edgeEvents; split <;> simp
  have hlow : Event.line .rd .L ∉ lowEvents tLow := by unfold lowEvents; split <;> simp
  simp only [writeEventsToStrobe, List.mem_append, not_or]
  exact ⟨⟨⟨⟨⟨rd_low_not_mem_settleEvents (.inr (by decide)), rd_low_not_mem_settleEvents (.inl (by decide))⟩,
    by simp⟩, hedge⟩, hlow⟩, by simp⟩

theorem BusSafe.writeDone {s : State} (h : BusSafe s) {v r0 r1 r2 : Byte} (hd : s.drv.dir = some .output)
    (ha : s.world.answer = .answered r0 r1 r2) : BusSafe (s.writeDone v r0 r1 r2) where
  honest := by
    have hreach := writeByte_reach .init v s
    rw [writeByte_output_answered hd ha] at hreach
    exact hreach.honest h.honest
  idle := ⟨rfl, rfl, rfl⟩
  direction := by
    refine ⟨.output, hd, ?_⟩
    simp only [State.writeDone, List.append_assoc]
    rw [lastWritten_iodir_append]
    · exact h.sent hd
    · rw [directionFrames_append, directionFrames_writeEventsToStrobe]
      rfl
  no_contention := by
    simp only [State.writeDone, List.append_assoc]
    refine h.no_contention.append_rd_high h.rd_high fun hm => ?_
    rcases List.mem_append.1 hm with hm | hm
    · exact rd_low_not_mem_writeEventsToStrobe hm
    · simp at hm

theorem BusSafe.writeFailed {s : State} (h : BusSafe s) {ctx : BusContext} {v : Byte} (hd : s.drv.dir = some .output)
    (ha : s.world.answer = .failed) : SessionSafe (s.writeFailed ctx v) := by
  have hreach := writeByte_reach ctx v s
  rw [writeByte_output_failed hd ha] at hreach
  refine .of_ended rfl (hreach.honest h.honest) ?_
  show NoContention _ _ (s.trace ++ _ ++ _ ++ _)
  rw [List.append_assoc, List.append_assoc]
  refine h.no_contention.append_rd_high h.rd_high ?_
  simp only [List.mem_append, not_or]
  exact ⟨rd_low_not_mem_settleEvents (.inr (by decide)), rd_low_not_mem_settleEvents (.inl (by decide)), by simp⟩

theorem BusSafe.writeByte {s : State} (h : BusSafe s) (ctx : BusContext) (v : Byte) :
    (writeByte ctx v s).Leaves BusSafe SessionSafe := by
  rcases writeByte_cases ctx v s with ⟨s1, h1, hend⟩ | ⟨hd, ha, he⟩
  · have hs1 : BusSafe s1 ∧ s1.drv.dir = some .output := by
      rcases h1 with ⟨hd, rfl⟩ | ⟨hd, x0, x1, x2, ha, rfl⟩
      · exact ⟨h, hd⟩
      · exact ⟨h.turned hd ha, rfl⟩
    obtain ⟨hsafe, hd⟩ := hs1
    rcases hend with ⟨r0, r1, r2, ha, he⟩ | ⟨ha, he⟩ <;> rw [he]
    · have hdone := hsafe.writeDone (v := v) hd ha
      exact ⟨fun _ _ heq => by cases heq; exact hdone, hdone.sessionSafe⟩
    · exact .err _ (hsafe.writeFailed hd ha)
  · rw [he]
    exact .err _ (h.turnFailed hd ha)

theorem BusSafe.busRead {s : State} (h : BusSafe s) (ctx : BusContext) (a : Addr) :
    (busRead ctx a s).Leaves BusSafe SessionSafe :=
  (h.addressed a).readByte ctx

theorem BusSafe.busWrite {s : State} (h : BusSafe s) (ctx : BusContext) (a : Addr) (v : Byte) :
    (busWrite ctx a v s).Leaves BusSafe SessionSafe :=
  (h.addressed a).writeByte ctx v

theorem busSafe_invariant : BusInvariant BusSafe SessionSafe where
  weaken _ h := h.sessionSafe
  inner s t h ht := h.of_inner (by rw [ht])
  read ctx a _ _ h := h.busRead ctx a
  write ctx a v _ _ h := h.busWrite ctx a v

/-! ### Initialisation and teardown drive RD to H first -/

theorem initDriver_safe {s : State} (h : SessionSafe s) : SessionSafe (initDriver s).state := by
  have hh := (initDriver_reach s).honest h.honest
  rcases s.world.answer_cases with ⟨q0, q1, q2, h1⟩ | h1
  · rcases s.world.advance.answer_cases with ⟨r0, r1, r2, h2⟩ | h2
    · rw [initDriver_answered h1 h2] at hh ⊢
      exact BusSafe.sessionSafe ⟨hh, ⟨rfl, rfl, rfl⟩,
        ⟨.input, rfl, by simp [lastWritten, directionByte]⟩,
        h.no_contention.append_idle (by simp)⟩
    · rw [initDriver_failed_second h1 h2] at hh ⊢
      exact .of_ended rfl hh (h.no_contention.append_idle (by simp))
  · rw [initDriver_failed_first h1] at hh ⊢
    exact .of_ended rfl hh (h.no_contention.append_idle (by simp))

theorem teardown_safe {s : State} (h : SessionSafe s) : SessionSafe (teardown s) := by
  have hh := (teardown_reach s).honest h.honest
  rw [teardown, forceIdle_eq] at hh ⊢
  exact .of_ended rfl hh (h.no_contention.append_idle (by simp))

/-! ### The instructions -/

/-- R34: in a consistent state every row of the table but BD.INIT's and BD.TEARDOWN's is one of transfers. -/
theorem Consistent.transferring {s : State} (hc : Consistent s) {k : Admission} (hi : k ≠ .init) (ht : k ≠ .teardown)
    (h : admits k s = true) : s.transferring = true := by
  cases k with
  | init => exact absurd rfl hi
  | teardown => exact absurd rfl ht
  | transfer => exact h
  | window =>
    have hp : s.ses.phase = .headerPhase := by simpa [admits] using h
    simp [State.transferring, hp, (hc.header_phase hp).1]
  | reader =>
    have hp : s.ses.phase = .streaming := by simpa [admits] using h
    simp [State.transferring, hp, (hc.streaming hp).1]
  | bankSelect =>
    obtain ⟨hready, hp⟩ := (admits_bankSelect_iff s).1 h
    simp [State.transferring, hp, hready]

/-- Every instruction but the single steps of a transfer keeps a consistent session safe. -/
theorem exec_endsIn_safe {i : Instr} {s : State} (hi : isTransferStep i = false) (hc : Consistent s)
    (h : SessionSafe s) : EndsIn SessionSafe (exec i s) := by
  have bus : ∀ {k : Admission}, k ≠ .init → k ≠ .teardown → admits k s = true → BusSafe s :=
    fun hk ht ha => h.busSafe (hc.transferring hk ht ha)
  have transfer : admits .transfer s = true → BusSafe s := bus (by decide) (by decide)
  have window : admits .window s = true → BusSafe s := bus (by decide) (by decide)
  have select : admits .bankSelect s = true → BusSafe s := bus (by decide) (by decide)
  have reader : s.ses.phase = .streaming → BusSafe s := fun hp =>
    bus (k := .reader) (by decide) (by decide) (by simp [admits, hp])
  cases i with
  | bdSetDir | bdSetRd | bdSetCs | bdPulseWr | expWrite | expRead | expWrIocon | expWrIodir | expWrGpio
  | expRdGpio => cases hi
  | bdInit => exact issue_endsIn h fun _ => initDriver_safe h
  | bdTeardown => exact issue_always_endsIn h fun _ => teardown_safe h
  | bdSetAddress a => exact issue_always_endsIn h fun ha => ((transfer ha).addressed a).sessionSafe
  | bdReadByte => exact issue_endsIn h fun ha => ((transfer ha).readByte _).ends
  | bdWriteByte v => exact issue_endsIn h fun ha => ((transfer ha).writeByte _ v).ends
  | busRead a | busr a => exact issue_endsIn h fun ha => ((transfer ha).busRead _ a).ends
  | hwRead n => exact issue_endsIn h fun ha => (busSafe_invariant.windowRead n (window ha)).ends
  | hwSeek w off => exact issue_endsIn h fun ha => (busSafe_invariant.windowSeek w off (window ha)).ends
  | dispatch => exact issue_endsIn h fun ha => (busSafe_invariant.dispatchWith _ (window ha)).ends
  | rdrRead n => exact issueReader_endsIn h fun _ hp _ => (busSafe_invariant.streamRead n (reader hp)).ends
  | rdrSize | rdrStatus => exact issueReader_endsIn h fun _ _ _ => h
  | bankselMbc1 b | bankselMbc5 b =>
    exact issue_endsIn h fun ha => (((select ha).busWrite _ _ _).bind fun _ _ ht => ht.busWrite _ _ _).ends
  | busWrite a v => exact issue_endsIn h fun ha => ((select ha).busWrite _ a v).ends
  | bankselMbc2 b | bankselMbc3 b | buswMbc1SelLo b | buswMbc1SelHi b | buswMbc2Sel b | buswMbc3Sel b
  | buswMbc5SelLo b | buswMbc5SelHi b => exact issue_endsIn h fun ha => ((select ha).busWrite _ _ _).ends

/-- Settles O58, by `exec_endsIn_safe`. -/
theorem sessionOperationsNeverCauseContention : Obligations.SessionOperationsNeverCauseContention := by
  intro i s t hi hc h hexec
  obtain ⟨u, r, hu, he⟩ := exec_endsIn_safe hi hc h
  obtain rfl : u.deliver r = t := Host.Outcome.next.inj (he.symm.trans hexec)
  exact hu.deliver r

end Sys2Proof.Machine
end

section
/-! PROOFS of the statements of 10_state.md, fourth part: what a session without micro-operations ever drives, sends and
writes (R37, R47, R56, R72, R84), and the reset state (R41, R42). -/

namespace Sys2Proof.Machine

/-! ## Confined traces -/

/-- R47, R84: the events that a confined trace may hold: addresses below 0x8000 and the four frame forms. -/
def ConfinedEvent (d : BitVec 3) (p : Params) : Event → Prop
  | .addr a => a.toNat < 0x8000
  | .spi t0 t1 t2 _ _ _ => EngineFrame d p t0 t1 t2
  | .spiFail t0 t1 t2 => EngineFrame d p t0 t1 t2
  | _ => True

@[simp] theorem confinedEvent_line (d : BitVec 3) (p : Params) (ln : Line) (l : Level) :
    ConfinedEvent d p (.line ln l) := trivial
@[simp] theorem confinedEvent_wait (d : BitVec 3) (p : Params) (t : Nat) : ConfinedEvent d p (.wait t) := trivial

theorem confinedEvent_settleEvents {d : BitVec 3} {p : Params} {c : Option Level} {ln : Line} {l : Level} {t : Nat} :
    ∀ e ∈ settleEvents c ln l t, ConfinedEvent d p e := by
  unfold settleEvents
  split <;> simp

/-- R72: the frames of a direction, of a byte read and of a byte written. -/
theorem engineFrame_turn (d : BitVec 3) (p : Params) (x : DataDirection) :
    EngineFrame d p (writeCommand d) Config.regIodir (directionByte p x) :=
  .inr (.inl ⟨rfl, rfl, by cases x <;> simp [directionByte]⟩)

theorem engineFrame_read (d : BitVec 3) (p : Params) :
    EngineFrame d p (readCommand d) Config.regGpio Config.dontCare :=
  .inr (.inr (.inr ⟨rfl, rfl, rfl⟩))

theorem engineFrame_write (d : BitVec 3) (p : Params) (v : Byte) :
    EngineFrame d p (writeCommand d) Config.regGpio v :=
  .inr (.inr (.inl ⟨rfl, rfl⟩))

theorem engineFrame_iocon (d : BitVec 3) (p : Params) :
    EngineFrame d p (writeCommand d) Config.regIocon p.ioconInit :=
  .inl ⟨rfl, rfl, rfl⟩

theorem engineFrame_dirIn (d : BitVec 3) (p : Params) :
    EngineFrame d p (writeCommand d) Config.regIodir p.dirIn :=
  engineFrame_turn d p .input

theorem confinedEvent_readEvents {d : BitVec 3} {p : Params} {v : Levels} {r0 r1 b : Byte} :
    ∀ e ∈ readEvents v d r0 r1 b, ConfinedEvent d p e := by
  simp only [readEvents, List.forall_mem_append, List.forall_mem_cons]
  exact ⟨⟨confinedEvent_settleEvents, confinedEvent_settleEvents⟩, engineFrame_read d p, trivial, trivial,
    trivial, trivial, List.forall_mem_nil _⟩

theorem confinedEvent_writeEventsToStrobe {d : BitVec 3} {p : Params} {c : Levels} {tLow : Nat} {v r0 r1 r2 : Byte} :
    ∀ e ∈ writeEventsToStrobe c d tLow v r0 r1 r2, ConfinedEvent d p e := by
  have hedge : ∀ e ∈ edgeEvents c.wr .wr .L, ConfinedEvent d p e := by unfold edgeEvents; split <;> simp
  have hlow : ∀ e ∈ lowEvents tLow, ConfinedEvent d p e := by unfold lowEvents; split <;> simp
  simp only [writeEventsToStrobe, List.forall_mem_append, List.forall_mem_cons]
  exact ⟨⟨⟨⟨⟨confinedEvent_settleEvents, confinedEvent_settleEvents⟩, engineFrame_write d p v, trivial,
    List.forall_mem_nil _⟩, hedge⟩, hlow⟩, trivial, List.forall_mem_nil _⟩

/-- A confined state whose trace and cartridge have grown by confined events and writes to the bank-select registers: a
WR pulse among them comes with no address, so that it finds the one driven before. -/
theorem Confined.append {s t : State} {es : List Event} (h : Confined s) (htrace : t.trace = s.trace ++ es)
    (hdev : t.world.expDev = s.world.expDev) (hparams : t.world.params = s.world.params)
    (hes : ∀ e ∈ es, ConfinedEvent s.world.expDev s.world.params e)
    (hstrobe : Event.line .wr .L ∈ es → addrsOf es = [] ∧ ∃ a ∈ bankSelects, lastAddr s.trace = some a)
    (hcart : ∀ c ∈ t.cart, c ∈ s.cart ∨ ∃ a ∈ bankSelects, c.1 = a.toNat) : Confined t where
  addresses a ha := by
    rw [htrace] at ha
    exact (List.mem_append.1 ha).elim (h.addresses a) (hes _)
  frames t0 t1 t2 r0 r1 r2 hf := by
    rw [htrace] at hf
    rw [hdev, hparams]
    exact (List.mem_append.1 hf).elim (h.frames _ _ _ _ _ _) (hes _)
  failed_frames t0 t1 t2 hf := by
    rw [htrace] at hf
    rw [hdev, hparams]
    exact (List.mem_append.1 hf).elim (h.failed_frames _ _ _) (hes _)
  strobes q hq := by
    rw [htrace] at hq
    rcases prefix_append_cases hq with hold | ⟨es', hes', heq⟩
    · exact h.strobes q hold
    · rcases List.eq_nil_or_concat' es' with rfl | ⟨es'', e, rfl⟩
      · exact h.strobes q (by rw [heq, List.append_nil])
      · rw [← List.append_assoc] at heq
        obtain ⟨rfl, hlast⟩ := List.append_inj' heq rfl
        obtain rfl : Event.line .wr .L = e := by simpa using hlast
        obtain ⟨hnone, a, ha, hlast⟩ := hstrobe (hes'.subset (by simp))
        have hsilent : addrsOf es'' = [] := by
          obtain ⟨rest, hrest⟩ := hes'
          rw [← hrest] at hnone
          simp only [addrsOf_append, List.append_eq_nil_iff] at hnone
          exact hnone.1.1
        exact ⟨a, ha, by rw [lastAddr_append, lastAddr_eq_none hsilent, Option.none_or, hlast]⟩
  written c hc := by
    rcases hcart c hc with hold | ⟨a, ha, hca⟩
    · exact h.written c hold
    · rw [hca]
      simp only [bankSelects, List.mem_cons, List.not_mem_nil, or_false] at ha
      rcases ha with rfl | rfl | rfl | rfl <;> decide

/-- An operation that emits no WR pulse and stores nothing. -/
theorem Confined.append_no_strobe {s t : State} {es : List Event} (h : Confined s) (htrace : t.trace = s.trace ++ es)
    (hdev : t.world.expDev = s.world.expDev) (hparams : t.world.params = s.world.params)
    (hes : ∀ e ∈ es, ConfinedEvent s.world.expDev s.world.params e) (hno : Event.line .wr .L ∉ es)
    (hcart : t.cart = s.cart) : Confined t :=
  h.append htrace hdev hparams hes (fun hm => absurd hm hno) fun _ hc => .inl (hcart ▸ hc)

/-- Confinement says nothing of the driver, the window, the reader, the session and the caller. -/
theorem Confined.of_inner {s t : State} (h : Confined s) (htrace : t.trace = s.trace)
    (hdev : t.world.expDev = s.world.expDev) (hparams : t.world.params = s.world.params) (hcart : t.cart = s.cart) :
    Confined t :=
  h.append_no_strobe (es := []) (by simp [htrace]) hdev hparams (by simp) (by simp) hcart

theorem Confined.addressed {s : State} (h : Confined s) {a : Addr} (ha : a.toNat < 0x8000) : Confined (s.addressed a) :=
  h.append_no_strobe (es := [.addr a]) rfl rfl rfl (by simpa [ConfinedEvent] using ha) (by simp) rfl

theorem Confined.turned {s : State} (h : Confined s) (d : DataDirection) (r0 r1 r2 : Byte) :
    Confined (s.turned d r0 r1 r2) :=
  h.append_no_strobe rfl rfl rfl (List.forall_mem_singleton.2 (engineFrame_turn ..)) (by simp) rfl

theorem Confined.turnFailed {s : State} (h : Confined s) (ctx : BusContext) (d : DataDirection) :
    Confined (s.turnFailed ctx d) :=
  h.append_no_strobe rfl rfl rfl (List.forall_mem_singleton.2 (engineFrame_turn ..)) (by simp) rfl

theorem wr_low_not_mem_settleEvents {c : Option Level} {ln : Line} {l : Level} {t : Nat} (h : ln ≠ .wr) :
    Event.line .wr .L ∉ settleEvents c ln l t := by
  unfold settleEvents
  split <;> simp [h.symm]

theorem Confined.readDone {s : State} (h : Confined s) (r0 r1 b : Byte) : Confined (s.readDone r0 r1 b) := by
  refine h.append_no_strobe rfl rfl rfl confinedEvent_readEvents ?_ rfl
  simp only [readEvents, List.mem_append, not_or]
  exact ⟨⟨wr_low_not_mem_settleEvents (by decide), wr_low_not_mem_settleEvents (by decide)⟩, by simp⟩

theorem Confined.readFailed {s : State} (h : Confined s) (ctx : BusContext) : Confined (s.readFailed ctx) := by
  refine h.append_no_strobe (List.append_assoc _ _ _ |>.trans (List.append_assoc ..)) rfl rfl ?_ ?_ rfl
  · simp only [List.forall_mem_append, List.forall_mem_singleton]
    exact ⟨confinedEvent_settleEvents, confinedEvent_settleEvents, engineFrame_read _ _⟩
  · simp only [List.mem_append, not_or]
    exact ⟨wr_low_not_mem_settleEvents (by decide), wr_low_not_mem_settleEvents (by decide), by simp⟩

theorem Confined.readByte {s : State} (h : Confined s) (ctx : BusContext) : Confined (readByte ctx s).state := by
  rcases readByte_cases ctx s with ⟨s1, h1, hend⟩ | ⟨hd, ha, he⟩
  · have hs1 : Confined s1 := by
      rcases h1 with ⟨-, rfl⟩ | ⟨-, x0, x1, x2, -, rfl⟩
      · exact h
      · exact h.turned _ _ _ _
    rcases hend with ⟨r0, r1, b, -, he⟩ | ⟨-, he⟩ <;> rw [he]
    · exact hs1.readDone r0 r1 b
    · exact hs1.readFailed ctx
  · rw [he]
    exact h.turnFailed ctx _

/-! ### A write cycle finds its own address on the lines -/

/-- A confined state with the address of a bank-select register on the address lines. -/
structure Aimed (a : Addr) (s : State) : Prop where
  confined : Confined s
  select : a ∈ bankSelects
  last : lastAddr s.trace = some a
  cached : s.drv.addr = some a

theorem bankSelects_lt {a : Addr} (h : a ∈ bankSelects) : a.toNat < 0x8000 := by
  simp only [bankSelects, List.mem_cons, List.not_mem_nil, or_false] at h
  rcases h with rfl | rfl | rfl | rfl <;> decide

theorem Confined.aimed {s : State} (h : Confined s) {a : Addr} (ha : a ∈ bankSelects) : Aimed a (s.addressed a) :=
  ⟨h.addressed (bankSelects_lt ha), ha, by simp [State.addressed, lastAddr_snoc], rfl⟩

theorem Aimed.turned {a : Addr} {s : State} (h : Aimed a s) (d : DataDirection) (r0 r1 r2 : Byte) :
    Aimed a (s.turned d r0 r1 r2) :=
  ⟨h.confined.turned d r0 r1 r2, h.select, by simpa [State.turned, lastAddr_snoc] using h.last, h.cached⟩

theorem Aimed.writeDone {a : Addr} {s : State} (h : Aimed a s) (v r0 r1 r2 : Byte) :
    Confined (s.writeDone v r0 r1 r2) := by
  refine h.confined.append (List.append_assoc ..) rfl rfl ?_ (fun _ => ⟨by simp, a, h.select, h.last⟩) fun c hc => ?_
  · simp only [List.forall_mem_append]
    exact ⟨confinedEvent_writeEventsToStrobe, by simp⟩
  · simp only [State.writeDone, h.cached, Option.getD_some] at hc
    rcases Memory.mem_write hc with rfl | hc
    · exact .inr ⟨a, h.select, rfl⟩
    · exact .inl hc

theorem Confined.writeFailed {s : State} (h : Confined s) (ctx : BusContext) (v : Byte) :
    Confined (s.writeFailed ctx v) := by
  refine h.append_no_strobe (List.append_assoc _ _ _ |>.trans (List.append_assoc ..)) rfl rfl ?_ ?_ rfl
  · simp only [List.forall_mem_append, List.forall_mem_singleton]
    exact ⟨confinedEvent_settleEvents, confinedEvent_settleEvents, engineFrame_write _ _ v⟩
  · simp only [List.mem_append, not_or]
    exact ⟨wr_low_not_mem_settleEvents (by decide), wr_low_not_mem_settleEvents (by decide), by simp⟩

theorem Aimed.writeByte {a : Addr} {s : State} (h : Aimed a s) (ctx : BusContext) (v : Byte) :
    Confined (writeByte ctx v s).state := by
  rcases writeByte_cases ctx v s with ⟨s1, h1, hend⟩ | ⟨hd, ha, he⟩
  · have hs1 : Aimed a s1 := by
      rcases h1 with ⟨-, rfl⟩ | ⟨-, x0, x1, x2, -, rfl⟩
      · exact h
      · exact h.turned _ _ _ _
    rcases hend with ⟨r0, r1, r2, -, he⟩ | ⟨-, he⟩ <;> rw [he]
    · exact hs1.writeDone v r0 r1 r2
    · exact hs1.confined.writeFailed ctx v
  · rw [he]
    exact h.confined.turnFailed ctx _

theorem Res.Leaves.of_state {α : Type} {P : State → Prop} {r : Res α} (h : P r.state) : r.Leaves P P :=
  ⟨fun _ _ he => by rw [he] at h; exact h, h⟩

theorem confined_invariant : BusInvariant Confined Confined where
  weaken _ h := h
  inner s t h ht := by rw [ht]; exact h.of_inner rfl rfl rfl rfl
  read ctx _ _ ha h := .of_state ((h.addressed ha).readByte ctx)
  write ctx _ v _ ha h := .of_state ((h.aimed ha).writeByte ctx v)

/-! ### Initialisation and teardown -/

theorem initDriver_confined {s : State} (h : Confined s) : Confined (initDriver s).state := by
  have hiocon := engineFrame_iocon s.world.expDev s.world.params
  have hiodir := engineFrame_dirIn s.world.expDev s.world.params
  rcases s.world.answer_cases with ⟨q0, q1, q2, h1⟩ | h1
  · rcases s.world.advance.answer_cases with ⟨r0, r1, r2, h2⟩ | h2
    · rw [initDriver_answered h1 h2]
      exact h.append_no_strobe rfl rfl rfl (by simp [ConfinedEvent, hiocon, hiodir]) (by simp) rfl
    · rw [initDriver_failed_second h1 h2]
      exact h.append_no_strobe rfl rfl rfl (by simp [ConfinedEvent, hiocon, hiodir]) (by simp) rfl
  · rw [initDriver_failed_first h1]
    exact h.append_no_strobe rfl rfl rfl (by simp [ConfinedEvent, hiocon]) (by simp) rfl

theorem teardown_confined {s : State} (h : Confined s) : Confined (teardown s) := by
  rw [teardown, forceIdle_eq]
  exact h.append_no_strobe rfl rfl rfl (by simp) (by simp) rfl

theorem exec_endsIn_confined {i : Instr} {s : State} (hi : i.isSessionOp = true) (h : Confined s) :
    EndsIn Confined (exec i s) := by
  cases i with
  | bdInit => exact issue_endsIn h fun _ => initDriver_confined h
  | bdTeardown => exact issue_always_endsIn h fun _ => teardown_confined h
  | hwRead n => exact issue_endsIn h fun _ => (confined_invariant.windowRead n h).ends
  | hwSeek w off => exact issue_endsIn h fun _ => (confined_invariant.windowSeek w off h).ends
  | dispatch => exact issue_endsIn h fun _ => (confined_invariant.dispatchWith _ h).ends
  | rdrRead n => exact issueReader_endsIn h fun _ _ _ => (confined_invariant.streamRead n h).ends
  | rdrSize | rdrStatus => exact issueReader_endsIn h fun _ _ _ => h
  | _ => cases hi

/-! ## The reset state (R41, R42) -/

/-- R42: nothing has been driven, sent or written before BD.INIT. -/
theorem powerOn_confined : Confined State.powerOn where
  addresses := nofun
  frames := nofun
  failed_frames := nofun
  strobes q hq := absurd (List.prefix_nil.1 hq) (by simp)
  written := nofun

/-- R170: the trace of reset is that of BD.INIT: no WR pulse, and its two configuration frames. -/
theorem reset_confined : Confined State.reset :=
  powerOn_confined.append_no_strobe rfl rfl rfl
    (by simp [State.powerOn, ConfinedEvent, engineFrame_iocon _ Config.params, engineFrame_dirIn _ Config.params,
      show Config.ioconInit = Config.params.ioconInit from rfl, show Config.dirIn = Config.params.dirIn from rfl])
    (by simp) rfl

/-- Settles O59, by `reset_confined` and `exec_endsIn_confined`. -/
theorem sessionOperationsStayConfined : Obligations.SessionOperationsStayConfined := by
  refine ⟨reset_confined, fun i s t hi h hexec => ?_⟩
  obtain ⟨u, r, hu, he⟩ := exec_endsIn_confined hi h
  obtain rfl : u.deliver r = t := Host.Outcome.next.inj (he.symm.trans hexec)
  exact hu.of_inner rfl rfl rfl rfl

/-- Settles O8: both states are written out in the model. -/
theorem resetAndPowerOnHoldTheSpecsValues : Obligations.ResetAndPowerOnHoldTheSpecsValues :=
  ⟨⟨rfl, rfl, rfl, rfl, rfl, rfl, rfl, rfl, rfl, rfl⟩, rfl, rfl, rfl, rfl, rfl, rfl, rfl⟩

theorem reset_consistent : Consistent State.reset where
  pre_init := nofun
  header_phase _ := ⟨rfl, rfl, rfl⟩
  streaming := nofun
  torn_down := nofun
  window := Nat.zero_le _
  reader := nofun
  rst_high _ := rfl

/-- R170: the last direction frame of reset is BD.INIT's. -/
theorem reset_lastWritten_iodir :
    lastWritten State.reset.trace State.reset.world.expDev Config.regIodir = some Config.dirIn := by
  simp [State.reset, lastWritten]

theorem reset_traceHonest : TraceHonest State.reset where
  levels ln := by cases ln <;> rfl
  address := rfl
  iodir v h := by
    rw [reset_lastWritten_iodir] at h
    exact Option.some.inj h
  iocon v h := by
    simpa [State.reset, lastWritten, Config.regIodir, Config.regIocon] using h
  gpio v h := by
    simp [State.reset, lastWritten, Config.regIodir, Config.regIocon, Config.regGpio] at h

/-- R103: reset drives RD to H first, and never to L. -/
theorem reset_sessionSafe : SessionSafe State.reset where
  honest := reset_traceHonest
  idle _ := ⟨rfl, rfl, rfl⟩
  direction _ := ⟨.input, rfl, reset_lastWritten_iodir⟩
  no_contention := by
    have hempty : NoContention Config.expDev Config.params [] := by
      intro q hq hl
      rw [List.prefix_nil.1 hq] at hl
      cases hl
    exact hempty.append_idle (by simp)

/-- Settles O53, by the four lemmas; in HeaderPhase there is no stream to track. -/
theorem resetSatisfiesTheInvariants : Obligations.ResetSatisfiesTheInvariants :=
  ⟨reset_consistent, reset_traceHonest, reset_sessionSafe, nofun⟩

end Sys2Proof.Machine
end

section
/-! PROOFS of the statements of 20_memory.md: where a bus write stores its byte (R55, R109, R179), and that the
cartridge's written bytes keep their canonical form over every step (R46, log 14). -/

namespace Sys2Proof.Machine

/-! ## A write cycle at a driven address (R98, R179) -/

/-- R179: a write strobe stores at the address on the address lines, whatever byte the data lines carry (log 14). -/
theorem writeDone_cart {s : State} {a : Addr} (v r0 r1 r2 : Byte) (ha : s.drv.addr = some a) :
    ∃ x, (s.writeDone v r0 r1 r2).cart = Memory.write s.cart a.toNat x := by
  simp only [State.writeDone, ha, Option.getD_some]
  exact ⟨_, rfl⟩

theorem writeByte_ok_cart {ctx : BusContext} {v : Byte} {s t : State} {u : Unit} {a : Addr}
    (ha : s.drv.addr = some a) (h : writeByte ctx v s = .ok u t) :
    ∃ x, t.cart = Memory.write s.cart a.toNat x := by
  rcases writeByte_cases ctx v s with ⟨s1, h1, ⟨r0, r1, r2, -, he⟩ | ⟨-, he⟩⟩ | ⟨-, -, he⟩ <;> rw [he] at h <;> cases h
  rcases h1 with ⟨-, rfl⟩ | ⟨-, x0, x1, x2, -, rfl⟩
  · exact writeDone_cart v r0 r1 r2 ha
  · exact writeDone_cart (s := s.turned .output x0 x1 x2) v r0 r1 r2 ha

/-- A write cycle, completed or failed, changes no byte but the one at the address on the address lines. -/
theorem writeByte_read_other {v : Byte} {s : State} {a : Addr} (ctx : BusContext) (ha : s.drv.addr = some a) {b : Nat}
    (hb : b ≠ a.toNat) : Memory.read (writeByte ctx v s).state.cart b = Memory.read s.cart b := by
  cases h : writeByte ctx v s with
  | ok u t =>
    obtain ⟨x, hx⟩ := writeByte_ok_cart ha h
    rw [Res.state_ok, hx, Memory.read_write_other _ _ _ _ hb]
  | err e t =>
    obtain ⟨-, k⟩ := writeByte_err h
    rw [Res.state_err, k.cart]

/-- A write cycle that records no fault completed, and where the expander drives the bus it stored its byte. -/
theorem writeByte_read_self {v : Byte} {s : State} {a : Addr} (ctx : BusContext) (ha : s.drv.addr = some a)
    (hf : (writeByte ctx v s).state.ses.fault = none) (ho : OutputDriven s) (hwf : Memory.wf s.cart = true) :
    Memory.read (writeByte ctx v s).state.cart a.toNat = v := by
  cases h : writeByte ctx v s with
  | ok u t =>
    obtain ⟨-, hstored⟩ := (writeByte_ok h).stored ho
    rw [Res.state_ok, hstored a ha, Memory.read_write_self _ _ hwf]
  | err e t =>
    obtain ⟨-, k⟩ := writeByte_err h
    rw [h, Res.state_err, k.ses] at hf
    cases hf

/-- R74, R109: an admitted bus write, in whichever format, drives its address and is BD.WRITE_BYTE from there. -/
theorem exec_busWrite {i : Instr} {a : Addr} {v : Byte} {s : State} (hw : busWriteOf i = some (a, v))
    (hrow : admits .bankSelect s = true) :
    exec i s = .next (finish noValue (writeByte (directContext s) v (s.addressed a))) := by
  cases i with
  | busWrite _ _ | buswMbc1SelLo _ | buswMbc1SelHi _ | buswMbc2Sel _ | buswMbc3Sel _ | buswMbc5SelLo _
  | buswMbc5SelHi _ => cases hw; exact issue_admitted hrow
  | _ => cases hw

/-- R98, R109: every instruction that writes `v` at the address `a` is, once admitted, a write cycle that finds `a` on
the address lines. -/
theorem exec_writeAt {i : Instr} {a : Addr} {v : Byte} {s : State}
    (hw : busWriteOf i = some (a, v) ∨ i = .bdWriteByte v ∧ s.drv.addr = some a) (ha : admitted i s = true) :
    ∃ s0, (s0 = s.addressed a ∨ s0 = s) ∧ s0.drv.addr = some a ∧
      exec i s = .next (finish noValue (writeByte (directContext s) v s0)) := by
  obtain ⟨hrow, -⟩ := (admitted_iff i s).1 ha
  rcases hw with hw | ⟨rfl, haddr⟩
  · rw [admissionOf_busWrite hw] at hrow
    exact ⟨_, .inl rfl, rfl, exec_busWrite hw hrow⟩
  · exact ⟨s, .inr rfl, haddr, issue_admitted hrow⟩

/-- Settles O26: a refused write changes nothing, and an admitted one is a write cycle at its address
(`exec_writeAt`). -/
theorem busWritesStoreAtTheirAddressOnly : Obligations.BusWritesStoreAtTheirAddressOnly := by
  intro i a v s t hw hexec
  cases hadm : admitted i s with
  | false =>
    rw [exec_refused hadm] at hexec
    cases hexec
    exact ⟨fun _ _ => rfl, nofun⟩
  | true =>
    obtain ⟨s0, hs0, haddr, hrun⟩ := exec_writeAt hw hadm
    rw [hrun] at hexec
    cases hexec
    have hcart : s0.cart = s.cart := by rcases hs0 with rfl | rfl <;> rfl
    have hdriven : OutputDriven s → OutputDriven s0 := by rcases hs0 with rfl | rfl <;> exact id
    refine ⟨fun b hb => ?_, fun _ hf _ ho hwf => ?_⟩
    · exact (writeByte_read_other _ haddr hb).trans (by rw [hcart])
    · exact writeByte_read_self _ haddr hf (hdriven ho) (hcart ▸ hwf)

/-! ## The canonical form (R46, log 14) -/

theorem strobeWrite_memory_wf {s : State} (h : Memory.wf s.cart = true) : Memory.wf s.strobeWrite.cart = true := by
  unfold State.strobeWrite
  split
  · exact Memory.wf_write _ _ _ h
  · exact h

/-- A write strobe is the one small step that touches the cartridge's bytes. -/
theorem Micro.memory_wf {s t : State} (hm : Micro s t) (h : Memory.wf s.cart = true) : Memory.wf t.cart = true := by
  cases hm with
  | strobe => exact strobeWrite_memory_wf h
  | line | wait | addr | answered | failed | dir => exact h
  | inner _ _ hi =>
    rw [hi]
    exact h

theorem Reach.memory_wf {s t : State} (hr : Reach s t) (h : Memory.wf s.cart = true) : Memory.wf t.cart = true :=
  hr.keeps (P := fun x => Memory.wf x.cart = true) (fun _ _ => Micro.memory_wf) h

/-- Settles O55: a step is small steps (`step_ends`), each of which keeps the canonical form (`Micro.memory_wf`). -/
theorem stepKeepsTheMemoryCanonical : Obligations.StepKeepsTheMemoryCanonical := by
  refine ⟨reset_memory_wf, fun s t h hstep => ?_⟩
  rcases step_ends s t hstep with rfl | ⟨rest, u, r, hreach, rfl⟩
  · exact h
  · exact hreach.memory_wf h

end Sys2Proof.Machine
end

section
/-! PROOFS of the statements of 30_encoding.md, first part: no bit of a call is dropped and none is made up by the
decoder (R67-R86). -/

namespace Sys2Proof.Machine

/-! ## Words: a row's pattern and its fields (R67, R74) -/

/-- A word that matches a row is the row's pattern and, outside the row's mask, its own bits. -/
theorem matchesRow_split {w mask pattern : BitVec 24} (h : matchesRow w mask pattern = true) :
    w = pattern ||| w &&& ~~~mask := by
  have hp : w &&& mask = pattern := by simpa [matchesRow] using h
  rw [← hp, ← BitVec.and_or_distrib_left, BitVec.or_not_self, BitVec.and_allOnes]

/-- A field of a word, put back where it was read, is the word's own bits there. -/
theorem extractLsb'_in_place {n : Nat} (w : BitVec n) (lo len : Nat) :
    (w.extractLsb' lo len).setWidth n <<< lo = w &&& (BitVec.allOnes len).setWidth n <<< lo := by
  ext i hi
  by_cases hlo : i < lo
  · simp [hlo]
  · by_cases hlen : i - lo < len
    · simp [hlo, hlen, show lo + (i - lo) = i by omega, BitVec.getLsbD_eq_getElem hi]
    · simp [hlo, hlen]

/-- Four parts of a word, the pattern's two before the fields' two. -/
theorem bitVec_or_or_or_comm {n : Nat} (a b c d : BitVec n) : a ||| b ||| c ||| d = a ||| c ||| (b ||| d) := by ac_rfl

/-- R67, R68: a frame word that matches its row is made of the row's command byte and register and of its own device and
data fields. -/
theorem frameWord_of_matchesRow {F : BitVec 24} {op r : Byte} {command : BitVec 3 → Byte}
    (hcommand : ∀ d, (command d).setWidth 24 <<< 16 = op.setWidth 24 <<< 16 ||| d.setWidth 24 <<< 17)
    (h : matchesRow F 0xF1FF00#24 (op.setWidth 24 <<< 16 ||| r.setWidth 24 <<< 8) = true) :
    frameWord (command (F.extractLsb' 17 3)) r (F.extractLsb' 0 8) = F := by
  have hdevice := extractLsb'_in_place F 17 3
  have hdata := extractLsb'_in_place F 0 8
  have hmask : ~~~0xF1FF00#24 = (BitVec.allOnes 3).setWidth 24 <<< 17 ||| (BitVec.allOnes 8).setWidth 24 <<< 0 := by
    decide
  rw [BitVec.shiftLeft_zero] at hdata
  conv => rhs; rw [matchesRow_split h, hmask, BitVec.and_or_distrib_left, ← hdevice, ← hdata]
  rw [frameWord, hcommand, bitVec_or_or_or_comm]

theorem writeCommand_in_place (d : BitVec 3) :
    (writeCommand d).setWidth 24 <<< 16 = (0x40#8).setWidth 24 <<< 16 ||| d.setWidth 24 <<< 17 := by
  revert d; decide

theorem readCommand_in_place (d : BitVec 3) :
    (readCommand d).setWidth 24 <<< 16 = (0x41#8).setWidth 24 <<< 16 ||| d.setWidth 24 <<< 17 := by
  revert d; decide

/-- R74: a bus write word that matches its row is made of the row's address and of its own field of `n` bits. -/
theorem busWriteWord_of_matchesRow {w mask : BitVec 24} {a : Addr} {n : Nat} (hn : n ≤ 8)
    (hmask : ~~~mask = (BitVec.allOnes n).setWidth 24) (h : matchesRow w mask (a.setWidth 24 <<< 8) = true) :
    busWriteWord a ((w.extractLsb' 0 n).setWidth 8) = w := by
  have hfield := extractLsb'_in_place w 0 n
  rw [BitVec.shiftLeft_zero, BitVec.shiftLeft_zero] at hfield
  conv => rhs; rw [matchesRow_split h, hmask, ← hfield]
  rw [busWriteWord, BitVec.setWidth_setWidth (by omega)]

/-- R78, R79: a row whose field is the whole byte. -/
theorem busWriteWord_of_byteRow {w : BitVec 24} {a : Addr}
    (h : matchesRow w 0xFFFF00#24 (a.setWidth 24 <<< 8) = true) : busWriteWord a (w.extractLsb' 0 8) = w := by
  have hw := busWriteWord_of_matchesRow (n := 8) le_rfl (by decide) h
  rwa [BitVec.setWidth_eq] at hw

/-! ## What a decoded call says of its instruction -/

/-- The instruction is written as this call, and its operands are in range. -/
def EncodesAs (i : Instr) (c : Call) : Prop := encode i = c ∧ i.operandsOk = true

theorem decodeFrame_encodesAs {F : BitVec 24} {i : Instr} (h : decodeFrame F = .ok i) : EncodesAs i (.frame F) := by
  unfold decodeFrame at h
  split_ifs at h with hiocon hiodir hgpio hread <;> cases h
  · exact ⟨congrArg Call.frame (frameWord_of_matchesRow writeCommand_in_place hiocon), rfl⟩
  · exact ⟨congrArg Call.frame (frameWord_of_matchesRow writeCommand_in_place hiodir), rfl⟩
  · exact ⟨congrArg Call.frame (frameWord_of_matchesRow writeCommand_in_place hgpio), rfl⟩
  · exact ⟨congrArg Call.frame (frameWord_of_matchesRow readCommand_in_place hread), rfl⟩

theorem decodeSelectOf_encodesAs {v : Variant} {w : BitVec 24} {i : Instr} (h : decodeSelectOf v w = some i) :
    EncodesAs i (.busWrite w) := by
  cases v with
  | romOnly => cases h
  | mbc1 =>
    simp only [decodeSelectOf] at h
    split_ifs at h with hlow hhigh <;> cases h
    · exact ⟨congrArg Call.busWrite (busWriteWord_of_matchesRow (by decide) (by decide) hlow), rfl⟩
    · exact ⟨congrArg Call.busWrite (busWriteWord_of_matchesRow (by decide) (by decide) hhigh), rfl⟩
  | mbc2 =>
    simp only [decodeSelectOf] at h
    split_ifs at h with hsel; cases h
    exact ⟨congrArg Call.busWrite (busWriteWord_of_matchesRow (by decide) (by decide) hsel), rfl⟩
  | mbc3 =>
    simp only [decodeSelectOf] at h
    split_ifs at h with hsel; cases h
    exact ⟨congrArg Call.busWrite (busWriteWord_of_byteRow hsel), rfl⟩
  | mbc5 =>
    simp only [decodeSelectOf] at h
    split_ifs at h with hlow hhigh <;> cases h
    · exact ⟨congrArg Call.busWrite (busWriteWord_of_byteRow hlow), rfl⟩
    · exact ⟨congrArg Call.busWrite (busWriteWord_of_matchesRow (by decide) (by decide) hhigh), rfl⟩

/-- R86: a bus write that decodes is a row of some variant: the reader's, or another one (log 11). -/
theorem decodeBusWrite_ok {v : Option Variant} {w : BitVec 24} {i : Instr} (h : decodeBusWrite v w = .ok i) :
    ∃ u, decodeSelectOf u w = some i := by
  unfold decodeBusWrite at h
  split at h
  · rename_i j hj
    cases h
    simp only [decodeSelectAny, Option.or_eq_some_iff, Option.bind_eq_some_iff] at hj
    obtain ⟨u, -, hu⟩ | ⟨-, h1 | ⟨-, h2 | ⟨-, h3 | ⟨-, h5⟩⟩⟩⟩ := hj
    exacts [⟨u, hu⟩, ⟨.mbc1, h1⟩, ⟨.mbc2, h2⟩, ⟨.mbc3, h3⟩, ⟨.mbc5, h5⟩]
  · cases h

/-! ## Operands (R82, R83) -/

theorem bitsOperand_ok {w : Nat} {x : Int} {b : BitVec w} (h : bitsOperand w x = .ok b) : (b.toNat : Int) = x := by
  unfold bitsOperand at h
  split_ifs at h with hx
  cases h
  rw [BitVec.toNat_ofNat, Nat.mod_eq_of_lt hx.2, Int.toNat_of_nonneg hx.1]

theorem natOperand_ok {x : Int} {n : Nat} (h : natOperand x = .ok n) : (n : Int) = x := by
  unfold natOperand at h
  split_ifs at h with hx
  cases h
  exact Int.toNat_of_nonneg hx

theorem levelOperand_ok {x : Int} {l : Level} (h : levelOperand x = .ok l) : levelCode l = x := by
  unfold levelOperand at h
  split_ifs at h with h0 h1 <;> cases h
  · exact h0.symm
  · exact h1.symm

theorem directionOperand_ok {x : Int} {d : DataDirection} (h : directionOperand x = .ok d) : directionCode d = x := by
  unfold directionOperand at h
  split_ifs at h with h0 h1 <;> cases h
  · exact h0.symm
  · exact h1.symm

theorem whenceOperand_ok {x : Int} {w : Whence} (h : whenceOperand x = .ok w) : whenceCode w = x := by
  unfold whenceOperand at h
  split_ifs at h with h0 h1 h2 <;> cases h
  · exact h0.symm
  · exact h1.symm
  · exact h2.symm

theorem noOperand_encodesAs {code : Byte} {i j : Instr} {xs : List Int} (he : EncodesAs i (.op code []))
    (h : noOperand i xs = .ok j) : EncodesAs j (.op code xs) := by
  cases xs with
  | nil => cases h; exact he
  | cons x xs => cases h

/-- An operation with one operand, where `written` is how the encoder writes what `read` reads. -/
theorem oneOperand_encodesAs {α : Type} {code : Byte} {read : Int → Except DecodeError α} {make : α → Instr}
    {written : α → Int} {j : Instr} {xs : List Int} (hread : ∀ {x a}, read x = .ok a → written a = x)
    (he : ∀ a, EncodesAs (make a) (.op code [written a])) (h : oneOperand read make xs = .ok j) :
    EncodesAs j (.op code xs) := by
  unfold oneOperand at h
  split at h
  · rename_i x
    cases hx : read x with
    | error e => rw [hx] at h; cases h
    | ok a =>
      rw [hx] at h
      cases h
      exact hread hx ▸ he a
  · cases h

theorem twoOperands_encodesAs {code : Byte} {make : Int → Int → Except DecodeError Instr} {j : Instr} {xs : List Int}
    (he : ∀ {x y}, make x y = .ok j → EncodesAs j (.op code [x, y])) (h : twoOperands make xs = .ok j) :
    EncodesAs j (.op code xs) := by
  unfold twoOperands at h
  split at h
  · exact he h
  · cases h

theorem bitsPair_encodesAs {code : Byte} {w v : Nat} {make : BitVec w → BitVec v → Instr} {j : Instr} {x y : Int}
    (he : ∀ a b, EncodesAs (make a b) (.op code [a.toNat, b.toNat])) (h : bitsPair w v make x y = .ok j) :
    EncodesAs j (.op code [x, y]) := by
  unfold bitsPair at h
  split at h
  · rename_i a b ha hb
    cases h
    exact bitsOperand_ok ha ▸ bitsOperand_ok hb ▸ he a b
  · cases h
  · cases h

/-- R83: the seek operands are checked before the instruction is made. -/
theorem seekOperands_encodesAs {j : Instr} {x off : Int} (h : seekOperands x off = .ok j) :
    EncodesAs j (.op 0x21#8 [x, off]) := by
  unfold seekOperands at h
  split at h
  · cases h
  · rename_i w hw
    split_ifs at h with hok
    cases h
    exact ⟨by rw [encode, whenceOperand_ok hw], hok⟩

/-- One row of the operation map: the code is this row's, or the rows below decide. -/
theorem encodesAs_of_row {code c : Byte} {xs : List Int} {row rest : Except DecodeError Instr} {i : Instr}
    (h : (if code = c then row else rest) = .ok i) (hrow : row = .ok i → EncodesAs i (.op c xs))
    (hrest : rest = .ok i → EncodesAs i (.op code xs)) : EncodesAs i (.op code xs) := by
  split_ifs at h with hc
  · exact hc ▸ hrow h
  · exact hrest h

/-- R82: an operation code fixes the number and the ranges of the operands, and all of them stand in the instruction. -/
theorem decodeOp_encodesAs {code : Byte} {xs : List Int} {i : Instr} (h : decodeOp code xs = .ok i) :
    EncodesAs i (.op code xs) := by
  unfold decodeOp at h
  refine encodesAs_of_row h (noOperand_encodesAs ⟨rfl, rfl⟩) fun h => ?_
  refine encodesAs_of_row h (oneOperand_encodesAs bitsOperand_ok (fun _ => ⟨rfl, rfl⟩)) fun h => ?_
  refine encodesAs_of_row h (noOperand_encodesAs ⟨rfl, rfl⟩) fun h => ?_
  refine encodesAs_of_row h (oneOperand_encodesAs bitsOperand_ok (fun _ => ⟨rfl, rfl⟩)) fun h => ?_
  refine encodesAs_of_row h (noOperand_encodesAs ⟨rfl, rfl⟩) fun h => ?_
  refine encodesAs_of_row h (oneOperand_encodesAs directionOperand_ok (fun _ => ⟨rfl, rfl⟩)) fun h => ?_
  refine encodesAs_of_row h (oneOperand_encodesAs levelOperand_ok (fun _ => ⟨rfl, rfl⟩)) fun h => ?_
  refine encodesAs_of_row h (oneOperand_encodesAs levelOperand_ok (fun _ => ⟨rfl, rfl⟩)) fun h => ?_
  refine encodesAs_of_row h (noOperand_encodesAs ⟨rfl, rfl⟩) fun h => ?_
  refine encodesAs_of_row h (twoOperands_encodesAs (bitsPair_encodesAs fun _ _ => ⟨rfl, rfl⟩)) fun h => ?_
  refine encodesAs_of_row h (oneOperand_encodesAs bitsOperand_ok (fun _ => ⟨rfl, rfl⟩)) fun h => ?_
  refine encodesAs_of_row h (twoOperands_encodesAs (bitsPair_encodesAs fun _ _ => ⟨rfl, rfl⟩)) fun h => ?_
  refine encodesAs_of_row h (oneOperand_encodesAs bitsOperand_ok (fun _ => ⟨rfl, rfl⟩)) fun h => ?_
  refine encodesAs_of_row h (oneOperand_encodesAs natOperand_ok (fun _ => ⟨rfl, rfl⟩)) fun h => ?_
  refine encodesAs_of_row h (twoOperands_encodesAs seekOperands_encodesAs) fun h => ?_
  refine encodesAs_of_row h (noOperand_encodesAs ⟨rfl, rfl⟩) fun h => ?_
  refine encodesAs_of_row h (oneOperand_encodesAs natOperand_ok (fun _ => ⟨rfl, rfl⟩)) fun h => ?_
  refine encodesAs_of_row h (noOperand_encodesAs ⟨rfl, rfl⟩) fun h => ?_
  refine encodesAs_of_row h (noOperand_encodesAs ⟨rfl, rfl⟩) fun h => ?_
  refine encodesAs_of_row h (oneOperand_encodesAs bitsOperand_ok (fun _ => ⟨rfl, rfl⟩)) fun h => ?_
  refine encodesAs_of_row h (oneOperand_encodesAs bitsOperand_ok (fun _ => ⟨rfl, rfl⟩)) fun h => ?_
  refine encodesAs_of_row h (oneOperand_encodesAs bitsOperand_ok (fun _ => ⟨rfl, rfl⟩)) fun h => ?_
  refine encodesAs_of_row h (oneOperand_encodesAs bitsOperand_ok (fun _ => ⟨rfl, rfl⟩)) fun h => ?_
  cases h

/-! ## The statements of the encoding -/

/-- Settles O1: one lemma for each constructor (Laws/PerInstr.lean). -/
theorem decodeOfEncodeIsTheInstruction : Obligations.DecodeOfEncodeIsTheInstruction := by
  intro i
  cases i with
  | bdInit => exact Laws.DecodeEncode.bdInit
  | bdSetAddress a => exact Laws.DecodeEncode.bdSetAddress a
  | bdReadByte => exact Laws.DecodeEncode.bdReadByte
  | bdWriteByte v => exact Laws.DecodeEncode.bdWriteByte v
  | bdTeardown => exact Laws.DecodeEncode.bdTeardown
  | bdSetDir d => exact Laws.DecodeEncode.bdSetDir d
  | bdSetRd l => exact Laws.DecodeEncode.bdSetRd l
  | bdSetCs l => exact Laws.DecodeEncode.bdSetCs l
  | bdPulseWr => exact Laws.DecodeEncode.bdPulseWr
  | expWrite r v => exact Laws.DecodeEncode.expWrite r v
  | expRead r => exact Laws.DecodeEncode.expRead r
  | busWrite a v => exact Laws.DecodeEncode.busWrite a v
  | busRead a => exact Laws.DecodeEncode.busRead a
  | hwRead n => exact Laws.DecodeEncode.hwRead n
  | hwSeek w off => exact Laws.DecodeEncode.hwSeek w off
  | dispatch => exact Laws.DecodeEncode.dispatch
  | rdrRead n => exact Laws.DecodeEncode.rdrRead n
  | rdrSize => exact Laws.DecodeEncode.rdrSize
  | rdrStatus => exact Laws.DecodeEncode.rdrStatus
  | bankselMbc1 b => exact Laws.DecodeEncode.bankselMbc1 b
  | bankselMbc2 b => exact Laws.DecodeEncode.bankselMbc2 b
  | bankselMbc3 b => exact Laws.DecodeEncode.bankselMbc3 b
  | bankselMbc5 b => exact Laws.DecodeEncode.bankselMbc5 b
  | expWrIocon d v => exact Laws.DecodeEncode.expWrIocon d v
  | expWrIodir d v => exact Laws.DecodeEncode.expWrIodir d v
  | expWrGpio d v => exact Laws.DecodeEncode.expWrGpio d v
  | expRdGpio d x => exact Laws.DecodeEncode.expRdGpio d x
  | buswMbc1SelLo b => exact Laws.DecodeEncode.buswMbc1SelLo b
  | buswMbc1SelHi h => exact Laws.DecodeEncode.buswMbc1SelHi h
  | buswMbc2Sel b => exact Laws.DecodeEncode.buswMbc2Sel b
  | buswMbc3Sel b => exact Laws.DecodeEncode.buswMbc3Sel b
  | buswMbc5SelLo b => exact Laws.DecodeEncode.buswMbc5SelLo b
  | buswMbc5SelHi h => exact Laws.DecodeEncode.buswMbc5SelHi h
  | busr a => exact Laws.DecodeEncode.busr a

/-- Settles O2: in each of the table's formats, the pattern and the fields are the whole call. -/
theorem encodeOfDecodeIsTheCall : Obligations.EncodeOfDecodeIsTheCall := by
  intro v c i h
  cases c with
  | op code xs => exact decodeOp_encodesAs h
  | frame F => exact decodeFrame_encodesAs h
  | busWrite w =>
    obtain ⟨u, hu⟩ := decodeBusWrite_ok h
    exact decodeSelectOf_encodesAs hu
  | busRead a => cases h; exact ⟨rfl, rfl⟩
  | other n w => cases h

/-- Settles O3: the decoder run on each of the words. -/
theorem wordsOfTheSpecDecode : Obligations.WordsOfTheSpecDecode := by
  unfold Obligations.WordsOfTheSpecDecode
  decide

/-- Settles O4: the eight devices, one by one. -/
theorem commandByteBits : Obligations.CommandByteBits := by
  unfold Obligations.CommandByteBits
  decide

end Sys2Proof.Machine
end

section
/-! PROOFS of the statements of 30_encoding.md, second part: the frames that are answered (R89, R90), and where a byte
read and a byte written fail (R97, R98, R159). -/

namespace Sys2Proof.Machine

/-! ## Answered frames (R89, R90) -/

/-- R35, R71: a write frame to EXP_DEV sets the register whose number it carries. -/
theorem ExpanderRegs.receive_write (x : ExpanderRegs) (d : BitVec 3) (r v : Byte) :
    x.receive d (writeCommand d) r v =
      if r = 0x00#8 then { x with iodir := v }
      else if r = 0x05#8 then { x with iocon := v }
      else if r = 0x09#8 then { x with gpio := v }
      else x :=
  if_pos rfl

theorem expWrite_answered {ctx : BusContext} {r v r0 r1 r2 : Byte} {s : State}
    (h : s.world.answer = .answered r0 r1 r2) :
    expWrite ctx r v s = .ok ()
      { s with
        world := s.world.advance
        exp := s.exp.receive s.world.expDev (writeCommand s.world.expDev) r v
        trace := s.trace ++ [.spi (writeCommand s.world.expDev) r v r0 r1 r2] } := by
  rw [expWrite, xfer_answered h, Res.bind_ok]

/-- R70: the value read is the third received byte, and a read frame writes no register. -/
theorem expRead_answered {ctx : BusContext} {r r0 r1 r2 : Byte} {s : State}
    (h : s.world.answer = .answered r0 r1 r2) :
    expRead ctx r s = .ok r2
      { s with
        world := s.world.advance
        trace := s.trace ++ [.spi (readCommand s.world.expDev) r Config.dontCare r0 r1 r2] } := by
  rw [expRead, xfer_answered h, Res.bind_ok, ExpanderRegs.receive_read]

/-- Settles O17: an admitted write frame is EXP.WRITE of its register and byte (`exec_writeFrame`). -/
theorem writeFramesAreExchangedOnce : Obligations.WriteFramesAreExchangedOnce := by
  intro i s d r v r0 r1 r2 hf ha hans
  rw [exec_writeFrame hf ha, expWrite_answered hans, finish_ok, ExpanderRegs.receive_write]
  rfl

/-- Settles O18: an admitted read frame is EXP.READ of its register, which sends DONT_CARE (`exec_readFrame`). -/
theorem readFramesReturnTheThirdByte : Obligations.ReadFramesReturnTheThirdByte := by
  intro i s d r x r0 r1 r2 hf ha hans
  obtain ⟨rfl, hexec⟩ := exec_readFrame hf ha
  rw [hexec, expRead_answered hans, finish_ok]

/-! ## A byte read that fails (R97, R108, R159) -/

/-- R159: wherever the read fails, the caller gets the error and the state is the one that place leaves. -/
theorem readByte_of_fails {ctx : BusContext} {s t : State} (h : ReadFails ctx s t) :
    readByte ctx s = .err (.busCommunication ctx) t := by
  obtain ⟨hd, ha, rfl⟩ | ⟨hd, ha, rfl⟩ | ⟨hd, x0, x1, x2, hx, ha, rfl⟩ := h
  · exact readByte_input_failed hd ha
  · exact readByte_turn_failed hd ha
  · exact (readByte_turned hd hx).trans (readByte_input_failed rfl ha)

theorem exec_bdReadByte {s : State} (h : admits .transfer s = true) :
    exec .bdReadByte s = .next (finish .byte (readByte (directContext s) s)) :=
  issue_admitted h

/-- R73, R108: an admitted bus read, in either format, drives its address and is BD.READ_BYTE from there. -/
theorem exec_busRead {i : Instr} {a : Addr} {s : State} (hr : busReadOf i = some a) (h : admits .transfer s = true) :
    exec i s = .next (finish .byte (readByte (directContext s) (s.addressed a))) := by
  cases i with
  | busRead _ | busr _ => cases hr; exact issue_admitted h
  | _ => cases hr

/-- R159: from idle lines a read that fails at its data frame has driven RD and CS to L and nothing after it. -/
theorem readFailed_trace_of_idle {s : State} (ctx : BusContext) (h : StrobesIdle s) :
    (s.readFailed ctx).trace = s.trace ++ [Event.line .rd .L, Event.wait 4, Event.line .cs .L, Event.wait 3,
      Event.spiFail (readCommand s.world.expDev) 0x09#8 0x00#8] := by
  obtain ⟨hrd, -, hcs⟩ := h
  simp only [State.readFailed, State.faulted, hrd, hcs, settleEvents_H_L, List.append_assoc]
  rfl

/-- Settles O23: the read itself fails as `readByte_of_fails` says, and from idle lines the events of each place are
written out. -/
theorem failedReadLeavesTheStrobesLow : Obligations.FailedReadLeavesTheStrobesLow := by
  intro s hadm
  have fails : ∀ t, ReadFails (directContext s) s t →
      exec .bdReadByte s = .next (t.returning (.err (.busCommunication (directContext s)))) := fun t h => by
    rw [exec_bdReadByte hadm, readByte_of_fails h, finish_err]
  refine ⟨fails, ?addressed, ?idle, ?idleTurned⟩
  case addressed =>
    intro i a t hr h
    rw [exec_busRead hr hadm, readByte_of_fails h, finish_err]
  case idle =>
    intro hfail hidle
    by_cases hd : s.drv.dir = some .input
    · exact ⟨_, _, fails _ (.inl ⟨hd, hfail, rfl⟩), rfl, rfl, rfl, rfl,
        fun _ => ⟨rfl, readFailed_trace_of_idle (directContext s) hidle⟩, fun h => absurd hd h⟩
    · exact ⟨_, _, fails _ (.inr (.inl ⟨hd, hfail, rfl⟩)), rfl, rfl, rfl, rfl, fun h => absurd h hd,
        fun _ => ⟨rfl, rfl⟩⟩
  case idleTurned =>
    intro x0 x1 x2 hd hans hfail hidle
    refine ⟨_, _, fails _ (.inr (.inr ⟨hd, x0, x1, x2, hans, hfail, rfl⟩)), rfl, rfl, ?_⟩
    have htrace := readFailed_trace_of_idle (s := s.turned .input x0 x1 x2) (directContext s) hidle
    exact htrace.trans (List.append_assoc _ _ _)

/-! ## A byte written that fails (R98, R109, R159) -/

theorem writeByte_of_fails {ctx : BusContext} {s t : State} {v : Byte} (h : WriteFails ctx s v t) :
    writeByte ctx v s = .err (.busCommunication ctx) t := by
  obtain ⟨hd, ha, rfl⟩ | ⟨hd, ha, rfl⟩ | ⟨hd, x0, x1, x2, hx, ha, rfl⟩ := h
  · exact writeByte_output_failed hd ha
  · exact writeByte_turn_failed hd ha
  · exact (writeByte_turned hd hx).trans (writeByte_output_failed rfl ha)

theorem exec_bdWriteByte {v : Byte} {s : State} (h : admits .transfer s = true) :
    exec (.bdWriteByte v) s = .next (finish noValue (writeByte (directContext s) v s)) :=
  issue_admitted h

/-- R159: from idle lines a write that fails at its data frame has driven CS to L and nothing else. -/
theorem writeFailed_drv_of_idle {s : State} (ctx : BusContext) (v : Byte) (h : StrobesIdle s) :
    (s.writeFailed ctx v).drv = { s.drv with lvl := { s.drv.lvl with cs := some Level.L } } := by
  obtain ⟨hrd, -, -⟩ := h
  simp only [State.writeFailed, State.faulted, ← hrd]

theorem writeFailed_trace_of_idle {s : State} (ctx : BusContext) (v : Byte) (h : StrobesIdle s) :
    (s.writeFailed ctx v).trace = s.trace ++ [Event.line .cs .L, Event.wait 3,
      Event.spiFail (writeCommand s.world.expDev) 0x09#8 v] := by
  obtain ⟨hrd, -, hcs⟩ := h
  simp only [State.writeFailed, State.faulted, hrd, hcs, settleEvents_same, settleEvents_H_L, List.append_assoc]
  rfl

/-- Settles O24: the write itself fails as `writeByte_of_fails` says, and from idle lines the events of each place are
written out. -/
theorem failedWriteLeavesChipSelectLowAndWrUnpulsed : Obligations.FailedWriteLeavesChipSelectLowAndWrUnpulsed := by
  intro s v hadm
  have fails : ∀ t, WriteFails (directContext s) s v t →
      exec (.bdWriteByte v) s = .next (t.returning (.err (.busCommunication (directContext s)))) := fun t h => by
    rw [exec_bdWriteByte hadm, writeByte_of_fails h, finish_err]
  refine ⟨fails, ?addressed, ?idle, ?idleTurned⟩
  case addressed =>
    intro i a t hw hrow h
    rw [exec_busWrite hw hrow, writeByte_of_fails h, finish_err]
  case idle =>
    intro hfail hidle
    by_cases hd : s.drv.dir = some .output
    · exact ⟨_, _, fails _ (.inl ⟨hd, hfail, rfl⟩), rfl, rfl, rfl, rfl,
        fun _ => ⟨writeFailed_drv_of_idle (directContext s) v hidle,
          writeFailed_trace_of_idle (directContext s) v hidle⟩, fun h => absurd hd h⟩
    · exact ⟨_, _, fails _ (.inr (.inl ⟨hd, hfail, rfl⟩)), rfl, rfl, rfl, rfl, fun h => absurd h hd,
        fun _ => ⟨rfl, rfl⟩⟩
  case idleTurned =>
    intro x0 x1 x2 hd hans hfail hidle
    refine ⟨_, _, fails _ (.inr (.inr ⟨hd, x0, x1, x2, hans, hfail, rfl⟩)), rfl, rfl,
      writeFailed_drv_of_idle (s := s.turned .output x0 x1 x2) (directContext s) v hidle, ?_⟩
    have htrace := writeFailed_trace_of_idle (s := s.turned .output x0 x1 x2) (directContext s) v hidle
    exact htrace.trans (List.append_assoc _ _ _)

end Sys2Proof.Machine
end

section
/-! PROOFS of the statements of 40_bus_sequencer.md, first part: what BD.INIT, BD.SET_ADDRESS, BD.TEARDOWN and the
micro-operations do (R91-R96, R99), and what a completed read or write cycle emits and leaves (R97, R98, R105-R109). -/

namespace Sys2Proof.Machine

/-! ## Initialisation (R95) -/

theorem exec_bdInit {s : State} (h : admits .init s = true) : exec .bdInit s = .next (finish noValue (initDriver s)) :=
  issue_admitted h

/-- Settles O10, by `initDriver_answered`. -/
theorem initDrivesTheLinesAndConfiguresTheExpander : Obligations.InitDrivesTheLinesAndConfiguresTheExpander := by
  intro s q0 q1 q2 r0 r1 r2 hadm hfirst hsecond
  rw [exec_bdInit hadm, initDriver_answered hfirst hsecond, finish_ok]
  rfl

/-- Settles O11: one clause for each frame that can fail. -/
theorem initStopsAtAFailedFrame : Obligations.InitStopsAtAFailedFrame := by
  intro s hadm lines drv
  refine ⟨fun hfirst => ?_, fun q0 q1 q2 hfirst hsecond => ?_⟩
  · rw [exec_bdInit hadm, initDriver_failed_first hfirst, finish_err, List.append_assoc]
    rfl
  · rw [exec_bdInit hadm, initDriver_failed_second hfirst hsecond, finish_err, List.append_assoc]
    rfl

/-- Settles O9: O10 in the power-on state, whose list of answers then runs out. -/
theorem resetIsWhatInitMakesOfPowerOn : Obligations.ResetIsWhatInitMakesOfPowerOn :=
  initDrivesTheLinesAndConfiguresTheExpander _ _ _ _ _ _ _ rfl rfl rfl

/-! ## Operations without a frame (R92-R94, R96, R99) -/

/-- An admitted operation whose body cannot fail completes. -/
theorem issue_always_admitted {k : Admission} {f : State → State} {s : State} (h : admits k s = true) :
    issue k noValue (always f) s = .next ((f s).returning (.ok .unit)) :=
  issue_admitted h

/-- Settles O12. -/
theorem setAddressAlwaysDrivesTheLines : Obligations.SetAddressAlwaysDrivesTheLines :=
  fun _ _ hadm => issue_always_admitted hadm

/-- Settles O15, by what a coalesced transition leaves (`setRd_eq`, `setCs_eq`). -/
theorem strobeLevelsAreCoalesced : Obligations.StrobeLevelsAreCoalesced := by
  intro s l hadm
  have hrd : exec (.bdSetRd l) s = .next ((setRd l s).returning (.ok .unit)) := issue_always_admitted hadm
  have hcs : exec (.bdSetCs l) s = .next ((setCs l s).returning (.ok .unit)) := issue_always_admitted hadm
  rw [hrd, hcs, setRd_eq, setCs_eq]
  exact ⟨rfl, rfl⟩

/-- Settles O16, by `pulseWr_eq`. -/
theorem pulseWrWritesWhenTheCartridgeIsSelected : Obligations.PulseWrWritesWhenTheCartridgeIsSelected := by
  intro s hadm strobe
  have hpulse : exec .bdPulseWr s = .next ((pulseWr s).returning (.ok .unit)) := issue_always_admitted hadm
  rw [hpulse, pulseWr_eq]
  rfl

/-- R186: after the four LINE events of `forceIdle` no line is left at another level, whatever was driven before. -/
theorem lastLine_forceIdle (s : State) (ln : Line) : lastLine (forceIdle s).trace ln = some .H := by
  rw [forceIdle_eq, lastLine_append]
  cases ln <;> rfl

/-- Settles O25: BD.TEARDOWN is `forceIdle`, and the driver and the session closed. -/
theorem teardownReturnsEveryLineToIdle : Obligations.TeardownReturnsEveryLineToIdle := by
  intro s hphase lines
  have hrun : exec .bdTeardown s = .next ((teardown s).returning (.ok .unit)) :=
    issue_always_admitted ((admits_teardown_iff s).2 hphase)
  refine ⟨?_, fun ln => ?_⟩
  · rw [hrun, teardown, forceIdle_eq]
    rfl
  · have hidle := lastLine_forceIdle s ln
    rwa [forceIdle_eq] at hidle

/-! ## The direction (R91) -/

theorem exec_bdSetDir {d : DataDirection} {s : State} (h : admits .transfer s = true) :
    exec (.bdSetDir d) s = .next (finish noValue (setDir (directContext s) d s)) :=
  issue_admitted h

/-- Settles O13. -/
theorem setDirSendsAFrameOnlyOnATransition : Obligations.SetDirSendsAFrameOnlyOnATransition := by
  intro s d hadm
  refine ⟨fun hcached => ?_, fun r0 r1 r2 hother hans => ?_⟩
  · rw [exec_bdSetDir hadm, setDir_cached hcached, finish_ok]
    rfl
  · rw [exec_bdSetDir hadm, setDir_answered hother hans, finish_ok]
    rfl

/-- Settles O14. -/
theorem setDirKeepsTheCacheWhenItsFrameFails : Obligations.SetDirKeepsTheCacheWhenItsFrameFails := by
  intro s d hadm hother hfail
  rw [exec_bdSetDir hadm, setDir_failed hother hfail, finish_err]
  rfl

/-! ## Completed cycles (R97, R98, R108, R109) -/

theorem readByte_of_completes {ctx : BusContext} {s t : State} {b : Byte} (h : ReadCompletes s b t) :
    readByte ctx s = .ok b t := by
  obtain ⟨hd, r0, r1, ha, rfl⟩ | ⟨hd, x0, x1, x2, r0, r1, hx, ha, rfl⟩ := h
  · exact readByte_input_answered hd ha
  · exact (readByte_turned hd hx).trans (readByte_input_answered rfl ha)

theorem writeByte_of_completes {ctx : BusContext} {s t : State} {v : Byte} (h : WriteCompletes s v t) :
    writeByte ctx v s = .ok () t := by
  obtain ⟨hd, r0, r1, r2, ha, rfl⟩ | ⟨hd, x0, x1, x2, r0, r1, r2, hx, ha, rfl⟩ := h
  · exact writeByte_output_answered hd ha
  · exact (writeByte_turned hd hx).trans (writeByte_output_answered rfl ha)

/-- Settles O20: a bus read is BD.READ_BYTE at its address (`exec_busRead`), and that completes as
`readByte_of_completes` says. -/
theorem readCyclesReturnTheSampledByte : Obligations.ReadCyclesReturnTheSampledByte := by
  intro s t b hadm
  refine ⟨fun h => ?_, fun i a hr h => ?_⟩
  · rw [exec_bdReadByte hadm, readByte_of_completes h, finish_ok]
  · rw [exec_busRead hr hadm, readByte_of_completes h, finish_ok]

/-- Settles O21: every bus write is BD.WRITE_BYTE at its address (`exec_busWrite`), and that completes as
`writeByte_of_completes` says. -/
theorem writeCyclesPulseWrOnce : Obligations.WriteCyclesPulseWrOnce := by
  intro s t v
  refine ⟨fun hadm h => ?_, fun i a hw hadm h => ?_⟩
  · rw [exec_bdWriteByte hadm, writeByte_of_completes h, finish_ok]
    rfl
  · rw [exec_busWrite hw hadm, writeByte_of_completes h, finish_ok]
    rfl

/-! ## The segments from idle lines (R105, R106) -/

/-- R105: the nine events of a read segment. -/
theorem readEvents_of_idle {v : Levels} (d : BitVec 3) (r0 r1 b : Byte) (hrd : v.rd = some .H) (hcs : v.cs = some .H) :
    readEvents v d r0 r1 b =
      [.line .rd .L, .wait 4, .line .cs .L, .wait 3, .spi (readCommand d) 0x09#8 0x00#8 r0 r1 b,
       .line .rd .H, .wait 4, .line .cs .H, .wait 3] := by
  rw [readEvents, hrd, hcs]
  rfl

/-- R106: a write segment up to the rising edge of WR. -/
theorem writeEventsToStrobe_of_idle {c : Levels} (d : BitVec 3) (tLow : Nat) (v r0 r1 r2 : Byte)
    (hrd : c.rd = some .H) (hwr : c.wr = some .H) (hcs : c.cs = some .H) :
    writeEventsToStrobe c d tLow v r0 r1 r2 =
      [.line .cs .L, .wait 3, .spi (writeCommand d) 0x09#8 v r0 r1 r2, .wait 1, .line .wr .L] ++ lowEvents tLow ++
      [.line .wr .H] := by
  rw [writeEventsToStrobe, hrd, hwr, hcs]
  rfl

theorem readDone_trace_of_idle {s : State} (r0 r1 b : Byte) (h : StrobesIdle s) :
    (s.readDone r0 r1 b).trace = s.trace ++
      [.line .rd .L, .wait 4, .line .cs .L, .wait 3, .spi (readCommand s.world.expDev) 0x09#8 0x00#8 r0 r1 b,
       .line .rd .H, .wait 4, .line .cs .H, .wait 3] := by
  obtain ⟨hrd, -, hcs⟩ := h
  rw [State.readDone, readEvents_of_idle _ _ _ _ hrd hcs]

theorem writeDone_trace_of_idle {s : State} (v r0 r1 r2 : Byte) (h : StrobesIdle s) :
    (s.writeDone v r0 r1 r2).trace = s.trace ++
      ([.line .cs .L, .wait 3, .spi (writeCommand s.world.expDev) 0x09#8 v r0 r1 r2, .wait 1, .line .wr .L] ++
        lowEvents s.world.params.tWrLow ++ [.line .wr .H, .wait 5, .line .cs .H, .wait 3]) := by
  obtain ⟨hrd, hwr, hcs⟩ := h
  simp only [State.writeDone, writeEventsToStrobe_of_idle _ _ _ _ _ _ hrd hwr hcs, List.append_assoc]
  rfl

/-- Settles O22: the segment of a cycle that found its direction cached, and the same segment after one direction frame,
which drives no line, where it did not. -/
theorem steadyStateSegmentsEventByEvent : Obligations.SteadyStateSegmentsEventByEvent := by
  intro s v r0 r1 r2 x0 x1 x2 hadm hidle d read write turn
  have reads {t : State} (h : ReadCompletes s r2 t) : exec .bdReadByte s = .next (t.returning (.ok (.byte r2))) := by
    rw [exec_bdReadByte hadm, readByte_of_completes h, finish_ok]
  have writes {t : State} (h : WriteCompletes s v t) : exec (.bdWriteByte v) s = .next (t.returning (.ok .unit)) := by
    rw [exec_bdWriteByte hadm, writeByte_of_completes h, finish_ok]
    rfl
  refine ⟨?read, ?turnedRead, ?write, ?turnedWrite⟩
  case read =>
    intro hd ha
    exact ⟨_, reads (.inl ⟨hd, r0, r1, ha, rfl⟩), readDone_trace_of_idle r0 r1 r2 hidle⟩
  case turnedRead =>
    intro hd hx ha
    have hne : s.drv.dir ≠ some .input := by simp [hd]
    exact ⟨_, reads (.inr ⟨hne, x0, x1, x2, r0, r1, hx, ha, rfl⟩),
      readDone_trace_of_idle (s := s.turned .input x0 x1 x2) r0 r1 r2 hidle⟩
  case write =>
    intro hd ha
    exact ⟨_, writes (.inl ⟨hd, r0, r1, r2, ha, rfl⟩), writeDone_trace_of_idle v r0 r1 r2 hidle⟩
  case turnedWrite =>
    intro hd hx ha
    have hne : s.drv.dir ≠ some .output := by simp [hd]
    exact ⟨_, writes (.inr ⟨hne, x0, x1, x2, r0, r1, r2, hx, ha, rfl⟩),
      writeDone_trace_of_idle (s := s.turned .output x0 x1 x2) v r0 r1 r2 hidle⟩

end Sys2Proof.Machine
end

section
/-! PROOFS of the statements of 40_bus_sequencer.md, second part: the direction coalescing law (R100), by induction over
the list of transfers. -/

namespace Sys2Proof.Machine

/-! ## Direction frames of one cycle (R91, R97, R98) -/

theorem directionFrames_addressed (s : State) (a : Addr) (d : BitVec 3) :
    directionFrames (s.addressed a).trace d = directionFrames s.trace d := by
  simp [State.addressed, directionFrames]

theorem directionFrames_turned (s : State) (e : DataDirection) (r0 r1 r2 : Byte) :
    directionFrames (s.turned e r0 r1 r2).trace s.world.expDev = directionFrames s.trace s.world.expDev + 1 := by
  simp [State.turned]

theorem directionFrames_readDone (s : State) (r0 r1 b : Byte) (d : BitVec 3) :
    directionFrames (s.readDone r0 r1 b).trace d = directionFrames s.trace d := by
  simp [State.readDone]

theorem directionFrames_writeDone (s : State) (v r0 r1 r2 : Byte) (d : BitVec 3) :
    directionFrames (s.writeDone v r0 r1 r2).trace d = directionFrames s.trace d := by
  have tail : directionFrames [.wait Config.tWrPost, .line .cs .H, .wait Config.tCs] d = 0 := rfl
  simp only [State.writeDone, directionFrames_append, directionFrames_writeEventsToStrobe, tail, Nat.add_zero]

/-- R100: what a completed transfer of direction `e` leaves: all that admission looks at, the direction `e` cached, and
one more direction frame where another direction was cached before. -/
structure Transferred (e : DataDirection) (s t : State) : Prop where
  ses : t.ses = s.ses
  phase : t.drv.phase = s.drv.phase
  expDev : t.world.expDev = s.world.expDev
  params : t.world.params = s.world.params
  dir : t.drv.dir = some e
  frames : directionFrames t.trace s.world.expDev =
    directionFrames s.trace s.world.expDev + if s.drv.dir = some e then 0 else 1

theorem Transferred.readDone {s : State} (r0 r1 b : Byte) (hd : s.drv.dir = some .input) :
    Transferred .input s (s.readDone r0 r1 b) :=
  ⟨rfl, rfl, rfl, rfl, hd, by rw [directionFrames_readDone, if_pos hd, Nat.add_zero]⟩

theorem Transferred.writeDone {s : State} (v r0 r1 r2 : Byte) (hd : s.drv.dir = some .output) :
    Transferred .output s (s.writeDone v r0 r1 r2) :=
  ⟨rfl, rfl, rfl, rfl, hd, by rw [directionFrames_writeDone, if_pos hd, Nat.add_zero]⟩

/-- A transfer that turns the direction first sends one frame more than from the turned state. -/
theorem Transferred.of_turned {e : DataDirection} {s t : State} {x0 x1 x2 : Byte} (hd : s.drv.dir ≠ some e)
    (h : Transferred e (s.turned e x0 x1 x2) t) : Transferred e s t where
  ses := h.ses
  phase := h.phase
  expDev := h.expDev
  params := h.params
  dir := h.dir
  frames := by
    have hturn : (s.turned e x0 x1 x2).drv.dir = some e := rfl
    have hframes := h.frames
    rw [if_pos hturn] at hframes
    rw [if_neg hd, ← directionFrames_turned s e x0 x1 x2]
    exact hframes

theorem Transferred.of_addressed {e : DataDirection} {s t : State} {a : Addr} (h : Transferred e (s.addressed a) t) :
    Transferred e s t :=
  ⟨h.ses, h.phase, h.expDev, h.params, h.dir, directionFrames_addressed s a _ ▸ h.frames⟩

theorem Transferred.deliver {e : DataDirection} {s t : State} (h : Transferred e s t) (r : OpResult) :
    Transferred e s (t.deliver r) :=
  ⟨h.ses, h.phase, h.expDev, h.params, h.dir, h.frames⟩

theorem readByte_transferred {ctx : BusContext} {s t : State} {b : Byte} (h : readByte ctx s = .ok b t) :
    Transferred .input s t := by
  rcases readByte_cases ctx s with ⟨s1, h1, ⟨r0, r1, r2, -, he⟩ | ⟨-, he⟩⟩ | ⟨-, -, he⟩ <;> rw [he] at h <;> cases h
  rcases h1 with ⟨hd, rfl⟩ | ⟨hd, x0, x1, x2, -, rfl⟩
  · exact .readDone r0 r1 b hd
  · exact .of_turned hd (.readDone r0 r1 b rfl)

theorem writeByte_transferred {ctx : BusContext} {v : Byte} {s t : State} {u : Unit} (h : writeByte ctx v s = .ok u t) :
    Transferred .output s t := by
  rcases writeByte_cases ctx v s with ⟨s1, h1, ⟨r0, r1, r2, -, he⟩ | ⟨-, he⟩⟩ | ⟨-, -, he⟩ <;> rw [he] at h <;> cases h
  rcases h1 with ⟨hd, rfl⟩ | ⟨hd, x0, x1, x2, -, rfl⟩
  · exact .writeDone v r0 r1 r2 hd
  · exact .of_turned hd (.writeDone v r0 r1 r2 rfl)

/-! ## One transfer operation -/

/-- How an admitted transfer ends: it completes, or it records a fault. -/
abbrev TransferredOrFaulted (e : DataDirection) (s t : State) : Prop := Transferred e s t ∨ t.ses.fault ≠ none

theorem TransferredOrFaulted.of_addressed {e : DataDirection} {s t : State} {a : Addr}
    (h : TransferredOrFaulted e (s.addressed a) t) : TransferredOrFaulted e s t :=
  h.imp_left .of_addressed

theorem readByte_transferredOrFaulted (ctx : BusContext) (s : State) :
    TransferredOrFaulted .input s (readByte ctx s).state := by
  cases h : readByte ctx s with
  | ok b t => exact .inl (readByte_transferred h)
  | err e t =>
    obtain ⟨-, k⟩ := readByte_err h
    exact .inr (by simp [k.ses])

theorem writeByte_transferredOrFaulted (ctx : BusContext) (v : Byte) (s : State) :
    TransferredOrFaulted .output s (writeByte ctx v s).state := by
  cases h : writeByte ctx v s with
  | ok u t => exact .inl (writeByte_transferred h)
  | err e t =>
    obtain ⟨-, k⟩ := writeByte_err h
    exact .inr (by simp [k.ses])

theorem exec_transfer {i : Instr} {e : DataDirection} {s t : State} (hi : transferDirection i = some e)
    (ha : admitted i s = true) (h : exec i s = .next t) : TransferredOrFaulted e s t := by
  obtain ⟨hrow, -⟩ := (admitted_iff i s).1 ha
  have ends {α : Type} {value : α → OpValue} {body : Res α} (hrun : exec i s = .next (finish value body))
      (hb : TransferredOrFaulted e s body.state) : TransferredOrFaulted e s t := by
    obtain rfl : finish value body = t := Host.Outcome.next.inj (hrun.symm.trans h)
    exact hb.imp_left fun k => k.deliver _
  cases i with
  | bdReadByte => cases hi; exact ends (exec_bdReadByte hrow) (readByte_transferredOrFaulted _ s)
  | busRead a | busr a => cases hi; exact ends (exec_busRead rfl hrow) (readByte_transferredOrFaulted _ _).of_addressed
  | bdWriteByte v => cases hi; exact ends (exec_bdWriteByte hrow) (writeByte_transferredOrFaulted _ v s)
  | busWrite a v => cases hi; exact ends (exec_busWrite rfl hrow) (writeByte_transferredOrFaulted _ v _).of_addressed
  | _ => cases hi

/-- R158: a transfer operation clears no fault. -/
theorem exec_transfer_keeps_fault {i : Instr} {s t : State} (hi : transferDirection i ≠ none) (h : exec i s = .next t)
    (hf : s.ses.fault ≠ none) : t.ses.fault ≠ none := by
  have hinit : i ≠ .bdInit := fun h => hi (by rw [h]; rfl)
  have hteardown : i ≠ .bdTeardown := fun h => hi (by rw [h]; rfl)
  have hdispatch : i ≠ .dispatch := fun h => hi (by rw [h]; rfl)
  obtain ⟨u, r, hu, hexec⟩ := exec_continues s hinit hteardown hdispatch
  obtain rfl : u.deliver r = t := Host.Outcome.next.inj (hexec.symm.trans h)
  rcases hu.ses with hses | ⟨e, hses⟩
  · exact hses ▸ hf
  · exact hses ▸ Option.some_ne_none e

/-! ## A list of transfers (R100) -/

theorem execAll_cons_eq_next {i : Instr} {is : List Instr} {s t : State} (h : execAll (i :: is) s = .next t) :
    ∃ u, exec i s = .next u ∧ execAll is u = .next t := by
  obtain ⟨u, r, -, hexec⟩ := exec_ends i s
  rw [execAll, hexec] at h
  exact ⟨_, hexec, h⟩

/-- What every operation of a list keeps, the list keeps. -/
theorem execAll_keeps {P : State → Prop} {is : List Instr} {s t : State}
    (hP : ∀ i ∈ is, ∀ u v, exec i u = .next v → P u → P v) (h : execAll is s = .next t) (hs : P s) : P t := by
  induction is generalizing s with
  | nil => cases h; exact hs
  | cons i is ih =>
    obtain ⟨u, hexec, hrest⟩ := execAll_cons_eq_next h
    exact ih (fun j hj => hP j (.tail _ hj)) hrest (hP i (.head _) s u hexec hs)

theorem transferDirection_ne_none_of_map {is : List Instr} {ds : List DataDirection}
    (h : is.map transferDirection = ds.map some) {i : Instr} (hi : i ∈ is) : transferDirection i ≠ none := by
  obtain ⟨e, -, he⟩ := List.mem_map.1 (h ▸ List.mem_map_of_mem hi)
  exact he ▸ Option.some_ne_none e

theorem Transferred.admitted {e : DataDirection} {s t : State} (h : Transferred e s t) (i : Instr) :
    Machine.admitted i t = Machine.admitted i s := by
  have hrow : admits (admissionOf i) t = admits (admissionOf i) s := by
    cases admissionOf i <;> simp only [admits, State.transferring, h.ses, h.phase]
  rw [Machine.admitted, Machine.admitted, hrow, h.expDev, h.params]

/-- Settles O60, by induction on the operations. The first one cannot have failed, for a fault is never cleared
(`exec_transfer_keeps_fault`); so it has sent its frame or none (`Transferred.frames`) and left the direction and the
admission that the rest starts from. -/
theorem directionFramesAreCoalesced : Obligations.DirectionFramesAreCoalesced := by
  intro ops
  induction ops with
  | nil =>
    intro ds d s t hds _ _ _ h _
    obtain rfl : ds = [] := by simpa using hds.symm
    cases h
    rfl
  | cons i ops ih =>
    intro ds d s t hds hadm _ hd h ht
    cases ds with
    | nil => cases hds
    | cons e ds =>
      obtain ⟨hi, hops⟩ := List.cons.inj hds
      obtain ⟨u, hexec, hrest⟩ := execAll_cons_eq_next h
      have hnofault : u.ses.fault = none := by
        by_contra hu
        exact execAll_keeps (P := fun x => x.ses.fault ≠ none)
          (fun j hj _ _ => exec_transfer_keeps_fault (transferDirection_ne_none_of_map hops hj)) hrest hu ht
      have k : Transferred e s u := (exec_transfer hi (hadm i (.head _)) hexec).resolve_right (absurd hnofault)
      have htail := ih ds e u t hops (fun j hj => (k.admitted j).trans (hadm j (.tail _ hj))) hnofault k.dir hrest ht
      rw [k.expDev, k.frames, hd] at htail
      simpa only [directionChanges, Option.some.injEq, eq_comm (a := d), Nat.add_assoc] using htail

end Sys2Proof.Machine
end

section
/-! PROOFS of the statements of 41_header_dispatch.md: HW.READ from idle lines and with any answers (R114, R115),
HW.SEEK (R116, R117), how DISPATCH fails (R121, R123, R155, R156, R160), and the table of tags (R122). -/

namespace Sys2Proof.Machine

/-! ## The window operations are admitted in HeaderPhase (R34) -/

theorem issue_window {α : Type} {value : α → OpValue} {body : State → Res α} {s : State}
    (h : s.ses.phase = .headerPhase) : issue .window value body s = .next (finish value (body s)) :=
  issue_admitted (by simp [admits, h])

theorem exec_hwRead {s : State} (n : Nat) (h : s.ses.phase = .headerPhase) :
    exec (.hwRead n) s = .next (finish .bytes (windowRead n s)) :=
  issue_window h

theorem exec_hwSeek {s : State} (whence : Whence) (off : Int) (h : s.ses.phase = .headerPhase) :
    exec (.hwSeek whence off) s = .next (finish .position (windowSeek whence off s)) :=
  issue_window h

/-- R121: DISPATCH runs the session's decoder from position 0 and then makes of its answer what it can. -/
theorem exec_dispatch {s : State} (h : s.ses.phase = .headerPhase) :
    exec .dispatch s = .next (finish .reader
      ((runDecoder s.world.headerDecoder { s with win := { pos := 0 } }).bind constructReader)) :=
  issue_window h

/-! ## HW.READ from idle lines (R114, R115) -/

/-- R114: the events of one ADDR and one read segment for each of the bytes that `rs` brought, from `pos` on. -/
def windowEvents (v : Levels) (d : BitVec 3) (pos : Nat) (rs : List (Byte × Byte × Byte)) : List Event :=
  rs.zipIdx.flatMap fun r => Event.addr (BitVec.ofNat 16 (pos + r.2)) :: readEvents v d r.1.1 r.1.2.1 r.1.2.2

theorem windowEvents_cons (v : Levels) (d : BitVec 3) (pos : Nat) (r : Byte × Byte × Byte)
    (rs : List (Byte × Byte × Byte)) :
    windowEvents v d pos (r :: rs) =
      Event.addr (BitVec.ofNat 16 pos) :: readEvents v d r.1 r.2.1 r.2.2 ++ windowEvents v d (pos + 1) rs := by
  simp only [windowEvents, List.zipIdx_cons', List.flatMap_cons, List.flatMap_map, Prod.map, id_eq, Nat.add_zero,
    Nat.add_assoc, Nat.add_comm 1]

/-- R114: the state after an HW.READ from idle lines with the direction Input whose data frames brought `rs`. -/
def State.windowReadDone (s : State) (rs : List (Byte × Byte × Byte)) : State :=
  { s with
    drv := { s.drv with
      addr := if rs.length = 0 then s.drv.addr else some (BitVec.ofNat 16 (s.win.pos + rs.length - 1)) }
    win := { pos := s.win.pos + rs.length }
    trace := s.trace ++ windowEvents s.drv.lvl s.world.expDev s.win.pos rs
    world := World.advance^[rs.length] s.world }

/-- R115: the state after one byte of the window: its own address, its own read segment, the position past it. -/
def State.windowByteDone (s : State) (r : Byte × Byte × Byte) : State :=
  ((s.addressed (BitVec.ofNat 16 s.win.pos)).readDone r.1 r.2.1 r.2.2).withPos (s.win.pos + 1)

@[simp] theorem State.windowReadDone_nil (s : State) : s.windowReadDone [] = s := by
  simp [State.windowReadDone, windowEvents]

/-- R105: a read segment that finds the lines idle leaves the cached levels as they were. -/
theorem State.windowByteDone_lvl {s : State} (r : Byte × Byte × Byte) (h : StrobesIdle s) :
    (s.windowByteDone r).drv.lvl = s.drv.lvl := by
  obtain ⟨hrd, -, hcs⟩ := h
  show (s.drv.lvl.set .rd .H).set .cs .H = s.drv.lvl
  rw [Levels.set_eq_self (ln := .rd) hrd, Levels.set_eq_self (ln := .cs) hcs]

/-- R115: the first byte and then the rest are the whole read. -/
theorem State.windowReadDone_cons {s : State} (r : Byte × Byte × Byte) (rs : List (Byte × Byte × Byte))
    (h : StrobesIdle s) : (s.windowByteDone r).windowReadDone rs = s.windowReadDone (r :: rs) := by
  have hpos : s.win.pos + 1 + rs.length = s.win.pos + (rs.length + 1) := by omega
  have haddr : (if rs.length = 0 then some (BitVec.ofNat 16 s.win.pos)
      else some (BitVec.ofNat 16 (s.win.pos + 1 + rs.length - 1))) =
      some (BitVec.ofNat 16 (s.win.pos + (rs.length + 1) - 1)) := by
    split
    next hnil => rw [hnil]; rfl
    next => rw [hpos]
  have htrace : (s.windowByteDone r).trace ++ windowEvents s.drv.lvl s.world.expDev (s.win.pos + 1) rs =
      s.trace ++ windowEvents s.drv.lvl s.world.expDev s.win.pos (r :: rs) := by
    simp [windowEvents_cons, State.windowByteDone, State.readDone, State.addressed]
  have hlvl := State.windowByteDone_lvl r h
  rw [State.windowReadDone, State.windowReadDone, hlvl]
  congr 1
  case e_drv => exact congrArg₂ (fun a v => { s.drv with addr := a, lvl := v }) haddr hlvl
  case e_win => exact congrArg Window.mk hpos

theorem windowRead_succ_answered {s : State} {r : Byte × Byte × Byte} (n : Nat) (hpos : s.win.pos < Config.hdrEnd)
    (hd : s.drv.dir = some .input) (ha : s.world.answer = .answered r.1 r.2.1 r.2.2) :
    windowRead (n + 1) s = (windowRead n (s.windowByteDone r)).bind fun bs t => .ok (r.2.2 :: bs) t := by
  have hread : readByte .headerDecode (s.addressed (BitVec.ofNat 16 s.win.pos)) =
      .ok r.2.2 ((s.addressed (BitVec.ofNat 16 s.win.pos)).readDone r.1 r.2.1 r.2.2) := readByte_input_answered hd ha
  rw [windowRead, if_neg (Nat.not_le.2 hpos), busRead_eq, hread]
  rfl

/-- R114: with every data frame answered the bytes of the window are read one after another. -/
theorem windowRead_answered {rs : List (Byte × Byte × Byte)} {n : Nat} {s : State} (hidle : StrobesIdle s)
    (hd : s.drv.dir = some .input) (hlen : rs.length = min n (Config.hdrEnd - s.win.pos))
    (ha : ∀ k (h : k < rs.length), s.world.answerAt k = .answered rs[k].1 rs[k].2.1 rs[k].2.2) :
    windowRead n s = .ok (rs.map fun r => r.2.2) (s.windowReadDone rs) := by
  induction rs generalizing n s with
  | nil =>
    cases n with
    | zero => simp [windowRead]
    | succ n =>
      have hend : Config.hdrEnd ≤ s.win.pos := by rw [List.length_nil] at hlen; omega
      simp [windowRead, hend]
  | cons r rs ih =>
    cases n with
    | zero => simp at hlen
    | succ n =>
      rw [List.length_cons] at hlen
      have hrest : windowRead n (s.windowByteDone r) =
          .ok (rs.map fun r => r.2.2) ((s.windowByteDone r).windowReadDone rs) := by
        refine ih ?_ hd ?_ fun k hk => ?_
        · simpa only [StrobesIdle, State.windowByteDone_lvl r hidle] using hidle
        · show rs.length = min n (Config.hdrEnd - (s.win.pos + 1))
          omega
        · exact ha (k + 1) (Nat.succ_lt_succ hk)
      have hfirst : s.world.answer = .answered r.1 r.2.1 r.2.2 := ha 0 (Nat.zero_lt_succ _)
      rw [windowRead_succ_answered n (by omega) hd hfirst, hrest, Res.bind_ok,
        State.windowReadDone_cons r rs hidle]
      rfl

/-- Settles O27: the body is `windowRead_answered`, whose closed form is the statement's. -/
theorem hwReadReturnsTheWindowsBytes : Obligations.HwReadReturnsTheWindowsBytes := by
  intro s n rs hphase hidle hd hlen hanswers
  rw [exec_hwRead n hphase, windowRead_answered hidle hd hlen hanswers, finish_ok]
  rfl

/-! ## HW.READ whatever the lines and the answers (R114, R159) -/

/-- Settles O28: a read that completes is `windowRead_ok`, and one that does not is `windowRead_err`. -/
theorem hwReadIsShortOnlyAtTheWindowsEnd : Obligations.HwReadIsShortOnlyAtTheWindowsEnd := by
  intro s t n hphase hexec
  rw [exec_hwRead n hphase] at hexec
  cases hread : windowRead n s with
  | ok bs u =>
    have k := windowRead_ok n s u bs hread
    rw [hread] at hexec
    cases hexec
    exact .inl ⟨bs, by simp [State.returning, k.caller], k.length, k.pos, k.ses, k.data, k.addrs⟩
  | err e u =>
    obtain ⟨rfl, k⟩ := windowRead_err n s u e hread
    rw [hread] at hexec
    cases hexec
    exact .inr ⟨by simp [State.returning, k.caller], k.ses, k.pos_ge, k.pos_lt.1, k.pos_lt.2, k.addrs, k.data⟩

/-! ## HW.SEEK (R116, R117) -/

/-- R118: the legal targets are the positions of the window, in unbounded integers. -/
theorem seekLegal_iff (target : Int) : seekLegal target = true ↔ 0 ≤ target ∧ target < 0x150 :=
  decide_eq_true_iff

/-- Settles O29: the two clauses are the two ways in which a seek ends (`windowSeek_cases`). -/
theorem hwSeekMovesWithinTheWindowOnly : Obligations.HwSeekMovesWithinTheWindowOnly := by
  intro s w off hphase target
  have htarget : seekTarget w off s.win.pos = target := by cases w <;> rfl
  rw [exec_hwSeek w off hphase]
  have hcases := windowSeek_cases w off s
  rw [htarget] at hcases
  rcases hcases with ⟨hlegal, hseek⟩ | ⟨hlegal, hseek⟩ <;> rw [hseek]
  · exact ⟨fun _ => rfl, fun hout => absurd ((seekLegal_iff target).1 hlegal) hout⟩
  · exact ⟨fun hin => absurd ((seekLegal_iff target).2 hin) (by simp [hlegal]), fun _ => rfl⟩

/-! ## DISPATCH (R121, R123, R155, R156, R160) -/

/-- R158: raising an error that ends the session. -/
theorem raise_of_endsSession {α : Type} {e : EngineError} (s : State) (h : e.endsSession = true) :
    (raise e s : Res α) = .err e (s.faulted e) := by
  rw [raise, State.takeError, if_pos h]
  rfl

/-- R123, R155: a tag that no reader takes. -/
theorem constructReader_unsupported {h : RomHeader} (s : State) (hv : variantOf h.mbcType = none) :
    constructReader (.header h) s =
      .err (.unsupportedCartridge h.mbcType) (s.faulted (.unsupportedCartridge h.mbcType)) := by
  rw [constructReader, hv]
  exact raise_of_endsSession s rfl

/-- R156: a failure of the decoder's own and an address-range error that it passes up are one error. -/
theorem constructReader_decodeFailure {a : DecodeAnswer} (s : State)
    (ha : a = .decodeError ∨ ∃ t, a = .addressRange t) :
    constructReader a s = .err .headerDecode (s.faulted .headerDecode) := by
  rcases ha with rfl | ⟨t, rfl⟩ <;> exact raise_of_endsSession s rfl

/-- Settles O31: an answer that is no header of a reader is raised by `constructReader`; a bus error has ended the
decoder (`runDecoder_err`) and passes up as it is. -/
theorem dispatchFailuresEndTheSession : Obligations.DispatchFailuresEndTheSession := by
  intro s s1 hphase
  rw [exec_dispatch hphase]
  refine ⟨fun h hrun hv => ?unsupported, fun a hrun ha => ?undecoded, fun e hrun => ?busError⟩
  case unsupported => rw [hrun, Res.bind_ok, constructReader_unsupported s1 hv, finish_err]
  case undecoded => rw [hrun, Res.bind_ok, constructReader_decodeFailure s1 ha, finish_err]
  case busError =>
    obtain ⟨rfl, -, hses⟩ := runDecoder_err hrun
    exact ⟨rfl, hses, by rw [hrun, Res.bind_err, finish_err]⟩

/-! ## The tags (R122) -/

/-- Settles O33: row by row, with any number in the two families. -/
theorem variantOfEveryTag : Obligations.VariantOfEveryTag :=
  ⟨rfl, by decide, by decide, fun _ => rfl, by decide, fun _ => rfl⟩

end Sys2Proof.Machine
end

section
/-! PROOFS of the statements of 42_bank_readers.md, first part: the translation (R127, R128), the next-bank functions
and what they make of a counter that starts at 0 (R130-R132, R145, R146), the boundaries of a stretch of the stream
(R129, R147), and that the counter stays the one that the stream position has reached (R183). -/

namespace Sys2Proof.Machine

/-! ## The translation (R127, R128) -/

theorem translate_toNat_of_lt {lin : Nat} (h : lin < 0x4000) : (Machine.translate lin).toNat = lin := by
  rw [Machine.translate, Config.bankSize, if_pos h, BitVec.toNat_ofNat]
  omega

theorem translate_toNat_of_le {lin : Nat} (h : 0x4000 ≤ lin) :
    (Machine.translate lin).toNat = lin % 0x4000 + 0x4000 := by
  rw [Machine.translate, Config.bankSize, if_neg (Nat.not_lt.2 h), BitVec.toNat_ofNat]
  omega

/-- Settles O34: one equation for each of the two windows, and the rest is arithmetic. -/
theorem translateMapsIntoTheTwoWindows : Obligations.TranslateMapsIntoTheTwoWindows := by
  intro lin
  rcases Nat.lt_or_ge lin 0x4000 with h | h
  · rw [translate_toNat_of_lt h]
    omega
  · rw [translate_toNat_of_le h]
    omega

/-! ## The next-bank functions (R130-R132) -/

theorem nextBank1_toNat (b : BitVec 8) :
    (nextBank1 b).toNat =
      if b.toNat = 0x1F ∨ b.toNat = 0x3F ∨ b.toNat = 0x5F then b.toNat + 2 else (b.toNat + 1) % 256 := by
  unfold nextBank1
  split_ifs <;> bv_omega

/-- R131: MBC1's next bank of an 8-bit counter. -/
theorem nextBank_mbc1_toNat {b : BitVec 9} (h : b.toNat < 256) :
    (nextBank .mbc1 b).toNat =
      if b.toNat = 0x1F ∨ b.toNat = 0x3F ∨ b.toNat = 0x5F then b.toNat + 2 else (b.toNat + 1) % 256 := by
  have hnarrow : (b.setWidth 8).toNat = b.toNat := by rw [BitVec.toNat_setWidth, Nat.mod_eq_of_lt h]
  have hwide : (nextBank .mbc1 b).toNat = (nextBank1 (b.setWidth 8)).toNat := BitVec.toNat_setWidth_of_le (by decide)
  rw [hwide, nextBank1_toNat, hnarrow]

/-- R132: the next bank of an 8-bit counter without a skip. -/
theorem nextBank_eightBit_toNat {v : Variant} {b : BitVec 9} (hv : v = .mbc2 ∨ v = .mbc3) :
    (nextBank v b).toNat = (b.toNat + 1) % 256 := by
  have hsucc : ((b.setWidth 8 + 1#8).setWidth 9).toNat = (b.toNat + 1) % 256 := by bv_omega
  rcases hv with rfl | rfl <;> exact hsucc

/-- R132: the next bank of MBC5's 9-bit counter. -/
theorem nextBank_mbc5_toNat (b : BitVec 9) : (nextBank .mbc5 b).toNat = (b.toNat + 1) % 512 := rfl

/-- Settles O35, by the equation of each variant. -/
theorem nextBankOfEachVariant : Obligations.NextBankOfEachVariant := by
  intro b
  have hb : b < 512 → (BitVec.ofNat 9 b).toNat = b := Nat.mod_eq_of_lt
  refine ⟨fun h => ?_, fun h => by rw [nextBank_mbc5_toNat, hb h]⟩
  have hb := hb (by omega)
  refine ⟨?_, ?_, ?_⟩
  · rw [nextBank_mbc1_toNat (by omega), hb]
  · rw [nextBank_eightBit_toNat (.inl rfl), hb]
  · rw [nextBank_eightBit_toNat (.inr rfl), hb]

/-! ## The counter after a number of switches (R145, R146) -/

@[simp] theorem bankAfter_zero (v : Variant) : bankAfter v 0 = 0#9 := rfl

theorem bankAfter_succ (v : Variant) (k : Nat) : bankAfter v (k + 1) = nextBank v (bankAfter v k) :=
  Function.iterate_succ_apply' _ _ _

/-- Switches made in two stretches. -/
theorem iterate_nextBank_bankAfter (v : Variant) (j k : Nat) : (nextBank v)^[j] (bankAfter v k) = bankAfter v (j + k) :=
  (Function.iterate_add_apply _ _ _ _).symm

theorem bankAfter_eightBit_toNat {v : Variant} (hv : v = .mbc2 ∨ v = .mbc3) (k : Nat) :
    (bankAfter v k).toNat = k % 256 := by
  induction k with
  | zero => rfl
  | succ k ih => rw [bankAfter_succ, nextBank_eightBit_toNat hv, ih, Nat.mod_add_mod]

theorem bankAfter_mbc5_toNat (k : Nat) : (bankAfter .mbc5 k).toNat = k % 512 := by
  induction k with
  | zero => rfl
  | succ k ih => rw [bankAfter_succ, nextBank_mbc5_toNat, ih, Nat.mod_add_mod]

/-- Settles O36. -/
theorem bankAfterSwitchesCountsModuloTheWidth : Obligations.BankAfterSwitchesCountsModuloTheWidth :=
  fun k => ⟨bankAfter_eightBit_toNat (.inl rfl) k, bankAfter_eightBit_toNat (.inr rfl) k, bankAfter_mbc5_toNat k⟩

/-- R146: MBC1's counter runs ahead of the switches by the skips that it has made. -/
theorem bankAfter_mbc1_toNat {k : Nat} (h : k ≤ 252) :
    (bankAfter .mbc1 k).toNat = if k ≤ 31 then k else if k ≤ 62 then k + 1 else if k ≤ 93 then k + 2 else k + 3 := by
  induction k with
  | zero => rfl
  | succ k ih =>
    have hk := ih (by omega)
    have hlt : (bankAfter .mbc1 k).toNat < 256 := by split_ifs at hk <;> omega
    rw [bankAfter_succ, nextBank_mbc1_toNat hlt]
    split_ifs at hk ⊢ <;> omega

/-- R146: the switch after the counter's last value 255 takes it back to 0. -/
theorem bankAfter_mbc1_period : bankAfter .mbc1 253 = 0#9 := by
  have hlast : (bankAfter .mbc1 252).toNat = 255 := bankAfter_mbc1_toNat le_rfl
  refine BitVec.eq_of_toNat_eq ?_
  rw [bankAfter_succ, nextBank_mbc1_toNat (by omega), hlast]
  rfl

/-- Settles O37: the closed form (`bankAfter_mbc1_toNat`), and the period from the wrap (`bankAfter_mbc1_period`). -/
theorem mbc1BankAfterSwitchesSkipsThree : Obligations.Mbc1BankAfterSwitchesSkipsThree := by
  refine ⟨fun k h => bankAfter_mbc1_toNat h, fun k => ?_⟩
  rw [← iterate_nextBank_bankAfter, bankAfter_mbc1_period]
  rfl

/-! ## The boundaries of a stretch (R129, R147) -/

theorem trigger_iff (v : Variant) (lin : Nat) :
    trigger v lin = true ↔ v ≠ .romOnly ∧ lin ≠ 0 ∧ lin % 0x4000 = 0 := by
  simp [trigger, Config.bankSize, and_assoc]

@[simp] theorem crossings_zero : crossings 0 = 0 := by simp [crossings]

/-- R129: one position further, one more boundary has been crossed exactly where a switch is triggered. -/
theorem crossings_succ {v : Variant} (hv : v ≠ .romOnly) (lin : Nat) :
    crossings (lin + 1) = crossings lin + if trigger v lin then 1 else 0 := by
  simp only [trigger_iff, hv, ne_eq, not_false_eq_true, true_and, crossings, Config.bankSize]
  split_ifs <;> omega

/-- R147: the switches of a stretch are the boundaries between its two ends. -/
theorem crossings_add {v : Variant} (hv : v ≠ .romOnly) (lin m : Nat) :
    crossings (lin + m) = switches v lin m + crossings lin := by
  induction m with
  | zero => simp [switches]
  | succ m ih => rw [← Nat.add_assoc, crossings_succ hv, ih, switches_succ_last, Nat.add_right_comm]

theorem switches_romOnly (lin m : Nat) : switches .romOnly lin m = 0 :=
  List.countP_eq_zero.2 fun k _ => by simp [trigger_iff]

/-- Settles O44: from address 0 the switches are the boundaries crossed (`crossings_add`). -/
theorem wholeStreamSwitchCount : Obligations.WholeStreamSwitchCount := by
  intro v D
  split
  next hv => rw [hv, switches_romOnly]
  next hv =>
    have hcross := crossings_add hv 0 D
    simp only [crossings, Config.bankSize] at hcross
    omega

/-! ## The counter stays on the stream (R145, R146, R183) -/

/-- R145: a counter that is the one of its position is so again after the switches of a stretch. RomOnly's never
changes. -/
theorem iterate_switches_bankAfter (v : Variant) (lin m : Nat) :
    (nextBank v)^[switches v lin m] (bankAfter v (crossings lin)) = bankAfter v (crossings (lin + m)) := by
  by_cases hv : v = .romOnly
  · have hstill : ∀ k, bankAfter .romOnly k = 0#9 := Function.iterate_fixed rfl
    rw [hv, iterate_nextBank_bankAfter, hstill, hstill]
  · rw [iterate_nextBank_bankAfter, crossings_add hv]

theorem BankTracksStream.of_not_streaming {s : State} (h : s.ses.phase ≠ .streaming) : BankTracksStream s :=
  fun hs => absurd hs h

/-- An operation that leaves the reader alone, and the session or ends it. -/
theorem BankTracksStream.of_reader_same {s t : State} (h : BankTracksStream s) (hrdr : t.rdr = s.rdr)
    (hses : t.ses = s.ses ∨ ∃ e, t.ses = { phase := .ended, fault := some e }) : BankTracksStream t := by
  rcases hses with hses | ⟨e, hses⟩
  · rw [BankTracksStream, hses, hrdr]
    exact h
  · exact .of_not_streaming (by simp [hses])

/-- R95: BD.INIT starts from PreInit, and no stream runs after it. -/
theorem initDriver_bankTracksStream (s : State) : BankTracksStream (initDriver s).state := by
  refine .of_not_streaming ?_
  rcases s.world.answer_cases with ⟨q0, q1, q2, h1⟩ | h1
  · rcases s.world.advance.answer_cases with ⟨r0, r1, r2, h2⟩ | h2
    · simp [initDriver_answered h1 h2]
    · simp [initDriver_failed_second h1 h2, State.faulted]
  · simp [initDriver_failed_first h1, State.faulted]

/-- R121, R43: DISPATCH starts the stream with a fresh reader, at position 0 and bank 0, or ends the session. -/
theorem constructReader_bankTracksStream (a : DecodeAnswer) (s : State) :
    BankTracksStream (constructReader a s).state := by
  have ended : ∀ e : EngineError, e.endsSession = true → BankTracksStream (s.takeError e) := fun e he =>
    .of_not_streaming (by simp [State.takeError_ses, he])
  cases a with
  | header h =>
    rw [constructReader]
    cases hv : variantOf h.mbcType with
    | some v =>
      intro _ r hr
      obtain rfl : Reader.fresh v h = r := Option.some.inj hr
      show 0#9 = bankAfter v (crossings 0)
      rw [crossings_zero, bankAfter_zero]
    | none => exact ended _ rfl
  | decodeError => exact ended _ rfl
  | addressRange x => exact ended _ rfl

theorem dispatchWith_bankTracksStream (d : HeaderDecoder) (s : State) :
    BankTracksStream (dispatchWith d s).state := by
  rw [dispatchWith]
  cases h : runDecoder d (s.withPos 0) with
  | ok a t => exact constructReader_bankTracksStream a t
  | err e t =>
    obtain ⟨-, -, hses⟩ := runDecoder_err h
    exact .of_not_streaming (by simp [hses])

/-- R139, R145: a streaming read that completes has stepped the counter at every boundary of its stretch; one that
fails has ended the session. -/
theorem streamRead_bankTracksStream {s : State} {r : Reader} (n : Nat) (h : BankTracksStream s)
    (hphase : s.ses.phase = .streaming) (hr : s.rdr = some r) : BankTracksStream (streamRead n s).state := by
  cases hread : streamRead n s with
  | ok bs t =>
    intro _ r' hr'
    obtain rfl : r.advanced bs.length = r' := Option.some.inj ((streamRead_ok hr hread).rdr.symm.trans hr')
    show (nextBank r.variant)^[_] r.bank = _
    rw [h hphase r hr]
    exact iterate_switches_bankAfter _ _ _
  | err e t =>
    obtain ⟨m, k⟩ := streamRead_err hr hread
    exact .of_not_streaming (by simp [k.ses])

theorem exec_endsIn_bankTracksStream (i : Instr) {s : State} (h : BankTracksStream s) :
    EndsIn BankTracksStream (exec i s) := by
  by_cases hi : i = .bdInit
  · subst hi
    exact issue_endsIn h fun _ => initDriver_bankTracksStream s
  by_cases ht : i = .bdTeardown
  · subst ht
    exact issue_always_endsIn h fun _ => .of_not_streaming (by simp [teardown])
  by_cases hd : i = .dispatch
  · subst hd
    exact issue_endsIn h fun _ => dispatchWith_bankTracksStream _ s
  by_cases hread : ∃ n, i = .rdrRead n
  · obtain ⟨n, rfl⟩ := hread
    exact issueReader_endsIn h fun r hphase hr => streamRead_bankTracksStream n h hphase hr
  · have hreader : changesReader i = false := by cases i <;> simp_all [changesReader]
    obtain ⟨u, x, hu, hexec⟩ := exec_continues s hi ht hd
    exact ⟨u, x, h.of_reader_same ((exec_within hexec).reader hreader) hu.ses, hexec⟩

/-- R5, R165: a step that has a next state found no call, or ran one instruction in the state without its call. -/
theorem step_runs {s t : State} (h : step s = .next t) :
    t = s ∨ ∃ i rest, exec i { s with caller := { s.caller with calls := rest } } = .next t := by
  unfold step at h
  split at h
  next => cases h; exact .inl rfl
  next c rest _ =>
    split at h
    next i _ => exact .inr ⟨i, rest, h⟩
    next => cases h

/-- Settles O57: a step does nothing, or is an instruction (`step_runs`), which keeps the counter on the stream
(`exec_endsIn_bankTracksStream`). -/
theorem stepKeepsTheBankOnTheStream : Obligations.StepKeepsTheBankOnTheStream := by
  intro s t htracks h
  rcases step_runs h with rfl | ⟨i, rest, hrun⟩
  · exact htracks
  · have hpending : BankTracksStream { s with caller := { s.caller with calls := rest } } := htracks
    obtain ⟨u, r, hu, hexec⟩ := exec_endsIn_bankTracksStream i hpending
    obtain rfl : u.deliver r = t := Host.Outcome.next.inj (hexec.symm.trans hrun)
    exact hu

end Sys2Proof.Machine
end

section
/-! PROOFS of the statements of 42_bank_readers.md, second part: the bank-select sequences, completed and failed
(R133-R136, R149), and what RDR.READ, RDR.SIZE and RDR.STATUS do (R137-R144, R147, R150). -/

namespace Sys2Proof.Machine

/-! ## One bus write and two (R109, R133, R136) -/

theorem busWrite_of_completes {ctx : BusContext} {a : Addr} {v : Byte} {s t : State}
    (h : WriteCompletes (s.addressed a) v t) : busWrite ctx a v s = .ok () t :=
  writeByte_of_completes h

theorem busWrite_of_fails {ctx : BusContext} {a : Addr} {v : Byte} {s t : State}
    (h : WriteFails ctx (s.addressed a) v t) : busWrite ctx a v s = .err (.busCommunication ctx) t :=
  writeByte_of_fails h

/-- After a completed first write a sequence is what its rest makes of the state that the write leaves. -/
theorem bind_busWrite_of_completes {α : Type} {ctx : BusContext} {a : Addr} {v : Byte} {s t : State}
    {f : Unit → State → Res α} (h : WriteCompletes (s.addressed a) v t) : (busWrite ctx a v s).bind f = f () t := by
  rw [busWrite_of_completes h, Res.bind_ok]

/-- A failed first write ends the sequence: no second write is issued. -/
theorem bind_busWrite_of_fails {α : Type} {ctx : BusContext} {a : Addr} {v : Byte} {s t : State}
    {f : Unit → State → Res α} (h : WriteFails ctx (s.addressed a) v t) :
    (busWrite ctx a v s).bind f = .err (.busCommunication ctx) t := by
  rw [busWrite_of_fails h, Res.bind_err]

/-! ## BANKSEL.* (R133-R136) -/

/-- R161: an admitted operation whose body completes. -/
theorem issue_of_ok {α : Type} {k : Admission} {value : α → OpValue} {body : State → Res α} {s t : State} {v : α}
    (h : admits k s = true) (hbody : body s = .ok v t) :
    issue k value body s = .next (t.returning (.ok (value v))) := by
  rw [issue_admitted h, hbody, finish_ok]

/-- R161: an admitted operation whose body ends with an error. -/
theorem issue_of_err {α : Type} {k : Admission} {value : α → OpValue} {body : State → Res α} {s t : State}
    {e : EngineError} (h : admits k s = true) (hbody : body s = .err e t) :
    issue k value body s = .next (t.returning (.err e)) := by
  rw [issue_admitted h, hbody, finish_err]

/-- Settles O38: each sequence is its bus writes, one after the other (`bind_busWrite_of_completes`). -/
theorem bankSelectSequencesWriteTheirRegisters : Obligations.BankSelectSequencesWriteTheirRegisters := by
  intro s t u hadm
  refine ⟨fun b hlow hhigh => ?mbc1, fun b h => ?mbc2, fun b h => ?mbc3, fun b hlow hhigh => ?mbc5⟩
  case mbc1 => exact issue_of_ok hadm ((bind_busWrite_of_completes hlow).trans (busWrite_of_completes hhigh))
  case mbc2 => exact issue_of_ok hadm (busWrite_of_completes h)
  case mbc3 => exact issue_of_ok hadm (busWrite_of_completes h)
  case mbc5 => exact issue_of_ok hadm ((bind_busWrite_of_completes hlow).trans (busWrite_of_completes hhigh))

/-- A write whose next exchange fails, fails: at its direction frame, or, where it needs none, at its data frame. -/
theorem exists_writeFails (ctx : BusContext) {s : State} (v : Byte) (h : s.world.answer = .failed) :
    ∃ t, WriteFails ctx s v t := by
  by_cases hd : s.drv.dir = some .output
  · exact ⟨_, .inl ⟨hd, h, rfl⟩⟩
  · exact ⟨_, .inr (.inl ⟨hd, h, rfl⟩)⟩

/-- R159: a bus write that fails, wherever it does, has driven its address and stored nothing. -/
theorem WriteFails.only_address_driven {ctx : BusContext} {s t : State} {a : Addr} {v : Byte}
    (h : WriteFails ctx (s.addressed a) v t) :
    t.ses = busFault ctx ∧ t.caller = s.caller ∧ addrsOf t.trace = addrsOf s.trace ++ [a] ∧ t.cart = s.cart ∧
      t.drv.addr = some a := by
  obtain ⟨-, k⟩ := writeByte_err (writeByte_of_fails h)
  exact ⟨k.ses, k.same.caller, by simpa [State.addressed] using k.addrs, k.cart, k.addr⟩

/-- Settles O39: a failed write passes up through its sequence, as the first write (`bind_busWrite_of_fails`) or after
a first one that completed (`bind_busWrite_of_completes`); and where the first exchange fails the first write does. -/
theorem bankSelectStopsAtItsFirstFailedWrite : Obligations.BankSelectStopsAtItsFirstFailedWrite := by
  intro s hadm fails
  have mbc1First : ∀ t (b : BitVec 8),
      WriteFails .bankSelect (s.addressed 0x2000#16) ((b.extractLsb' 0 5).setWidth 8) t → fails (.bankselMbc1 b) t :=
    fun t b h => issue_of_err hadm (bind_busWrite_of_fails h)
  have mbc5First : ∀ t (b : BitVec 9),
      WriteFails .bankSelect (s.addressed 0x2000#16) (b.extractLsb' 0 8) t → fails (.bankselMbc5 b) t :=
    fun t b h => issue_of_err hadm (bind_busWrite_of_fails h)
  refine ⟨mbc1First, fun t u b hlow hhigh => ?mbc1Second, fun t b h => ?mbc2, fun t b h => ?mbc3, mbc5First,
    fun t u b hlow hhigh => ?mbc5Second, fun hfail i hi => ?firstExchange⟩
  case mbc1Second => exact issue_of_err hadm ((bind_busWrite_of_completes hlow).trans (busWrite_of_fails hhigh))
  case mbc2 => exact issue_of_err hadm (busWrite_of_fails h)
  case mbc3 => exact issue_of_err hadm (busWrite_of_fails h)
  case mbc5Second => exact issue_of_err hadm ((bind_busWrite_of_completes hlow).trans (busWrite_of_fails hhigh))
  case firstExchange =>
    have first : ∀ v, ∃ t, WriteFails .bankSelect (s.addressed 0x2000#16) v t := fun v => exists_writeFails _ v hfail
    obtain ⟨v, t, h, hexec⟩ : ∃ v t, WriteFails .bankSelect (s.addressed 0x2000#16) v t ∧ fails i t := by
      rcases hi with ⟨b, rfl⟩ | ⟨b, rfl⟩
      · obtain ⟨t, h⟩ := first ((b.extractLsb' 0 5).setWidth 8)
        exact ⟨_, t, h, mbc1First t b h⟩
      · obtain ⟨t, h⟩ := first (b.extractLsb' 0 8)
        exact ⟨_, t, h, mbc5First t b h⟩
    obtain ⟨hses, hcaller, haddrs, hcart, haddr⟩ := h.only_address_driven
    exact ⟨_, hexec, hses, by rw [State.returning, hcaller], haddrs, hcart, haddr⟩

/-! ## RDR.READ (R137-R142, R147, R150) -/

theorem streamRead_nothing {n : Nat} {r : Reader} {s : State} (hr : s.rdr = some r)
    (h : n = 0 ∨ r.declared ≤ r.linear) : streamRead n s = .ok [] s := by
  cases n with
  | zero => rfl
  | succ n => rw [streamRead_succ n hr, if_neg (by omega)]

/-- Settles O42. -/
theorem rdrReadAtTheEndOfTheStreamTouchesNothing : Obligations.RdrReadAtTheEndOfTheStreamTouchesNothing := by
  intro s r n hphase hr hnothing
  rw [exec_rdrRead n hphase hr, streamRead_nothing hr hnothing, finish_ok]

/-- R148: byte by byte, WR is pulsed by the bank switches of the stretch read and by nothing else. -/
theorem streamRead_pulses {n : Nat} {r : Reader} {s t : State} {bs : List Byte} (hr : s.rdr = some r)
    (hwr : s.drv.lvl.wr = some .H) (h : streamRead n s = .ok bs t) :
    writePulses t.trace = writePulses s.trace + writesPerSwitch r.variant * switches r.variant r.linear bs.length := by
  induction n generalizing r s bs with
  | zero => cases h; simp [switches]
  | succ n ih =>
    rw [streamRead_succ n hr] at h
    split at h
    next =>
      obtain ⟨b, s1, h1, h2⟩ := (Res.bind_eq_ok _ _ _ _).1 h
      obtain ⟨bs', s2, h3, h4⟩ := (Res.bind_eq_ok _ _ _ _).1 h2
      cases h4
      have k := streamByte_ok hr h1
      rw [ih k.rdr (k.wr hwr) h3, k.pulses hwr, List.length_cons, switches_succ]
      split <;> ring
    next => cases h; simp [switches]

/-- Settles O43: an Ok in the caller's list is that of the streaming read, whose pulses are `streamRead_pulses`. -/
theorem rdrReadPulsesWrOnlyAtBoundaries : Obligations.RdrReadPulsesWrOnlyAtBoundaries := by
  intro s t r n bs hphase hr hwr hexec hret
  rw [exec_rdrRead n hphase hr] at hexec
  cases hread : streamRead n s with
  | ok bs' u =>
    rw [hread] at hexec
    cases hexec
    obtain rfl : bs' = bs := by simpa [State.returning, (streamRead_ok hr hread).caller] using hret
    show writePulses u.trace = _
    exact streamRead_pulses hr hwr hread
  | err e u =>
    obtain ⟨m, k⟩ := streamRead_err hr hread
    rw [hread] at hexec
    cases hexec
    simp [State.returning, k.caller] at hret

/-! ## RDR.SIZE and RDR.STATUS (R143, R144) -/

/-- R34: while the session streams, an operation on its reader is its body. -/
theorem issueReader_streaming {α : Type} {value : α → OpValue} {body : Reader → State → Res α} {s : State} {r : Reader}
    (hphase : s.ses.phase = .streaming) (hr : s.rdr = some r) :
    issueReader value body s = .next (finish value (body r s)) := by
  have hadmits : admits .reader s = true := by simp [admits, hphase]
  simp only [issueReader, hadmits, hr, if_true]

/-- Settles O45. -/
theorem rdrSizeAndStatusOnlyReport : Obligations.RdrSizeAndStatusOnlyReport :=
  fun _ _ hphase hr => ⟨issueReader_streaming hphase hr, issueReader_streaming hphase hr⟩

end Sys2Proof.Machine
end

section
/-! PROOFS of the statements of 60_exceptions.md: a step that runs no instruction (R82, R84, R165), and what raising an
error ends (R151, R154, R158). -/

namespace Sys2Proof.Machine

/-! ## A step that runs no instruction (R82, R84, R165) -/

/-- R165: with no pending call the engine sits idle. -/
theorem step_of_no_call {s : State} (hcalls : s.caller.calls = []) : step s = .next s := by
  simp only [step, hcalls]

/-- R82, R84, log 20: a pending call that decodes to nothing is refused with the decoder's reason. -/
theorem step_of_undecodable {s : State} {c : Call} {rest : List Call} {e : DecodeError}
    (hcalls : s.caller.calls = c :: rest) (hdecode : decode s.variant c = .error e) :
    step s = .refused (.undecodable e) := by
  simp only [step, hcalls, hdecode]

/-- Settles O6. -/
theorem stepIdlesWithoutACallAndRefusesWhatDoesNotDecode :
    Obligations.StepIdlesWithoutACallAndRefusesWhatDoesNotDecode :=
  fun _ => ⟨step_of_no_call, fun _ _ _ => step_of_undecodable⟩

/-! ## Errors (R151, R154, R158) -/

/-- R151: AddressRangeError, code 2, is the one error that does not end the session. -/
theorem EngineError.endsSession_iff (e : EngineError) : e.endsSession = true ↔ e.code ≠ 2 := by
  cases e <;> simp [EngineError.endsSession, EngineError.code]

/-- R158: an error that ends the session is recorded as its fault. -/
theorem State.takeError_of_endsSession {e : EngineError} (s : State) (h : e.endsSession = true) :
    s.takeError e = s.faulted e :=
  congrArg Res.state (raise_of_endsSession (α := Unit) s h)

/-- R154: an error that does not end the session leaves the state alone. -/
theorem State.takeError_of_not_endsSession {e : EngineError} (s : State) (h : ¬ e.endsSession = true) :
    s.takeError e = s := by
  rw [State.takeError, if_neg h]

/-- Settles O48: the codes are the definition's rows, and the code says whether an error ends the session
(`EngineError.endsSession_iff`). -/
theorem errorCodesAndWhatTheyEnd : Obligations.ErrorCodesAndWhatTheyEnd := by
  refine ⟨fun _ => rfl, fun _ => rfl, fun _ => rfl, rfl, fun e s => ?_⟩
  split
  next hcode => exact s.takeError_of_not_endsSession fun h => e.endsSession_iff.1 h hcode
  next hcode => exact s.takeError_of_endsSession (e.endsSession_iff.2 hcode)

end Sys2Proof.Machine
end
